-- ==== Sys2Proof/Word.lean ====
section
/-! DEFINITION. The value types of the block: bytes, 16-bit words, line levels, and the spec's "no defined value". -/

namespace Sys2Proof

/-- `u8` of rule R9 (00_scope.md). -/
abbrev Byte := BitVec 8

/-- The 16-bit pattern of a `u16` or of an `i16`, rule R9 (00_scope.md). -/
abbrev Half := BitVec 16

/-- A level, rule R9 (00_scope.md): `low` is 0 (LOW), `high` is 1 (HIGH). -/
inductive Level where
  | low
  | high
  deriving DecidableEq, Repr, Inhabited

/-- The other level (`1 - A` in rule R164). -/
def Level.other : Level → Level
  | .low => .high
  | .high => .low

/-- A value that may be the spec's `X`, "no defined value" (rules R20, R76): `x` is `X`, `is a` a defined value.
`X` is the value rule R35 gives the pin latches at reset; a comparison with a level finds it different from both. -/
inductive Latch (α : Type) where
  | x
  | is (a : α)
  deriving DecidableEq, Repr, Inhabited

end Sys2Proof
end

