-- ==== Sys2Proof/Config.lean ====
section
/-! DEFINITION. The configuration record of 00_scope.md rules R7 and R8, its reference value REF, the fixed numbers of
rule R7, and the one free value: the byte a panel read returns (20_memory.md rule R90). -/

namespace Sys2Proof

/-- One entry of `INIT_SEQ` (R7): a panel opcode and its data bytes. -/
structure PanelCommand where
  op : Byte
  data : List Byte
  deriving DecidableEq, Repr

/-- `PANEL_FAST_AXIS` (R7, R85): which window index runs first. -/
inductive FastAxis where
  | col
  | row
  deriving DecidableEq, Repr

/-- `Cfg` (00_scope.md rule R7): every quantity the source leaves open. A constant of the run (log 1). -/
structure Cfg where
  screenW : Nat
  screenH : Nat
  gap : Nat
  wrapLimit : Int
  /-- `TIME_UNIT`, in microseconds (DESIGN CHOICE of the unit, log 14). No rule reads it. -/
  timeUnit : Nat
  tWake : Nat
  rstALevel : Level
  csIdleLevel : Level
  opCaset : Byte
  opPaset : Byte
  opRamwr : Byte
  initSeq : List PanelCommand
  initClearByte : Byte
  sizeReset : Byte
  fgReset : Half
  bgReset : Half
  /-- `GLYPH_TABLE` (R61, R64): 96 glyphs of five column bytes each. -/
  glyphTable : List (List Byte)
  panelFastAxis : FastAxis
  panelCsActive : Option Level
  deriving DecidableEq, Repr

/-- The opcodes the panel reference model must tell apart (R8): the three of windows and streams, then `INIT_SEQ`'s. -/
def Cfg.panelOpcodes (c : Cfg) : List Byte :=
  [c.opCaset, c.opPaset, c.opRamwr] ++ c.initSeq.map (·.op)

/-- Whether a list has exactly `n` entries. -/
def hasLength {α : Type} : List α → Nat → Bool
  | [], 0 => true
  | [], _ + 1 => false
  | _ :: _, 0 => false
  | _ :: l, n + 1 => hasLength l n

/-- R61, R65: 96 entries of five column bytes (log 12). -/
def Cfg.glyphTableOk (c : Cfg) : Bool :=
  hasLength c.glyphTable 96 && c.glyphTable.all (hasLength · 5)

/-- R8: the constraints a configuration must satisfy for the rules to apply. -/
def Cfg.wf (c : Cfg) : Bool :=
  decide (1 ≤ c.screenW) && decide (c.screenW ≤ 32767) && decide (1 ≤ c.screenH) && decide (c.screenH ≤ 32767)
    && decide (c.gap < c.screenW) && decide (c.gap ≤ 32767) && decide (c.sizeReset ≠ 0)
    && decide (c.initSeq.length = 5) && decide c.panelOpcodes.Nodup && c.glyphTableOk

namespace Config

/-- `T_RST1`, `T_RST2`, `T_RST3` (R7, R266): the minimum holds of the reset pulse train. -/
def tRst1 : Nat := 10
@[inherit_doc tRst1] def tRst2 : Nat := 20
@[inherit_doc tRst1] def tRst3 : Nat := 20

/-- `CURSOR_ROW0` (R7): the cursor row after reset and after clear. -/
def cursorRow0 : Half := 2

/-- The oracle of rule R90 (20_memory.md; decision D27): byte number `n` that `Sample` takes, counted from power-up.
FREE VALUE (log 6): no body, no law, any of the 256 values for each `n`. -/
opaque readOracle : Nat → Byte

/-- Rule R66 (20_memory.md): the REF glyphs of symbols 0x20 to 0x2F [general knowledge, G1]. -/
def refGlyphs0 : List (List Byte) :=
  [[0x00, 0x00, 0x00, 0x00, 0x00], [0x00, 0x00, 0x5F, 0x00, 0x00],
   [0x00, 0x07, 0x00, 0x07, 0x00], [0x14, 0x7F, 0x14, 0x7F, 0x14],
   [0x24, 0x2A, 0x7F, 0x2A, 0x12], [0x23, 0x13, 0x08, 0x64, 0x62],
   [0x36, 0x49, 0x55, 0x22, 0x50], [0x00, 0x05, 0x03, 0x00, 0x00],
   [0x00, 0x1C, 0x22, 0x41, 0x00], [0x00, 0x41, 0x22, 0x1C, 0x00],
   [0x08, 0x2A, 0x1C, 0x2A, 0x08], [0x08, 0x08, 0x3E, 0x08, 0x08],
   [0x00, 0x50, 0x30, 0x00, 0x00], [0x08, 0x08, 0x08, 0x08, 0x08],
   [0x00, 0x60, 0x60, 0x00, 0x00], [0x20, 0x10, 0x08, 0x04, 0x02]]

/-- Rule R66 (20_memory.md): the REF glyphs of symbols 0x30 to 0x3F [general knowledge, G1]. -/
def refGlyphs1 : List (List Byte) :=
  [[0x3E, 0x51, 0x49, 0x45, 0x3E], [0x00, 0x42, 0x7F, 0x40, 0x00],
   [0x42, 0x61, 0x51, 0x49, 0x46], [0x21, 0x41, 0x45, 0x4B, 0x31],
   [0x18, 0x14, 0x12, 0x7F, 0x10], [0x27, 0x45, 0x45, 0x45, 0x39],
   [0x3C, 0x4A, 0x49, 0x49, 0x30], [0x01, 0x71, 0x09, 0x05, 0x03],
   [0x36, 0x49, 0x49, 0x49, 0x36], [0x06, 0x49, 0x49, 0x29, 0x1E],
   [0x00, 0x36, 0x36, 0x00, 0x00], [0x00, 0x56, 0x36, 0x00, 0x00],
   [0x00, 0x08, 0x14, 0x22, 0x41], [0x14, 0x14, 0x14, 0x14, 0x14],
   [0x41, 0x22, 0x14, 0x08, 0x00], [0x02, 0x01, 0x51, 0x09, 0x06]]

/-- Rule R66 (20_memory.md): the REF glyphs of symbols 0x40 to 0x4F [general knowledge, G1]. -/
def refGlyphs2 : List (List Byte) :=
  [[0x32, 0x49, 0x79, 0x41, 0x3E], [0x7E, 0x11, 0x11, 0x11, 0x7E],
   [0x7F, 0x49, 0x49, 0x49, 0x36], [0x3E, 0x41, 0x41, 0x41, 0x22],
   [0x7F, 0x41, 0x41, 0x22, 0x1C], [0x7F, 0x49, 0x49, 0x49, 0x41],
   [0x7F, 0x09, 0x09, 0x01, 0x01], [0x3E, 0x41, 0x41, 0x51, 0x32],
   [0x7F, 0x08, 0x08, 0x08, 0x7F], [0x00, 0x41, 0x7F, 0x41, 0x00],
   [0x20, 0x40, 0x41, 0x3F, 0x01], [0x7F, 0x08, 0x14, 0x22, 0x41],
   [0x7F, 0x40, 0x40, 0x40, 0x40], [0x7F, 0x02, 0x04, 0x02, 0x7F],
   [0x7F, 0x04, 0x08, 0x10, 0x7F], [0x3E, 0x41, 0x41, 0x41, 0x3E]]

/-- Rule R66 (20_memory.md): the REF glyphs of symbols 0x50 to 0x5F [general knowledge, G1]. -/
def refGlyphs3 : List (List Byte) :=
  [[0x7F, 0x09, 0x09, 0x09, 0x06], [0x3E, 0x41, 0x51, 0x21, 0x5E],
   [0x7F, 0x09, 0x19, 0x29, 0x46], [0x46, 0x49, 0x49, 0x49, 0x31],
   [0x01, 0x01, 0x7F, 0x01, 0x01], [0x3F, 0x40, 0x40, 0x40, 0x3F],
   [0x1F, 0x20, 0x40, 0x20, 0x1F], [0x7F, 0x20, 0x18, 0x20, 0x7F],
   [0x63, 0x14, 0x08, 0x14, 0x63], [0x03, 0x04, 0x78, 0x04, 0x03],
   [0x61, 0x51, 0x49, 0x45, 0x43], [0x00, 0x00, 0x7F, 0x41, 0x41],
   [0x02, 0x04, 0x08, 0x10, 0x20], [0x41, 0x41, 0x7F, 0x00, 0x00],
   [0x04, 0x02, 0x01, 0x02, 0x04], [0x40, 0x40, 0x40, 0x40, 0x40]]

/-- Rule R66 (20_memory.md): the REF glyphs of symbols 0x60 to 0x6F [general knowledge, G1]. -/
def refGlyphs4 : List (List Byte) :=
  [[0x00, 0x01, 0x02, 0x04, 0x00], [0x20, 0x54, 0x54, 0x54, 0x78],
   [0x7F, 0x48, 0x44, 0x44, 0x38], [0x38, 0x44, 0x44, 0x44, 0x20],
   [0x38, 0x44, 0x44, 0x48, 0x7F], [0x38, 0x54, 0x54, 0x54, 0x18],
   [0x08, 0x7E, 0x09, 0x01, 0x02], [0x08, 0x14, 0x54, 0x54, 0x3C],
   [0x7F, 0x08, 0x04, 0x04, 0x78], [0x00, 0x44, 0x7D, 0x40, 0x00],
   [0x20, 0x40, 0x44, 0x3D, 0x00], [0x00, 0x7F, 0x10, 0x28, 0x44],
   [0x00, 0x41, 0x7F, 0x40, 0x00], [0x7C, 0x04, 0x18, 0x04, 0x78],
   [0x7C, 0x08, 0x04, 0x04, 0x78], [0x38, 0x44, 0x44, 0x44, 0x38]]

/-- Rule R66 (20_memory.md): the REF glyphs of symbols 0x70 to 0x7F [general knowledge, G1]. -/
def refGlyphs5 : List (List Byte) :=
  [[0x7C, 0x14, 0x14, 0x14, 0x08], [0x08, 0x14, 0x14, 0x18, 0x7C],
   [0x7C, 0x08, 0x04, 0x04, 0x08], [0x48, 0x54, 0x54, 0x54, 0x20],
   [0x04, 0x3F, 0x44, 0x40, 0x20], [0x3C, 0x40, 0x40, 0x20, 0x7C],
   [0x1C, 0x20, 0x40, 0x20, 0x1C], [0x3C, 0x40, 0x30, 0x40, 0x3C],
   [0x44, 0x28, 0x10, 0x28, 0x44], [0x0C, 0x50, 0x50, 0x50, 0x3C],
   [0x44, 0x64, 0x54, 0x4C, 0x44], [0x00, 0x08, 0x36, 0x41, 0x00],
   [0x00, 0x00, 0x7F, 0x00, 0x00], [0x00, 0x41, 0x36, 0x08, 0x00],
   [0x08, 0x08, 0x2A, 0x1C, 0x08], [0x08, 0x1C, 0x2A, 0x08, 0x08]]

/-- The REF glyph table of rule R66. PRESUMED (log 3): general knowledge of the spec's writer, not of the source. -/
def refGlyphTable : List (List Byte) :=
  refGlyphs0 ++ refGlyphs1 ++ refGlyphs2 ++ refGlyphs3 ++ refGlyphs4 ++ refGlyphs5

/-- The REF power-on sequence of rule R7 (pump ratio, pixel format, memory access, sleep out, display on). PRESUMED (log 3). -/
def refInitSeq : List PanelCommand :=
  [⟨0xF7, [0x20]⟩, ⟨0x3A, [0x55]⟩, ⟨0x36, [0x48]⟩, ⟨0x11, []⟩, ⟨0x29, []⟩]

/-- REF, the reference configuration of rule R7. Its geometry is a DESIGN CHOICE of the spec (log 1), its panel
opcodes, waits and glyphs PRESUMED (log 3). -/
def ref : Cfg where
  screenW := 240
  screenH := 320
  gap := 2
  wrapLimit := 240
  timeUnit := 1000
  tWake := 120
  rstALevel := .high
  csIdleLevel := .low
  opCaset := 0x2A
  opPaset := 0x2B
  opRamwr := 0x2C
  initSeq := refInitSeq
  initClearByte := 0x00
  sizeReset := 1
  fgReset := 0xFFFF
  bgReset := 0x0000
  glyphTable := refGlyphTable
  panelFastAxis := .col
  panelCsActive := none

end Config

end Sys2Proof
end

