-- ==== Sys2Proof/Machine/State.lean ====
section
/-! DEFINITION. The machine's state as plain data: the block's record `S` (10_state.md rules R20, R35), the host ports (R30),
the event trace (00_scope.md rule R10), the configuration (R7), and the panel's record `P` (20_memory.md rule R76). -/

namespace Sys2Proof.Machine

/-- The five control lines, R25. -/
inductive Line where
  | rst | cs | rs | wr | rd
  deriving DecidableEq, Repr

/-- Direction of the data lines, R26: `inp` is `IN`, `out` is `OUT`. -/
inductive BusDir where
  | inp | out
  deriving DecidableEq, Repr

/-- The events of the pin trace, one per primitive of 00_scope.md rule R10. -/
inductive PinEvent where
  | ctlOut
  | set (line : Line) (l : Level)
  | dir (d : BusDir)
  | drive (v : Byte)
  | sample (v : Byte)
  | wait (n : Nat)
  | respond (v : Byte)
  deriving DecidableEq, Repr

/-- The items of the transaction trace, 00_scope.md rule R11 and 20_memory.md rule R77. -/
inductive Transaction where
  | cmd (b : Byte)
  | dat (b : Byte)
  | rd (v : Byte)
  | rstLevel (l : Level)
  | csLevel (l : Level)
  | wait (n : Nat)
  deriving DecidableEq, Repr

/-- The pin fields of `S`, R20, R25 to R27. -/
structure Pins where
  rst : Latch Level
  cs : Latch Level
  rs : Latch Level
  wr : Latch Level
  rd : Latch Level
  ddir : Latch BusDir
  dout : Latch Byte
  ctlOut : Bool
  deriving DecidableEq, Repr

/-- R35: after hardware reset every latch holds `X` and no control line is driven. -/
def Pins.unset : Pins := ⟨.x, .x, .x, .x, .x, .x, .x, false⟩

/-- What the panel expects next, `P.mode` of R76. -/
inductive PanelMode where
  | idle
  | args (op : Byte) (got : List Byte)
  | memWrite
  deriving DecidableEq, Repr

/-- Frame memory, R68 and R76: one cell per written pixel, key and 16-bit value, keys strictly rising (`Memory.wf`).
An unlisted key is a pixel that holds `X` (log 9). -/
abbrev Memory := List (Nat × Half)

/-- The panel state `P`, R76. -/
structure Panel where
  undef : Bool
  inReset : Bool
  mode : PanelMode
  c0 : Latch Half
  c1 : Latch Half
  r0 : Latch Half
  r1 : Latch Half
  x : Latch Half
  y : Latch Half
  half : Option Byte
  /-- `P.cfg[0..4]` -/
  cfgDone : List Bool
  gram : Memory
  deriving DecidableEq, Repr

/-- R76: the panel at power-up. R76 names no value for `half`, whose type has no `X`, no `false` and no `Idle`: `none` is the
model's choice (log 21). -/
def Panel.powerUp : Panel where
  undef := true
  inReset := false
  mode := .idle
  c0 := .x
  c1 := .x
  r0 := .x
  r1 := .x
  x := .x
  y := .x
  half := none
  cfgDone := List.replicate 5 false
  gram := []

/-- The causes of 60_exceptions.md rule R231. -/
inductive Cause where
  | illegalOpcode | notReady | badSymbol | badSize | badWindow | range
  deriving DecidableEq, Repr

/-- Why no step is possible. Neither is a fault of the block: the block's own faults (R231) are next states. -/
inductive Fault where
  /-- Raised by `step` when the pending bytes stop inside a command: the block waits for ever (R118, stuck). Safe. -/
  | truncatedCommand
  /-- Raised by `step` when no byte is pending: the run has ended (R31). Safe. -/
  | endOfRun
  deriving DecidableEq, Repr

/-- Why the model does not run. -/
inductive Refusal where
  /-- Raised by an arm of `exec` whose instruction has no meaning yet; no arm does. Safe. -/
  | notModelled (mnemonic : String)
  /-- Raised by `step` when the configuration breaks R8: it spells no block. Safe. -/
  | badConfiguration
  deriving DecidableEq, Repr

/-- The whole machine. Fields not of the spec's `S` or `P`: `cfg` (R7, constant), `cp` (R31), `cmdIn` and `respOut` (R30),
`history` (R10, newest event first), and the model's own counter `samples` (log 6). -/
structure State where
  cfg : Cfg
  col : Half
  row : Half
  size : Byte
  fg : Half
  bg : Half
  pins : Pins
  ready : Bool
  fault : Bool
  fcause : Byte
  finfo : Half
  cp : Nat
  cmdIn : List Byte
  respOut : List Byte
  samples : Nat
  history : List PinEvent
  panel : Panel
  deriving DecidableEq, Repr

/-- The state after power-up of a block with configuration `c`: the block as after every hardware reset (R35, R260), the panel
as R76 gives it. -/
def State.resetOf (c : Cfg) : State where
  cfg := c
  col := BitVec.ofNat 16 c.gap
  row := Config.cursorRow0
  size := c.sizeReset
  fg := c.fgReset
  bg := c.bgReset
  pins := Pins.unset
  ready := false
  fault := false
  fcause := 0
  finfo := 0
  cp := 0
  cmdIn := []
  respOut := []
  samples := 0
  history := []
  panel := Panel.powerUp

/-- The state after power-up under REF (log 1, 2, 3). -/
def State.reset : State := State.resetOf Config.ref

/-- `S.trace` (R10): the events in the order they occurred. -/
def State.trace (s : State) : List PinEvent := s.history.reverse

end Sys2Proof.Machine
end

