-- ==== Sys2Proof/Machine/Flags.lean ====
section
/-! DEFINITION. The one-bit status outputs and the fault cause codes. The block has no condition codes and no arithmetic
flags (10_state.md rule R32); its status bits are `ready`, `fault` and `ctl_out`. -/

namespace Sys2Proof.Machine

/-- Port `ready_o` (R28, R30). -/
def readyO (s : State) : Bool := s.ready

/-- Port `fault_o` (R29, R30). -/
def faultO (s : State) : Bool := s.fault

/-- The cause codes of 60_exceptions.md rule R231; 0 means no fault has occurred. -/
def Cause.code : Cause → Byte
  | .illegalOpcode => 1
  | .notReady => 2
  | .badSymbol => 3
  | .badSize => 4
  | .badWindow => 5
  | .range => 6

end Sys2Proof.Machine
end

