-- ==== Sys2Proof/Machine/Memory.lean ====
section
/-! DEFINITION. The panel's frame memory (20_memory.md rules R68, R76) and the glyph ROM (R61 to R63). -/

namespace Sys2Proof.Machine

/-- The canonical form: keys strictly rising. A cell always holds a value and an unlisted key reads as `X`, so no cell
equals what an unlisted key reads as. -/
def Memory.wf : Memory → Bool
  | [] => true
  | [_] => true
  | p :: q :: m => decide (p.1 < q.1) && Memory.wf (q :: m)

/-- The pixel at a key, `X` where nothing has been written since the panel reset (R76, R78). -/
def Memory.read : Memory → Nat → Latch Half
  | [], _ => .x
  | (k, v) :: m, a => if a = k then .is v else Memory.read m a

/-- Write one pixel, keeping the canonical form. -/
def Memory.write : Memory → Nat → Half → Memory
  | [], a, v => [(a, v)]
  | (k, u) :: m, a, v =>
      if a < k then (a, v) :: (k, u) :: m
      else if a = k then (a, v) :: m
      else (k, u) :: Memory.write m a v

/-- The key of pixel `(x, y)`. Keys fall as the screen is scanned from its first pixel, so a top-to-bottom stream adds each
pixel at the head of the list (log 9). -/
def pixelKey (x y : Half) : Nat := (65535 - y.toNat) * 65536 + (65535 - x.toNat)

/-- `MemRead(off, 1)` on the glyph ROM (R63): `GLYPH_TABLE[off div 5][off mod 5]`. Offsets above 479 are never presented; that
they read 0 is the model's choice (log 20). -/
def romRead (c : Cfg) (off : Nat) : Byte :=
  (c.glyphTable.getD (off / 5) []).getD (off % 5) 0

end Sys2Proof.Machine
end

