-- ==== Sys2Proof/Syntax.lean ====
section
/-! DEFINITION. The eighteen commands of 30_encoding.md rule R113, with their operands as rule R114 reads them. -/

namespace Sys2Proof

/-- One constructor per row of spec/opcode_table.json (R113). An 8-bit operand is a `Byte`; a 16-bit operand is the
pattern `{hi, lo}`, read as `i16` or as `u16` by the meaning (R114); the operand of STR is its list of symbols (R111). -/
inductive Instr where
  /-- WRB, R144 -/
  | wrb (a : Byte)
  /-- SELC, R145 -/
  | selc
  /-- SELD, R146 -/
  | seld
  /-- RDB, R147 -/
  | rdb
  /-- INIT, R164 -/
  | init
  /-- CMD, R165 -/
  | cmd (a : Byte)
  /-- DAT, R166 -/
  | dat (a : Byte)
  /-- WIN, R167 -/
  | win (col row width height : Half)
  /-- RECT, R168 -/
  | rect (col row width height color : Half)
  /-- CLR, R181 -/
  | clr (a : Byte)
  /-- CHR, R195 -/
  | chr (a : Byte)
  /-- STR, R196 -/
  | str (syms : List Byte)
  /-- INT, R197 -/
  | int (h : Half)
  /-- ERA, R199 -/
  | era (a : Byte)
  /-- NL, R200 -/
  | nl
  /-- SIZ, R220 -/
  | siz (a : Byte)
  /-- FGC, R221 -/
  | fgc (h : Half)
  /-- BGC, R222 -/
  | bgc (h : Half)
  deriving DecidableEq, Repr

end Sys2Proof
end

