-- ==== Sys2Proof/WellFormed.lean ====
section
/-! DEFINITION. Which instruction terms have an encoding: 30_encoding.md rules R111 and R114. -/

namespace Sys2Proof

/-- The one check a term can fail: the length byte of STR holds 0 to 255 (R111, format S). Every other operand fills its
field exactly, and a value outside an operand's legal range (R114) is encodable and makes the command fault (R117). -/
def Instr.wf : Instr → Bool
  | .str syms => decide (syms.length ≤ 255)
  | .wrb _ => true
  | .selc => true
  | .seld => true
  | .rdb => true
  | .init => true
  | .cmd _ => true
  | .dat _ => true
  | .win _ _ _ _ => true
  | .rect _ _ _ _ _ => true
  | .clr _ => true
  | .chr _ => true
  | .int _ => true
  | .era _ => true
  | .nl => true
  | .siz _ => true
  | .fgc _ => true
  | .bgc _ => true

end Sys2Proof
end

