-- ==== Sys2Proof/Decode.lean ====
section
/-! DEFINITION. The command stream of 30_encoding.md: the opcode map R113, the formats R111, the decoder (total, rejecting
by name), the encoder, and the byte layout of a row of spec/opcode_table.json. -/

namespace Sys2Proof

/-- `hi8(v) = v[15:8]` (R9). -/
def hi8 (v : Half) : Byte := v.extractLsb' 8 8

/-- `lo8(v) = v[7:0]` (R9). -/
def lo8 (v : Half) : Byte := v.extractLsb' 0 8

/-- `{hi, lo}`: concatenation with `hi` in the more significant bits (R9, R114). -/
def cat16 (hi lo : Byte) : Half := hi ++ lo

/-- The mnemonics of rule R113. -/
inductive Mnemonic where
  | wrb | selc | seld | rdb
  | init | cmd | dat | win | rect
  | clr
  | chr | str | int | era | nl
  | siz | fgc | bgc
  deriving DecidableEq, Repr

/-- Rule R113, in the table's order. -/
def Mnemonic.all : List Mnemonic :=
  [.wrb, .selc, .seld, .rdb, .init, .cmd, .dat, .win, .rect, .clr, .chr, .str, .int, .era, .nl, .siz, .fgc, .bgc]

/-- The opcode byte of each command, rule R113. -/
def Mnemonic.opcode : Mnemonic → Byte
  | .wrb => 0x01
  | .selc => 0x02
  | .seld => 0x03
  | .rdb => 0x04
  | .init => 0x10
  | .cmd => 0x11
  | .dat => 0x12
  | .win => 0x13
  | .rect => 0x14
  | .clr => 0x20
  | .chr => 0x30
  | .str => 0x31
  | .int => 0x32
  | .era => 0x33
  | .nl => 0x34
  | .siz => 0x40
  | .fgc => 0x41
  | .bgc => 0x42

/-- The command an opcode byte selects: the whole byte is matched (R111, R113); `none` is an illegal opcode (R116). -/
def mnemonicOf? (b : Byte) : Option Mnemonic :=
  Mnemonic.all.find? (fun m => m.opcode == b)

/-- The mnemonic of a term. -/
def Instr.mnemonic : Instr → Mnemonic
  | .wrb _ => .wrb
  | .selc => .selc
  | .seld => .seld
  | .rdb => .rdb
  | .init => .init
  | .cmd _ => .cmd
  | .dat _ => .dat
  | .win _ _ _ _ => .win
  | .rect _ _ _ _ _ => .rect
  | .clr _ => .clr
  | .chr _ => .chr
  | .str _ => .str
  | .int _ => .int
  | .era _ => .era
  | .nl => .nl
  | .siz _ => .siz
  | .fgc _ => .fgc
  | .bgc _ => .bgc

/-- What the front of a byte stream is. -/
inductive Decoded where
  /-- A whole command, and the bytes after it. -/
  | command (i : Instr) (rest : List Byte)
  /-- An illegal opcode byte (R116), and the bytes after it. -/
  | illegal (opcode : Byte) (rest : List Byte)
  /-- The stream stops between the opcode byte and the last operand byte (R118). -/
  | truncated
  /-- No byte is pending. -/
  | empty
  deriving DecidableEq, Repr

/-- Format B (R111): one 8-bit operand. -/
def decodeB (mk : Byte → Instr) : List Byte → Decoded
  | a :: rest => .command (mk a) rest
  | _ => .truncated

/-- Format H (R111): one 16-bit operand, high byte first. -/
def decodeH (mk : Half → Instr) : List Byte → Decoded
  | h :: l :: rest => .command (mk (cat16 h l)) rest
  | _ => .truncated

/-- Format W (R111): four 16-bit operands, each high byte first. -/
def decodeW (mk : Half → Half → Half → Half → Instr) : List Byte → Decoded
  | c1 :: c0 :: r1 :: r0 :: w1 :: w0 :: h1 :: h0 :: rest =>
      .command (mk (cat16 c1 c0) (cat16 r1 r0) (cat16 w1 w0) (cat16 h1 h0)) rest
  | _ => .truncated

/-- Format R (R111): format W's operands, then a 16-bit colour. -/
def decodeR (mk : Half → Half → Half → Half → Half → Instr) : List Byte → Decoded
  | c1 :: c0 :: r1 :: r0 :: w1 :: w0 :: h1 :: h0 :: k1 :: k0 :: rest =>
      .command (mk (cat16 c1 c0) (cat16 r1 r0) (cat16 w1 w0) (cat16 h1 h0) (cat16 k1 k0)) rest
  | _ => .truncated

/-- Format S (R111): the length byte, then that many symbols. -/
def decodeS (mk : List Byte → Instr) : List Byte → Decoded
  | len :: rest =>
      if len.toNat ≤ rest.length then .command (mk (rest.take len.toNat)) (rest.drop len.toNat) else .truncated
  | _ => .truncated

/-- The operands of each command by its format (R111, R113). -/
def decodeOperands (m : Mnemonic) (rest : List Byte) : Decoded :=
  match m with
  | .wrb => decodeB .wrb rest
  | .selc => .command .selc rest
  | .seld => .command .seld rest
  | .rdb => .command .rdb rest
  | .init => .command .init rest
  | .cmd => decodeB .cmd rest
  | .dat => decodeB .dat rest
  | .win => decodeW .win rest
  | .rect => decodeR .rect rest
  | .clr => decodeB .clr rest
  | .chr => decodeB .chr rest
  | .str => decodeS .str rest
  | .int => decodeH .int rest
  | .era => decodeB .era rest
  | .nl => .command .nl rest
  | .siz => decodeB .siz rest
  | .fgc => decodeH .fgc rest
  | .bgc => decodeH .bgc rest

/-- The front of the stream (R110, R115): the opcode byte alone, with STR's length byte, gives the command's extent. -/
def decode : List Byte → Decoded
  | [] => .empty
  | b :: rest =>
      match mnemonicOf? b with
      | some m => decodeOperands m rest
      | none => .illegal b rest

/-- A 16-bit operand in the stream: high byte first (R111, R114). -/
def halfBytes (h : Half) : List Byte := [hi8 h, lo8 h]

/-- The operand bytes of a command, rule R111. -/
def Instr.operandBytes : Instr → List Byte
  | .wrb a => [a]
  | .selc => []
  | .seld => []
  | .rdb => []
  | .init => []
  | .cmd a => [a]
  | .dat a => [a]
  | .win col row width height => halfBytes col ++ halfBytes row ++ halfBytes width ++ halfBytes height
  | .rect col row width height color =>
      halfBytes col ++ halfBytes row ++ halfBytes width ++ halfBytes height ++ halfBytes color
  | .clr a => [a]
  | .chr a => [a]
  | .str syms => BitVec.ofNat 8 syms.length :: syms
  | .int h => halfBytes h
  | .era a => [a]
  | .nl => []
  | .siz a => [a]
  | .fgc h => halfBytes h
  | .bgc h => halfBytes h

/-- The bytes of a command in stream order (R110, R111). -/
def encode (i : Instr) : List Byte := i.mnemonic.opcode :: i.operandBytes

/-- Byte `k` of a table word: bits `8k+7 .. 8k` of `w`. -/
def tableByte (w k : Nat) : Byte := BitVec.ofNat 8 (w / 256 ^ k)

/-- How many operand bytes can follow the table's bytes: STR's own length byte says it (R111); no other command has more
than 10. -/
def tableTail (nbits w : Nat) : Nat :=
  if tableByte w 0 = Mnemonic.str.opcode ∧ 16 ≤ nbits then (tableByte w 1).toNat else 10

/-- The bytes of a table word: the row's `nbits / 8` bytes, and zero bytes after them, enough for the command. -/
def tableBytes (nbits w : Nat) : List Byte :=
  (List.range (nbits / 8)).map (tableByte w) ++ List.replicate (tableTail nbits w) 0

/-- The instruction the decoder reads from a table word, `none` where it refuses. -/
def decodeTableWord (nbits w : Nat) : Option Instr :=
  match decode (tableBytes nbits w) with
  | .command i _ => some i
  | .illegal _ _ => none
  | .truncated => none
  | .empty => none

/-- The bytes of the one element a table word stands for: the command's own bytes, or the one illegal opcode byte (R116). -/
def tableElement (nbits w : Nat) : List Byte :=
  match decode (tableBytes nbits w) with
  | .command _ rest => (tableBytes nbits w).take ((tableBytes nbits w).length - rest.length)
  | .illegal b _ => [b]
  | .truncated => tableBytes nbits w
  | .empty => []

end Sys2Proof
end

