-- ==== Sys2Proof/Machine/Operands.lean ====
section
/-! DEFINITION. How operand values are read and checked: 00_scope.md rule R9, 30_encoding.md rule R114, and the checks
`chk16` (R9), `checkWindow` (R169) and the legal symbols (R195). -/

namespace Sys2Proof.Machine

/-- `u16_of(x) = x mod 65536` (R9). -/
def u16Of (v : Int) : Half := BitVec.ofInt 16 v

/-- `i16_of(w)`: two's complement (R9). -/
abbrev i16Of (w : Half) : Int := w.toInt

/-- `zext_16(v)` of an 8-bit value (R9). -/
def zext16 (v : Byte) : Half := v.setWidth 16

/-- `chk16(x)` (R9): the int16 pattern of `x`, or the information word of the RANGE fault. -/
def chk16 (v : Int) : Except Half Half :=
  if -32768 ≤ v ∧ v ≤ 32767 then .ok (u16Of v) else .error (u16Of v)

/-- `checkWindow` (R169): the index of the first failing field, which is the information word of BAD_WINDOW. -/
def checkWindow (col row w h : Int) : Option Half :=
  if col < 0 then some 0
  else if row < 0 then some 1
  else if w ≤ 0 then some 2
  else if h ≤ 0 then some 3
  else none

/-- The legal symbols, 0x20 to 0x7F (R114, R195). -/
def symbolLegal (a : Byte) : Bool := 0x20 ≤ a.toNat && a.toNat ≤ 0x7F

end Sys2Proof.Machine
end

