-- ==== Sys2Proof/Machine/Panel.lean ====
section
/-! DEFINITION. The pins, the transaction trace and the panel reference model: 00_scope.md rules R10, R11 and 20_memory.md
rules R77 to R93. -/

namespace Sys2Proof.Machine

/-- The effect of one primitive on the latches, 00_scope.md rule R10. `Sample`, `Wait` and `Respond` change none. -/
def Pins.apply (p : Pins) : PinEvent → Pins
  | .ctlOut => { p with ctlOut := true }
  | .set .rst l => { p with rst := .is l }
  | .set .cs l => { p with cs := .is l }
  | .set .rs l => { p with rs := .is l }
  | .set .wr l => { p with wr := .is l }
  | .set .rd l => { p with rd := .is l }
  | .dir d => { p with ddir := .is d }
  | .drive v => { p with dout := .is v }
  | .sample _ => p
  | .wait _ => p
  | .respond _ => p

/-- The latches after a list of events. -/
def pinsAfter (p : Pins) (evs : List PinEvent) : Pins := evs.foldl Pins.apply p

/-- Rule R77: the item an event produces, from the levels that stand on the wires just before it. A latch at `X` is not at
level 0. The byte written is the driven byte; where nothing has ever been driven there is no byte and no item (log 10). -/
def transactionOf (p : Pins) : PinEvent → Option Transaction
  | .set .wr .high =>
      if p.wr = .is .low ∧ p.ddir = .is .out then
        match p.rs, p.dout with
        | .is .low, .is b => some (.cmd b)
        | .is .high, .is b => some (.dat b)
        | _, _ => none
      else none
  | .sample v => if p.rd = .is .low ∧ p.ddir = .is .inp then some (.rd v) else none
  | .set .rst l => if p.rst = .is l then none else some (.rstLevel l)
  | .set .cs l => if p.cs = .is l then none else some (.csLevel l)
  | .wait n => some (.wait n)
  | .set .wr .low => none
  | .set .rs _ => none
  | .set .rd _ => none
  | .ctlOut => none
  | .dir _ => none
  | .drive _ => none
  | .respond _ => none

/-- The transaction trace of a pin trace that starts with the wires at `p` (R11, R77). -/
def transactions (p : Pins) : List PinEvent → List Transaction
  | [] => []
  | e :: es => (transactionOf p e).toList ++ transactions (p.apply e) es

/-- Rule R11: an event that changes nothing on the wires. -/
def stutters (p : Pins) : PinEvent → Bool
  | .set .rst l => p.rst == .is l
  | .set .cs l => p.cs == .is l
  | .set .rs l => p.rs == .is l
  | .set .wr l => p.wr == .is l
  | .set .rd l => p.rd == .is l
  | .dir d => p.ddir == .is d
  | .drive v => p.dout == .is v && p.ddir == .is .out
  | .ctlOut => false
  | .sample _ => false
  | .wait _ => false
  | .respond _ => false

/-- Rule R11: the pin trace modulo stuttering. -/
def observed (p : Pins) : List PinEvent → List PinEvent
  | [] => []
  | e :: es => (if stutters p e then [] else [e]) ++ observed (p.apply e) es

/-- The index in `INIT_SEQ` of the entry with opcode `b` (R80, R87). -/
def initIndex? (c : Cfg) (b : Byte) : Option Nat := c.initSeq.findIdx? (fun e => e.op == b)

/-- The data bytes of entry `i` of `INIT_SEQ`; none for a number that is no entry's (log 20). -/
def initData (c : Cfg) (i : Nat) : List Byte := (c.initSeq.map (·.data)).getD i []

/-- Whether `got` is a complete argument list for `op` (R80, R81, R82, R87). -/
def argsComplete (c : Cfg) (op : Byte) (got : List Byte) : Bool :=
  if op = c.opCaset ∨ op = c.opPaset then got.length == 4
  else match initIndex? c op with
    | some i => got == initData c i
    | none => false

/-- The four window addresses when none of them is `X`. -/
structure Window where
  c0 : Half
  c1 : Half
  r0 : Half
  r1 : Half
  deriving DecidableEq, Repr

/-- The panel's window, `none` when one of the four is `X` (R83). -/
def Panel.window? (P : Panel) : Option Window :=
  match P.c0, P.c1, P.r0, P.r1 with
  | .is c0, .is c1, .is r0, .is r1 => some ⟨c0, c1, r0, r1⟩
  | _, _, _, _ => none

/-- Rule R83, the conditions on the four addresses. -/
def Window.valid (c : Cfg) (w : Window) : Bool :=
  decide (w.c0.toNat ≤ w.c1.toNat) && decide (w.r0.toNat ≤ w.r1.toNat)
    && decide (w.c1.toNat < c.screenW) && decide (w.r1.toNat < c.screenH)

/-- One step of a pointer whose index `f` in `f0 .. f1` runs first and `s` in `s0 .. s1` second (R85). -/
def advancePair (f f0 f1 s s0 s1 : Nat) : Nat × Nat :=
  let f' := if f1 < f + 1 then f0 else f + 1
  let s' := if f1 < f + 1 then s + 1 else s
  (f', if s1 < s' then s0 else s')

/-- Rule R85: the write pointer after a pixel. -/
def Window.next (c : Cfg) (w : Window) (px py : Half) : Half × Half :=
  match c.panelFastAxis with
  | .col =>
      let q := advancePair px.toNat w.c0.toNat w.c1.toNat py.toNat w.r0.toNat w.r1.toNat
      (BitVec.ofNat 16 q.1, BitVec.ofNat 16 q.2)
  | .row =>
      let q := advancePair py.toNat w.r0.toNat w.r1.toNat px.toNat w.c0.toNat w.c1.toNat
      (BitVec.ofNat 16 q.2, BitVec.ofNat 16 q.1)

/-- Rule R84, the second byte of a pixel: the pixel at the pointer is written and the pointer advances. A pointer at `X`
(no run reaches memory-write mode so) makes the panel undefined (log 10). -/
def Panel.storePixel (c : Cfg) (P : Panel) (w : Window) (v : Half) : Panel :=
  match P.x, P.y with
  | .is px, .is py =>
      { P with
        gram := P.gram.write (pixelKey px py) v
        half := none
        x := .is (w.next c px py).1
        y := .is (w.next c px py).2 }
  | _, _ => { P with undef := true }

/-- Rule R80: a command opcode. -/
def Panel.acceptCmd (c : Cfg) (P : Panel) (b : Byte) : Panel :=
  let incomplete := match P.mode with
    | .args op got => !argsComplete c op got
    | .idle => false
    | .memWrite => false
  if incomplete then { P with undef := true }
  else if b = c.opCaset ∨ b = c.opPaset then { P with half := none, mode := .args b [] }
  else if b = c.opRamwr then
    { P with half := none, mode := .memWrite, x := P.c0, y := P.r0, undef := P.undef || decide (P.c0 = .x ∨ P.r0 = .x) }
  else match initIndex? c b with
    | some i =>
        if initData c i = [] then { P with half := none, cfgDone := P.cfgDone.set i true, mode := .idle }
        else { P with half := none, mode := .args b [] }
    | none => { P with half := none, undef := true }

/-- Rules R81, R82, R87: a data byte of an argument list. -/
def Panel.acceptArg (c : Cfg) (P : Panel) (op : Byte) (got : List Byte) : Panel :=
  if op = c.opCaset then
    match got with
    | [a0, a1, a2, a3] => { P with c0 := .is (cat16 a0 a1), c1 := .is (cat16 a2 a3), mode := .idle }
    | _ => { P with mode := .args op got }
  else if op = c.opPaset then
    match got with
    | [a0, a1, a2, a3] => { P with r0 := .is (cat16 a0 a1), r1 := .is (cat16 a2 a3), mode := .idle }
    | _ => { P with mode := .args op got }
  else match initIndex? c op with
    | some i =>
        if got = initData c i then { P with cfgDone := P.cfgDone.set i true, mode := .idle }
        else if got.isPrefixOf (initData c i) then { P with mode := .args op got }
        else { P with mode := .args op got, undef := true }
    | none => { P with mode := .args op got, undef := true }

/-- All five entries of `INIT_SEQ` have been received (R84, R93). -/
def Panel.configured (P : Panel) : Bool := P.cfgDone == List.replicate 5 true

/-- Rules R81, R82, R84, R86, R87: a data byte, by mode. -/
def Panel.acceptDat (c : Cfg) (P : Panel) (b : Byte) : Panel :=
  match P.mode with
  | .idle => { P with undef := true }
  | .args op got => P.acceptArg c op (got ++ [b])
  | .memWrite =>
      match P.configured, P.window? with
      | true, some w =>
          if w.valid c then
            match P.half with
            | none => { P with half := some b }
            | some h => P.storePixel c w (cat16 h b)
          else { P with undef := true }
      | _, _ => { P with undef := true }

/-- Rule R78: what the panel holds when it leaves reset. Its pointer is not named there and stays. -/
def Panel.leaveReset (P : Panel) : Panel :=
  { P with
    inReset := false
    undef := false
    mode := .idle
    half := none
    cfgDone := List.replicate 5 false
    c0 := .x
    c1 := .x
    r0 := .x
    r1 := .x
    gram := [] }

/-- Whether `Cmd`, `Dat` and `Rd` items reach the panel: not in reset (R78), chip-select not gating them off (R79), and the
panel defined (R89). -/
def Panel.listening (c : Cfg) (cs : Latch Level) (P : Panel) : Bool :=
  !P.inReset && !P.undef && (match c.panelCsActive with
    | none => true
    | some l => cs == .is l)

/-- The panel takes one item, the chip-select line being at `cs` (R78 to R92). -/
def Panel.accept (c : Cfg) (cs : Latch Level) (P : Panel) : Transaction → Panel
  | .cmd b => if P.listening c cs then P.acceptCmd c b else P
  | .dat b => if P.listening c cs then P.acceptDat c b else P
  | .rd _ => if P.listening c cs then (if P.mode = .idle then P else { P with undef := true }) else P
  | .rstLevel l =>
      if l = c.rstALevel then (if P.inReset then P.leaveReset else P)
      else { P with inReset := true }
  | .csLevel _ => P
  | .wait _ => P

/-- The panel after one event, the wires standing at `p` before it (R77). -/
def Panel.follow (c : Cfg) (p : Pins) (P : Panel) (e : PinEvent) : Panel :=
  match transactionOf p e with
  | some t => P.accept c p.cs t
  | none => P

/-- The panel after a list of events. -/
def panelAfter (c : Cfg) : Pins → Panel → List PinEvent → Panel
  | _, P, [] => P
  | p, P, e :: es => panelAfter c (p.apply e) (P.follow c p e) es

/-- Rule R93: `Screen(P)(x, y)`. It means something only on a defined and configured panel and inside the screen;
elsewhere it is `X`, of which nothing can be claimed (R89; log 11). -/
def screen (s : State) (px py : Half) : Latch Half :=
  if !s.panel.undef && s.panel.configured && decide (px.toNat < s.cfg.screenW) && decide (py.toNat < s.cfg.screenH) then
    s.panel.gram.read (pixelKey px py)
  else .x

end Sys2Proof.Machine
end

