-- ==== Sys2Proof/Machine/Raster.lean ====
section
/-! DEFINITION. The pure functions of 43_text_layout.md: the rasterizer (rules R190 to R192) and decimal formatting (R198). -/

namespace Sys2Proof.Machine

/-- `glyphColumn(sym, c)` (R190): columns 0 to 4 from the ROM, column 5 the blank spacer. Outside R190's domain, which no
command leaves, the values are the model's choice (log 20): a symbol below 0x20 reads the columns of glyph 0, because the
subtraction stops at 0; one above 0x7F reads 0; a column above 5 is blank. -/
def glyphColumn (cf : Cfg) (sym : Byte) (c : Nat) : Byte :=
  if c ≤ 4 then romRead cf ((sym.toNat - 0x20) * 5 + c) else 0x00

/-- `pick(bit, fg, bg)` (R192). -/
def pick (bit : Bool) (fg bg : Half) : Half := if bit then fg else bg

/-- One horizontal repetition of a column byte: its 8 rows from the top, each `s` times (R191). -/
def rasterRun (g : Byte) (s : Nat) (fg bg : Half) : List Half :=
  (List.range 8).flatMap (fun r => List.replicate s (pick (g.getLsbD r) fg bg))

/-- `rasterStream(sym, s, fg, bg)` (R191): six columns, each column's run `s` times. -/
def rasterStream (cf : Cfg) (sym : Byte) (s : Nat) (fg bg : Half) : List Half :=
  (List.range 6).flatMap (fun c => (List.replicate s (rasterRun (glyphColumn cf sym c) s fg bg)).flatten)

/-- `digits(m)` (R198), most significant digit first; `fuel` bounds the number of digits before the last. -/
def digitsFuel : Nat → Nat → List Byte
  | 0, m => [BitVec.ofNat 8 (0x30 + m % 10)]
  | fuel + 1, m =>
      if m < 10 then [BitVec.ofNat 8 (0x30 + m)]
      else digitsFuel fuel (m / 10) ++ [BitVec.ofNat 8 (0x30 + m % 10)]

/-- `digits(m)` of rule R198. -/
def digits (m : Nat) : List Byte := digitsFuel m m

/-- `dec(n)` (R198): the canonical base-10 string. -/
def dec (n : Int) : List Byte :=
  if n < 0 then 0x2D :: digits (-n).toNat else digits n.toNat

end Sys2Proof.Machine
end

