-- ==== Sys2Proof/Machine/Ops.lean ====
section
/-! DEFINITION. The named operations of the block: emitting pin events (00_scope.md rule R10), the helper procedures of
40_bus_interface.md, 41_controller_session.md, 42_fast_clear.md and 43_text_layout.md as lists of pin events and state
changes, raising a fault (60_exceptions.md rule R232), and the template every command runs in (30_encoding.md rule R121). -/

namespace Sys2Proof.Machine

/-- What a meaning answers. -/
abbrev Out := Host.Outcome State Fault Refusal

/-- The primitives of rule R10 in order: the latches change, each event joins the trace, and the panel follows the wires
(20_memory.md rule R77). -/
def State.emits (s : State) (evs : List PinEvent) : State :=
  { s with
    pins := pinsAfter s.pins evs
    history := evs.reverse ++ s.history
    panel := panelAfter s.cfg s.pins s.panel evs }

/-- Both cursor fields at once. -/
def State.setCursor (s : State) (col row : Half) : State := { s with col := col, row := row }

/-- `cp <- cp + 1` (R112, R121 step 5). -/
def State.advance (s : State) : State := { s with cp := s.cp + 1 }

/-- `raise Fault(cause, info)` (R232): the three fault fields and nothing else. The callers end the command here. -/
def State.raise (s : State) (cause : Cause) (info : Half) : State :=
  { s with fault := true, fcause := cause.code, finfo := info }

/-- The panel at a hardware reset of the block (log 13): it keeps what the block had sent (R238), and from that moment it is
undefined (R261), so that it follows nothing but INIT's reset pulse (R78, R89). -/
def Panel.afterHardwareReset (P : Panel) : Panel := { P with undef := true }

/-- Hardware reset of the block, R260 and R261: an event outside the command stream, from any state (log 13). It is the only
way out of a fault (R233, R238). The free value of panel reads goes on where it was (log 6). -/
def hardwareReset (s : State) : State :=
  { State.resetOf s.cfg with panel := s.panel.afterHardwareReset, samples := s.samples }

/-- Whether an event is `Sample(v)` (R10). -/
def PinEvent.isSample : PinEvent → Bool
  | .sample _ => true
  | .ctlOut => false
  | .set _ _ => false
  | .dir _ => false
  | .drive _ => false
  | .wait _ => false
  | .respond _ => false

/-- Hardware reset after the pin events `evs` of a command that is then abandoned, R260: the events reach the pins and the panel,
a byte they sampled is taken from the free value, and nothing else of the command happens (log 13). -/
def hardwareResetAfter (evs : List PinEvent) (s : State) : State :=
  { hardwareReset (s.emits evs) with samples := s.samples + evs.countP PinEvent.isSample }

/-- `zext_16(opcode)`, the information word of NOT_READY (R231). -/
def Mnemonic.info (m : Mnemonic) : Half := zext16 m.opcode

/-- Rule R121, steps 1, 3, 4 and 5, for a legal opcode: a halted block does nothing (R233); a command other than INIT before
INIT has completed raises NOT_READY (R28); else the command's own rule runs; `cp` advances in every case. -/
def runCommand (m : Mnemonic) (body : State → State) (s : State) : Out :=
  .next (if s.fault then s.advance
    else if m ≠ .init ∧ s.ready = false then (s.raise .notReady (Mnemonic.info m)).advance
    else (body s).advance)

/-- Rule R121, steps 1, 2 and 5, for an illegal opcode byte (R116). -/
def illegalOpcode (b : Byte) (s : State) : State :=
  if s.fault then s.advance else (s.raise .illegalOpcode (zext16 b)).advance

/-! ### Bus interface, 40_bus_interface.md -/

/-- `writeByte(v)`, R140. -/
def writeByte (v : Byte) : List PinEvent := [.drive v, .set .wr .low, .set .wr .high]

/-- `selectCommandRegister()`, R141. -/
def selectCommandRegister : List PinEvent := [.set .rs .low]

/-- `selectDataRegister()`, R142. -/
def selectDataRegister : List PinEvent := [.set .rs .high]

/-- The pin events of `readByte()`, R143, with `v` the sampled byte. -/
def readByteEvents (v : Byte) : List PinEvent :=
  [.dir .inp, .set .rs .high, .set .rd .low, .sample v, .set .rd .high, .dir .out]

/-- `readByte()`, R143: the byte is the panel's answer (R90), the next one of the free value. -/
def readByte (s : State) : Byte × State :=
  (Config.readOracle s.samples,
    { s.emits (readByteEvents (Config.readOracle s.samples)) with samples := s.samples + 1 })

/-- `Respond(v)` (R10, R122): the byte goes to the host's response port. -/
def State.respond (s : State) (v : Byte) : State :=
  { s.emits [.respond v] with respOut := s.respOut ++ [v] }

/-! ### Controller session, 41_controller_session.md -/

/-- `writeCommand(c)`, R160. -/
def writeCommand (c : Byte) : List PinEvent := selectCommandRegister ++ writeByte c

/-- `writeData(d)`, R161. -/
def writeData (d : Byte) : List PinEvent := selectDataRegister ++ writeByte d

/-- `pushColor(c)`, R162. -/
def pushColor (c : Half) : List PinEvent := writeData (hi8 c) ++ writeData (lo8 c)

/-- One address range of a window: an opcode, then 16-bit start and end, high byte first (R163, R69). -/
def addressRange (op : Byte) (start stop : Half) : List PinEvent :=
  writeCommand op ++ writeData (hi8 start) ++ writeData (lo8 start) ++ writeData (hi8 stop) ++ writeData (lo8 stop)

/-- `setWindow(col, row, w, h)`, R163. -/
def setWindow (c : Cfg) (col row w h : Int) : List PinEvent :=
  addressRange c.opCaset (u16Of col) (u16Of (col + w - 1))
    ++ addressRange c.opPaset (u16Of row) (u16Of (row + h - 1))
    ++ writeCommand c.opRamwr

/-- Stream a list of colours, one `pushColor` each. -/
def pushColors (ps : List Half) : List PinEvent := ps.flatMap pushColor

/-- `checkWindow` (R169), then `setWindow` (R163), then a stream of colours: the shape of WIN, RECT and ERA. BAD_WINDOW is
raised before any pin event. -/
def windowed (col row w h : Int) (ps : List Half) (s : State) : State :=
  match checkWindow col row w h with
  | some index => s.raise .badWindow index
  | none => s.emits (setWindow s.cfg col row w h ++ pushColors ps)

/-! ### Fast clear, 42_fast_clear.md -/

/-- One iteration of the burst: four strobe pulses (R180). -/
def fourStrobes : List PinEvent :=
  [.set .wr .low, .set .wr .high, .set .wr .low, .set .wr .high,
   .set .wr .low, .set .wr .high, .set .wr .low, .set .wr .high]

/-- The pin events of `fastClear(b)`, R180. -/
def fastClearEvents (c : Cfg) (b : Byte) : List PinEvent :=
  setWindow c 0 0 c.screenW c.screenH ++ selectDataRegister ++ [.drive b]
    ++ (List.replicate (c.screenW * c.screenH / 2) fourStrobes).flatten

/-- `fastClear(b)`, R180: the burst, then the cursor at `(GAP, CURSOR_ROW0)`. -/
def fastClear (b : Byte) (s : State) : State :=
  (s.emits (fastClearEvents s.cfg b)).setCursor (u16Of s.cfg.gap) Config.cursorRow0

/-! ### INIT, 41_controller_session.md rule R164 -/

/-- Steps 1 to 3: lines become outputs, the reset pulse train, idle levels (R164, R266). -/
def bringUpLines (c : Cfg) : List PinEvent :=
  [.ctlOut, .dir .out,
   .set .rst c.rstALevel, .wait Config.tRst1,
   .set .rst c.rstALevel.other, .wait Config.tRst2,
   .set .rst c.rstALevel, .wait Config.tRst3,
   .set .cs c.csIdleLevel, .set .wr .high, .set .rd .high]

/-- One entry of step 4: the opcode, then its data bytes. -/
def powerOnEntry (e : PanelCommand) : List PinEvent := writeCommand e.op ++ e.data.flatMap writeData

/-- Steps 1 to 5 of INIT: lines, power-on command sequence, wake settle wait (R164, R267). -/
def bringUpEvents (c : Cfg) : List PinEvent :=
  bringUpLines c ++ c.initSeq.flatMap powerOnEntry ++ [.wait c.tWake]

/-! ### Text layout, 43_text_layout.md -/

/-- Step 1 of `renderChar` and its two range checks (R193): the cell's column and row, and the column after it, or the
information word of the RANGE fault. -/
def placeCell (s : State) : Except Half (Int × Int × Int) :=
  let adv : Int := 6 * s.size.toNat
  let pitch : Int := 9 * s.size.toNat
  if i16Of s.col + adv > s.cfg.wrapLimit then
    match chk16 (i16Of s.row + pitch) with
    | .error info => .error info
    | .ok _ =>
        match chk16 (s.cfg.gap + adv) with
        | .error info => .error info
        | .ok _ => .ok (s.cfg.gap, i16Of s.row + pitch, s.cfg.gap + adv)
  else
    match chk16 (i16Of s.col + adv) with
    | .error info => .error info
    | .ok _ => .ok (i16Of s.col, i16Of s.row, i16Of s.col + adv)

/-- The pin events of one character: the window of its cell, then its raster (R193 steps 2 and 3). -/
def cellEvents (s : State) (sym : Byte) (nc nr : Int) : List PinEvent :=
  setWindow s.cfg nc nr (6 * s.size.toNat) (8 * s.size.toNat)
    ++ pushColors (rasterStream s.cfg sym s.size.toNat s.fg s.bg)

/-- `renderChar(sym)`, R193: a RANGE fault comes before any effect. -/
def renderChar (sym : Byte) (s : State) : State :=
  match placeCell s with
  | .error info => s.raise .range info
  | .ok (nc, nr, ac) =>
      ((s.setCursor (u16Of nc) (u16Of nr)).emits (cellEvents s sym nc nr)).setCursor (u16Of ac) (u16Of nr)

/-- One symbol of CHR or STR: BAD_SYMBOL, then `renderChar` (R195, R196). -/
def renderSymbol (sym : Byte) (s : State) : State :=
  if symbolLegal sym then renderChar sym s else s.raise .badSymbol (zext16 sym)

/-- The symbols of STR in order (R196): the first fault ends the command and keeps the effects before it (R235). -/
def renderSymbols : List Byte → State → State
  | [], s => s
  | sym :: syms, s => if (renderSymbol sym s).fault then renderSymbol sym s else renderSymbols syms (renderSymbol sym s)

/-- The characters of INT in order (R197): `renderChar` without a symbol check. -/
def renderChars : List Byte → State → State
  | [], s => s
  | sym :: syms, s => if (renderChar sym s).fault then renderChar sym s else renderChars syms (renderChar sym s)

/-- `newLineStep()`, R194: a RANGE fault comes before any change. -/
def newLineStep (s : State) : State :=
  match chk16 (i16Of s.row + 9 * s.size.toNat) with
  | .error info => s.raise .range info
  | .ok row => s.setCursor (u16Of s.cfg.gap) row

/-- The body of ERA, R199: RANGE on the width, then BAD_WINDOW, then the window flooded with the background colour. -/
def eraseCells (n : Nat) (s : State) : State :=
  match chk16 (6 * s.size.toNat * n) with
  | .error info => s.raise .range info
  | .ok _ =>
      windowed (i16Of s.col) (i16Of s.row) (6 * s.size.toNat * n) (8 * s.size.toNat)
        (List.replicate (6 * s.size.toNat * n * (8 * s.size.toNat)) s.bg) s

end Sys2Proof.Machine
end

