-- ==== Sys2Proof/Machine/Bus.lean ====
section
/-! DEFINITION. The commands of 40_bus_interface.md: WRB, SELC, SELD, RDB. -/

namespace Sys2Proof.Machine

/-- WRB, R144. -/
def execWrb (a : Byte) (s : State) : Out := runCommand .wrb (fun s => s.emits (writeByte a)) s

/-- SELC, R145. -/
def execSelc (s : State) : Out := runCommand .selc (fun s => s.emits selectCommandRegister) s

/-- SELD, R146. -/
def execSeld (s : State) : Out := runCommand .seld (fun s => s.emits selectDataRegister) s

/-- RDB, R147. -/
def execRdb (s : State) : Out := runCommand .rdb (fun s => (readByte s).2.respond (readByte s).1) s

end Sys2Proof.Machine
end

