-- ==== Sys2Proof/Machine/FastClear.lean ====
section
/-! DEFINITION. The command of 42_fast_clear.md: CLR. -/

namespace Sys2Proof.Machine

/-- CLR, R181. -/
def execClr (a : Byte) (s : State) : Out := runCommand .clr (fastClear a) s

end Sys2Proof.Machine
end

