-- ==== Sys2Proof/Machine/Font.lean ====
section
/-! DEFINITION. The commands of 44_font_config.md: SIZ, FGC, BGC. -/

namespace Sys2Proof.Machine

/-- SIZ, R220. -/
def execSiz (a : Byte) (s : State) : Out :=
  runCommand .siz (fun s => if a = 0 then s.raise .badSize 0 else { s with size := a }) s

/-- FGC, R221. -/
def execFgc (h : Half) (s : State) : Out := runCommand .fgc (fun s => { s with fg := h }) s

/-- BGC, R222. -/
def execBgc (h : Half) (s : State) : Out := runCommand .bgc (fun s => { s with bg := h }) s

end Sys2Proof.Machine
end

