-- ==== Sys2Proof/Machine/Session.lean ====
section
/-! DEFINITION. The commands of 41_controller_session.md: INIT, CMD, DAT, WIN, RECT. -/

namespace Sys2Proof.Machine

/-- INIT, R164: bring-up, the initial full-screen clear, then `ready`. -/
def execInit (s : State) : Out :=
  runCommand .init (fun s => { fastClear s.cfg.initClearByte (s.emits (bringUpEvents s.cfg)) with ready := true }) s

/-- CMD, R165. -/
def execCmd (a : Byte) (s : State) : Out := runCommand .cmd (fun s => s.emits (writeCommand a)) s

/-- DAT, R166. -/
def execDat (a : Byte) (s : State) : Out := runCommand .dat (fun s => s.emits (writeData a)) s

/-- WIN, R167. -/
def execWin (col row width height : Half) (s : State) : Out :=
  runCommand .win (windowed (i16Of col) (i16Of row) (i16Of width) (i16Of height) []) s

/-- RECT, R168: the pixel count is the exact product. -/
def execRect (col row width height color : Half) (s : State) : Out :=
  runCommand .rect
    (windowed (i16Of col) (i16Of row) (i16Of width) (i16Of height)
      (List.replicate ((i16Of width).toNat * (i16Of height).toNat) color)) s

end Sys2Proof.Machine
end

