-- ==== Sys2Proof/Machine/Text.lean ====
section
/-! DEFINITION. The commands of 43_text_layout.md: CHR, STR, INT, ERA, NL. -/

namespace Sys2Proof.Machine

/-- CHR, R195. -/
def execChr (a : Byte) (s : State) : Out := runCommand .chr (renderSymbol a) s

/-- STR, R196. -/
def execStr (syms : List Byte) (s : State) : Out := runCommand .str (renderSymbols syms) s

/-- INT, R197. -/
def execInt (h : Half) (s : State) : Out := runCommand .int (renderChars (dec (i16Of h))) s

/-- ERA, R199. -/
def execEra (a : Byte) (s : State) : Out := runCommand .era (eraseCells a.toNat) s

/-- NL, R200. -/
def execNl (s : State) : Out := runCommand .nl newLineStep s

end Sys2Proof.Machine
end

