-- ==== Sys2Proof/Machine/Dispatch.lean ====
section
/-! DEFINITION. The meaning of every instruction: one arm per constructor of Instr, one direct call each. -/

namespace Sys2Proof.Machine

-- rule R121 step 4: the command's own rule
def exec (i : Instr) (s : State) : Host.Outcome State Fault Refusal :=
  match i with
  -- 40_bus_interface.md
  | .wrb a => Sys2Proof.Machine.execWrb a s
  | .selc => Sys2Proof.Machine.execSelc s
  | .seld => Sys2Proof.Machine.execSeld s
  | .rdb => Sys2Proof.Machine.execRdb s
  -- 41_controller_session.md
  | .init => Sys2Proof.Machine.execInit s
  | .cmd a => Sys2Proof.Machine.execCmd a s
  | .dat a => Sys2Proof.Machine.execDat a s
  | .win col row width height => Sys2Proof.Machine.execWin col row width height s
  | .rect col row width height color => Sys2Proof.Machine.execRect col row width height color s
  -- 42_fast_clear.md
  | .clr a => Sys2Proof.Machine.execClr a s
  -- 43_text_layout.md
  | .chr a => Sys2Proof.Machine.execChr a s
  | .str syms => Sys2Proof.Machine.execStr syms s
  | .int h => Sys2Proof.Machine.execInt h s
  | .era a => Sys2Proof.Machine.execEra a s
  | .nl => Sys2Proof.Machine.execNl s
  -- 44_font_config.md
  | .siz a => Sys2Proof.Machine.execSiz a s
  | .fgc h => Sys2Proof.Machine.execFgc h s
  | .bgc h => Sys2Proof.Machine.execBgc h s

end Sys2Proof.Machine
end

