-- ==== Sys2Proof/Machine/Step.lean ====
section
/-! DEFINITION. One step: take one whole command from the stream and execute it (30_encoding.md rules R110, R112, R121). -/

namespace Sys2Proof.Machine

/-- One step. A configuration outside R8 is refused; a whole command leaves the stream and runs; an illegal opcode byte leaves
the stream and faults (R116); a truncated command is stuck (R118); with no byte pending the run has ended (R31). -/
def step (s : State) : Host.Outcome State Fault Refusal :=
  if s.cfg.wf then
    match decode s.cmdIn with
    | .command i rest => exec i { s with cmdIn := rest }
    | .illegal b rest => .next (illegalOpcode b { s with cmdIn := rest })
    | .truncated => .fault .truncatedCommand
    | .empty => .fault .endOfRun
  else .refused .badConfiguration

/-- The element of a table word put at the front of the command stream, where `step` takes its next command (log 7). -/
def State.withFetchWord (s : State) (nbits w : Nat) : State :=
  { s with cmdIn := tableElement nbits w ++ s.cmdIn }

end Sys2Proof.Machine
end

