-- ==== Sys2Proof/Machine/Reset.lean ====
section
/-! DEFINITION. Hardware reset in the middle of a command, 70_reset_and_hazards.md rule R260. -/

namespace Sys2Proof.Machine

/-- The pin events of the command a step would execute, in order: none where no step is possible (a block that waits for the
rest of a command, R118, drives nothing). -/
def stepEvents (s : State) : List PinEvent :=
  match step s with
  | .next t => t.trace.drop s.trace.length
  | .fault _ => []
  | .refused _ => []

/-- R260: a hardware reset that comes after the first `k` pin events of the command in progress. The command is abandoned there,
and the panel may be left with a half-sent stream (log 13). -/
def hardwareResetDuring (k : Nat) (s : State) : State := hardwareResetAfter ((stepEvents s).take k) s

end Sys2Proof.Machine
end

