-- ==== Sys2Proof/Safety.lean ====
section
/-! DEFINITION. The terms the claims use: when the block runs a command, the idle pins of 40_bus_interface.md rule R148, the
invariants every step keeps, the items a command puts on the bus written from the spec with plain arithmetic, and when the
reference panel is ready for a stream. -/

namespace Sys2Proof.Machine

/-- The block executes commands: INIT has completed (R28) and no fault has halted it (R233). -/
def Running (s : State) : Prop := s.ready = true ∧ s.fault = false

/-- R148: the levels between commands once `ready` is true. -/
structure PinsIdle (c : Cfg) (p : Pins) : Prop where
  wr : p.wr = .is .high
  rd : p.rd = .is .high
  ddir : p.ddir = .is .out
  rst : p.rst = .is c.rstALevel
  cs : p.cs = .is c.csIdleLevel
  ctlOut : p.ctlOut = true
  rs : p.rs ≠ .x
  dout : p.dout ≠ .x

/-- What holds of the block between commands, faulted or not (R22, R35, R36, R148, R231). -/
structure BlockInv (s : State) : Prop where
  cfg : s.cfg.wf = true
  size : s.size ≠ 0
  col : 0 ≤ s.col.toInt
  row : 2 ≤ s.row.toInt
  idle : s.ready = true → PinsIdle s.cfg s.pins
  unset : s.ready = false → s.pins = Pins.unset
  noFault : s.fault = false → s.fcause = 0 ∧ s.finfo = 0
  cause : s.fault = true → 1 ≤ s.fcause.toNat ∧ s.fcause.toNat ≤ 6

/-- The byte a `Respond` event carries (R10, R122). -/
def responseOf : PinEvent → Option Byte
  | .respond v => some v
  | .ctlOut => none
  | .set _ _ => none
  | .dir _ => none
  | .drive _ => none
  | .sample _ => none
  | .wait _ => none

/-- The trace explains the wires, the panel and the responses: each is what the events since the last hardware reset, in order,
make of its value then, the panel's being `P` (R10, R77, R122). -/
structure TraceExplains (P : Panel) (s : State) : Prop where
  pins : s.pins = pinsAfter Pins.unset s.trace
  panel : s.panel = panelAfter s.cfg Pins.unset P s.trace
  responses : s.respOut = s.trace.filterMap responseOf

/-- A pixel of the screen (R93). -/
def onScreen (c : Cfg) (x y : Half) : Prop := x.toNat < c.screenW ∧ y.toNat < c.screenH

/-- What holds of the panel between items: canonical frame memory, five `cfg` bits, only pixels of the screen written, and a
write pointer inside the window while a defined panel is in memory-write mode (R76, R80, R83 to R85). -/
structure PanelInv (c : Cfg) (P : Panel) : Prop where
  gram : P.gram.wf = true
  bits : P.cfgDone.length = 5
  written : ∀ k, P.gram.read k ≠ .x → ∃ x y, k = pixelKey x y ∧ onScreen c x y
  pointer : P.mode = .memWrite → P.undef = false → ∃ x y, P.x = .is x ∧ P.y = .is y ∧
    ∀ w, P.window? = some w → w.valid c = true →
      w.c0.toNat ≤ x.toNat ∧ x.toNat ≤ w.c1.toNat ∧ w.r0.toNat ≤ y.toNat ∧ y.toNat ≤ w.r1.toNat

/-- The panel takes the next command opcode and is set up for streams: it listens (R78, R79, R89), has received all of
`INIT_SEQ` (R84), and is not inside an argument list (R80). -/
structure PanelReady (c : Cfg) (cs : Latch Level) (P : Panel) : Prop where
  listening : P.listening c cs = true
  configured : P.configured = true
  mode : P.mode = .idle ∨ P.mode = .memWrite

/-- The two bytes of a 16-bit value on the bus, high byte first (R69). -/
def wordItems (n : Nat) : List Transaction := [.dat (BitVec.ofNat 8 (n / 256)), .dat (BitVec.ofNat 8 n)]

/-- The eleven items of a window with columns `c0 .. c1` and rows `r0 .. r1` (R163). -/
def windowItems (c : Cfg) (c0 c1 r0 r1 : Nat) : List Transaction :=
  [.cmd c.opCaset] ++ wordItems c0 ++ wordItems c1 ++ [.cmd c.opPaset] ++ wordItems r0 ++ wordItems r1 ++ [.cmd c.opRamwr]

/-- The items of a stream of colours (R162). -/
def colorItems (ps : List Half) : List Transaction := ps.flatMap (fun p => wordItems p.toNat)

/-- The state after a command whose pin events are `evs`, whose items are `items`, and which leaves the register-select line
at `rs` and `d` in the data latch; `cp` has advanced and nothing else has changed. -/
def driven (s : State) (evs : List PinEvent) (items : List Transaction) (rs : Level) (d : Byte) : State :=
  { s with
    pins := { s.pins with rs := .is rs, dout := .is d }
    history := evs.reverse ++ s.history
    panel := items.foldl (Panel.accept s.cfg s.pins.cs) s.panel
    cp := s.cp + 1 }

/-- The state after a command that a fault refused before any effect: the three fault fields and `cp` (R232, R235). -/
def faulted (s : State) (code : Byte) (info : Half) : State :=
  { s with fault := true, fcause := code, finfo := info, cp := s.cp + 1 }

/-- The bit of glyph row `r`, column `col` of symbol `sym` (R61, R62): column 5 and the columns after it are blank (R190).
A symbol below 0x20 is read as glyph 0, as in `glyphColumn` (log 20). -/
def glyphBit (c : Cfg) (sym : Byte) (col r : Nat) : Bool :=
  decide (col < 5) && ((c.glyphTable.getD (sym.toNat - 0x20) []).getD col 0).getLsbD r

/-- Colour number `k` of a character at scale `n`, the closed form of rule R191. -/
def glyphPixel (c : Cfg) (sym : Byte) (n : Nat) (fg bg : Half) (k : Nat) : Half :=
  if glyphBit c sym (k / (8 * n * n)) (k / n % 8) then fg else bg

/-- The `48 * n * n` colours of a character in sending order (R191). -/
def glyphPixels (c : Cfg) (sym : Byte) (n : Nat) (fg bg : Half) : List Half :=
  (List.range (48 * n * n)).map (glyphPixel c sym n fg bg)

/-- The cell of the next character when the cursor is at `p` (R193 step 1). -/
def cellAt (c : Cfg) (n : Nat) (p : Int × Int) : Int × Int :=
  if c.wrapLimit < p.1 + 6 * n then (c.gap, p.2 + 9 * n) else p

/-- The cursor after that character (R193 step 4). -/
def afterCell (c : Cfg) (n : Nat) (p : Int × Int) : Int × Int := ((cellAt c n p).1 + 6 * n, (cellAt c n p).2)

/-- The items of one character whose cell is at `q`: its window and its colours (R193 steps 2 and 3). -/
def cellItems (s : State) (sym : Byte) (q : Int × Int) : List Transaction :=
  windowItems s.cfg q.1.toNat (q.1.toNat + 6 * s.size.toNat - 1) q.2.toNat (q.2.toNat + 8 * s.size.toNat - 1) ++
    colorItems (glyphPixels s.cfg sym s.size.toNat s.fg s.bg)

/-- The items of a text that starts with the cursor at `p` (R196). -/
def textItems (s : State) : List Byte → Int × Int → List Transaction
  | [], _ => []
  | sym :: syms, p =>
      cellItems s sym (cellAt s.cfg s.size.toNat p) ++ textItems s syms (afterCell s.cfg s.size.toNat p)

/-- The cursor after a text of `k` characters (R193, R196). -/
def afterText (c : Cfg) (n : Nat) : Nat → Int × Int → Int × Int
  | 0, p => p
  | k + 1, p => afterText c n k (afterCell c n p)

/-- Where colour number `k` of a stream lands in a window at `(col, row)` of `w` by `h` (R85, R170). -/
def placeOf (c : Cfg) (col row w h k : Nat) : Half × Half :=
  match c.panelFastAxis with
  | .col => (BitVec.ofNat 16 (col + k % w), BitVec.ofNat 16 (row + k / w))
  | .row => (BitVec.ofNat 16 (col + k / h), BitVec.ofNat 16 (row + k % h))

/-- The number of a pixel of the screen in the panel's scan order (R85, R183). -/
def scanIndex (c : Cfg) (x y : Half) : Nat :=
  match c.panelFastAxis with
  | .col => y.toNat * c.screenW + x.toNat
  | .row => x.toNat * c.screenH + y.toNat

/-- Whether a pixel lies in the rectangle at `(col, row)` of `w` by `h`. -/
def inRect (col row w h : Nat) (x y : Half) : Prop :=
  col ≤ x.toNat ∧ x.toNat < col + w ∧ row ≤ y.toNat ∧ y.toNat < row + h

/-- Execute a list of commands one after the other, as long as each answers a next state. -/
def execAll : List Instr → State → Out
  | [], s => .next s
  | i :: is, s =>
      match exec i s with
      | .next t => execAll is t
      | .fault r => .fault r
      | .refused r => .refused r

end Sys2Proof.Machine
end

