-- ==== Sys2Proof/Certificates/Slice0/Obligations.lean ====
section
/-! DEFINITION. The statements for the provers. Each docstring names the rules of spec/ the statement formalises. -/

open Sys2Proof Sys2Proof.Machine

/-! ### Encoding, 30_encoding.md -/

/-- Words of 95_test_vectors.md section 2, one per format, decode to the commands they stand for (R111, R113). -/
def Obligations.SpecWordsDecode : Prop :=
  decode [0x01, 0x5A] = .command (.wrb 0x5A) [] ∧
  decode [0x10] = .command .init [] ∧
  decode [0x13, 0x00, 0x02, 0x00, 0x02, 0x00, 0x06, 0x00, 0x08] = .command (.win 2 2 6 8) [] ∧
  decode [0x14, 0x00, 0x0A, 0x00, 0x14, 0x00, 0x02, 0x00, 0x01, 0xF8, 0x00] = .command (.rect 10 20 2 1 0xF800) [] ∧
  decode [0x31, 0x02, 0x48, 0x69] = .command (.str [0x48, 0x69]) [] ∧
  decode [0x32, 0xFF, 0x88] = .command (.int (BitVec.ofInt 16 (-120))) [] ∧
  decode [0x20, 0x0C] = .command (.clr 0x0C) [] ∧
  decode [0x42, 0x00, 0x1F] = .command (.bgc 0x001F) []

/-- Decoding an encoded well-formed command gives it back, whatever follows it in the stream (R110, R111, R113, R115). -/
def Obligations.EncodeThenDecode : Prop :=
  ∀ i : Instr, i.wf = true → ∀ rest : List Byte, decode (encode i ++ rest) = .command i rest

/-- The other direction: a stream that decodes to a command begins with exactly that command's encoding (R111, R115). -/
def Obligations.DecodeThenEncode : Prop :=
  ∀ (bs : List Byte) (i : Instr) (rest : List Byte), decode bs = .command i rest → i.wf = true ∧ bs = encode i ++ rest

/-- R116: the illegal opcode bytes are exactly the listed 238; one of them raises ILLEGAL_OPCODE with the byte as information
word and changes nothing else. That the byte alone leaves the pending stream is the model's way of holding the stream (log 7,
log 8); that `cp` moves on is R121. -/
def Obligations.IllegalOpcodeFaults : Prop :=
  ∀ (b : Byte) (rest : List Byte),
    (decode (b :: rest) = .illegal b rest ↔
      b.toNat = 0x00 ∨ (0x05 ≤ b.toNat ∧ b.toNat ≤ 0x0F) ∨ (0x15 ≤ b.toNat ∧ b.toNat ≤ 0x1F) ∨
      (0x21 ≤ b.toNat ∧ b.toNat ≤ 0x2F) ∨ (0x35 ≤ b.toNat ∧ b.toNat ≤ 0x3F) ∨ 0x43 ≤ b.toNat) ∧
    ∀ s : State, s.cfg.wf = true → s.fault = false → s.cmdIn = b :: rest → decode (b :: rest) = .illegal b rest →
      step s = .next { s with cmdIn := rest, fault := true, fcause := 1, finfo := b.setWidth 16, cp := s.cp + 1 }

/-- R118: a command cut short is stuck, wherever after the opcode byte it is cut. -/
def Obligations.TruncatedCommandIsStuck : Prop :=
  ∀ (i : Instr) (p : List Byte), i.wf = true → p ≠ [] → p <+: encode i → p ≠ encode i →
    ∀ s : State, s.cfg.wf = true → s.cmdIn = p → step s = .fault .truncatedCommand

/-! ### The step, reset and the template -/

/-- A step runs the decoded command: the command's bytes leave the stream and the rest stays (R110, R112). -/
def Obligations.StepRunsTheDecodedCommand : Prop :=
  ∀ (s : State) (i : Instr) (rest : List Byte), s.cfg.wf = true → decode s.cmdIn = .command i rest →
    step s = exec i { s with cmdIn := rest }

/-- R8: a configuration outside the bounds is refused. R31: with no command left the run ends (`endOfRun` is the model's name
for it, log 7). -/
def Obligations.NoStepWithoutConfigurationOrCommand : Prop :=
  (∀ s : State, ¬(1 ≤ s.cfg.screenW ∧ s.cfg.screenW ≤ 32767 ∧ 1 ≤ s.cfg.screenH ∧ s.cfg.screenH ≤ 32767 ∧
      s.cfg.gap < s.cfg.screenW ∧ s.cfg.gap ≤ 32767 ∧ 1 ≤ s.cfg.sizeReset.toNat ∧ s.cfg.initSeq.length = 5 ∧
      ([s.cfg.opCaset, s.cfg.opPaset, s.cfg.opRamwr] ++ s.cfg.initSeq.map (·.op)).Nodup) →
    step s = .refused .badConfiguration) ∧
  (∀ s : State, s.cfg.wf = true → s.cmdIn = [] → step s = .fault .endOfRun)

/-- R261: the state after hardware reset, from any state, for every configuration. -/
def Obligations.HardwareResetState : Prop :=
  ∀ s : State, s.cfg.wf = true →
    let t := hardwareReset s
    t.cfg = s.cfg ∧ t.col.toInt = s.cfg.gap ∧ t.row.toInt = 2 ∧ t.size = s.cfg.sizeReset ∧ t.fg = s.cfg.fgReset ∧
    t.bg = s.cfg.bgReset ∧ t.pins.rst = .x ∧ t.pins.cs = .x ∧ t.pins.rs = .x ∧ t.pins.wr = .x ∧ t.pins.rd = .x ∧
    t.pins.ddir = .x ∧ t.pins.dout = .x ∧ t.pins.ctlOut = false ∧ t.ready = false ∧ t.fault = false ∧ t.fcause = 0 ∧
    t.finfo = 0 ∧ t.cp = 0 ∧ t.trace = [] ∧ t.panel.undef = true

/-- R233: a halted block does nothing but advance `cp`, whatever the command, legal or not; only a hardware reset ends it. -/
def Obligations.HaltedBlockIgnoresEveryCommand : Prop :=
  (∀ (i : Instr) (s : State), s.fault = true → exec i s = .next { s with cp := s.cp + 1 }) ∧
  (∀ s t : State, s.fault = true → step s = .next t → t = { s with cmdIn := t.cmdIn, cp := s.cp + 1 }) ∧
  (∀ s : State, (hardwareReset s).fault = false)

/-- R28, R231, R262: before INIT has completed every other command raises NOT_READY with its opcode and has no other effect. -/
def Obligations.NotReadyRefusesAllButInit : Prop :=
  ∀ (i : Instr) (s : State), i ≠ .init → s.ready = false → s.fault = false →
    exec i s = .next (faulted s 2 (((encode i).headD 0).setWidth 16))

/-! ### Bus interface, 40_bus_interface.md -/

/-- R140 through WRB (R144): the three pin events, the item by the level of RS, and nothing else. -/
def Obligations.WrbWritesOneByte : Prop :=
  ∀ (a : Byte) (s : State), Running s → PinsIdle s.cfg s.pins →
    exec (.wrb a) s = .next { s with
      pins := { s.pins with dout := .is a }
      history := [.set .wr .high, .set .wr .low, .drive a] ++ s.history
      panel := s.panel.accept s.cfg s.pins.cs (if s.pins.rs = .is .low then .cmd a else .dat a)
      cp := s.cp + 1 }

/-- R145, R146: SELC and SELD set the level of RS, produce no item and change nothing else. -/
def Obligations.SelectSetsRegisterSelect : Prop :=
  ∀ s : State, Running s →
    exec .selc s = .next { s with
      pins := { s.pins with rs := .is .low }, history := .set .rs .low :: s.history, cp := s.cp + 1 } ∧
    exec .seld s = .next { s with
      pins := { s.pins with rs := .is .high }, history := .set .rs .high :: s.history, cp := s.cp + 1 } ∧
    transactions s.pins [.set .rs .low] = [] ∧ transactions s.pins [.set .rs .high] = [] ∧
    (stutters s.pins (.set .rs .low) = true ↔ s.pins.rs = .is .low) ∧
    (stutters s.pins (.set .rs .high) = true ↔ s.pins.rs = .is .high) ∧
    (∀ rest, decode (0x02 :: rest) = .command .selc rest) ∧ (∀ rest, decode (0x03 :: rest) = .command .seld rest)

/-- R143, R147: RDB samples the next byte of the free value (log 6), responds with it, leaves RS high and every other line
and the data latch as they were. Holds whatever the free value is. -/
def Obligations.RdbReturnsTheSampledByte : Prop :=
  ∀ s : State, Running s → PinsIdle s.cfg s.pins →
    let v := Config.readOracle s.samples
    exec .rdb s = .next { s with
      pins := { s.pins with rs := .is .high }
      history := [.respond v, .dir .out, .set .rd .high, .sample v, .set .rd .low, .set .rs .high, .dir .inp] ++ s.history
      panel := s.panel.accept s.cfg s.pins.cs (.rd v)
      respOut := s.respOut ++ [v]
      samples := s.samples + 1
      cp := s.cp + 1 }

/-- R90, R277: a read leaves a listening panel alone when it is idle and makes it undefined in any other mode; the block goes
on either way. -/
def Obligations.ReadInsideAStreamUndefinesThePanel : Prop :=
  ∀ s : State, Running s → PinsIdle s.cfg s.pins → s.panel.listening s.cfg s.pins.cs = true →
    ∃ t, exec .rdb s = .next t ∧ t.fault = false ∧
      (s.panel.mode = .idle → t.panel = s.panel) ∧ (s.panel.mode ≠ .idle → t.panel = { s.panel with undef := true })

/-! ### Controller session, 41_controller_session.md -/

/-- R160 through CMD (R165) and R161 through DAT (R166): four pin events, one item, RS and the data latch, nothing else. -/
def Obligations.CmdAndDatIssueOneByte : Prop :=
  ∀ (a : Byte) (s : State), Running s → PinsIdle s.cfg s.pins →
    exec (.cmd a) s = .next (driven s [.set .rs .low, .drive a, .set .wr .low, .set .wr .high] [.cmd a] .low a) ∧
    exec (.dat a) s = .next (driven s [.set .rs .high, .drive a, .set .wr .low, .set .wr .high] [.dat a] .high a) ∧
    transactions s.pins [.set .rs .low, .drive a, .set .wr .low, .set .wr .high] = [.cmd a] ∧
    transactions s.pins [.set .rs .high, .drive a, .set .wr .low, .set .wr .high] = [.dat a]

/-- R163 through WIN (R167): for every window that passes `checkWindow`, the eleven items with exact ends, and nothing else. -/
def Obligations.WinSendsElevenItems : Prop :=
  ∀ (col row width height : Half) (s : State), Running s → PinsIdle s.cfg s.pins →
    0 ≤ col.toInt → 0 ≤ row.toInt → 0 < width.toInt → 0 < height.toInt →
    let items := windowItems s.cfg col.toNat (col.toNat + width.toNat - 1) row.toNat (row.toNat + height.toNat - 1)
    ∃ evs, transactions s.pins evs = items ∧
      exec (.win col row width height) s = .next (driven s evs items .low s.cfg.opRamwr) ∧
      col.toNat + width.toNat - 1 ≤ 65533 ∧ row.toNat + height.toNat - 1 ≤ 65533

/-- R169: `checkWindow` refuses with the index of the first failing field, and refuses nothing else; the size of the screen
does not matter. -/
def Obligations.BadWindowIsRefused : Prop :=
  ∀ (col row width height color : Half) (s : State), Running s →
    let bad (k : Half) : Prop := exec (.win col row width height) s = .next (faulted s 5 k) ∧
      exec (.rect col row width height color) s = .next (faulted s 5 k)
    (col.toInt < 0 → bad 0) ∧
    (0 ≤ col.toInt → row.toInt < 0 → bad 1) ∧
    (0 ≤ col.toInt → 0 ≤ row.toInt → width.toInt ≤ 0 → bad 2) ∧
    (0 ≤ col.toInt → 0 ≤ row.toInt → 0 < width.toInt → height.toInt ≤ 0 → bad 3) ∧
    (0 ≤ col.toInt → 0 ≤ row.toInt → 0 < width.toInt → 0 < height.toInt →
      ∃ t u, exec (.win col row width height) s = .next t ∧ t.fault = false ∧
        exec (.rect col row width height color) s = .next u ∧ u.fault = false)

/-- R168: RECT sends the window, then the colour `width * height` times, and changes nothing else. -/
def Obligations.RectStreamsTheArea : Prop :=
  ∀ (col row width height color : Half) (s : State), Running s → PinsIdle s.cfg s.pins →
    0 ≤ col.toInt → 0 ≤ row.toInt → 0 < width.toInt → 0 < height.toInt →
    let items := windowItems s.cfg col.toNat (col.toNat + width.toNat - 1) row.toNat (row.toNat + height.toNat - 1) ++
      colorItems (List.replicate (width.toNat * height.toNat) color)
    ∃ evs, transactions s.pins evs = items ∧ items.length = 11 + 2 * (width.toNat * height.toNat) ∧
      exec (.rect col row width height color) s = .next (driven s evs items .high (BitVec.ofNat 8 color.toNat))

/-- R164, R263, R266, R267: INIT from the reset levels and INIT again: its transaction trace step for step, the levels it
leaves, the cursor, and what it does not touch. -/
def Obligations.InitBringsUpTheBlock : Prop :=
  ∀ s : State, BlockInv s → s.fault = false →
    let c := s.cfg
    let tail := [.rstLevel c.rstALevel.other, .wait 20, .rstLevel c.rstALevel, .wait 20] ++
      (if s.ready then [] else [.csLevel c.csIdleLevel]) ++
      c.initSeq.flatMap (fun e => .cmd e.op :: e.data.map .dat) ++ [.wait c.tWake] ++
      windowItems c 0 (c.screenW - 1) 0 (c.screenH - 1) ++
      List.replicate (4 * (c.screenW * c.screenH / 2)) (.dat c.initClearByte)
    ∃ t evs, exec .init s = .next t ∧ t.trace = s.trace ++ evs ∧
      transactions s.pins evs = (if s.ready then [] else [.rstLevel c.rstALevel]) ++ .wait 10 :: tail ∧
      t.pins = ⟨.is c.rstALevel, .is c.csIdleLevel, .is .high, .is .high, .is .high, .is .out, .is c.initClearByte, true⟩ ∧
      t.col.toInt = c.gap ∧ t.row.toInt = 2 ∧ t.ready = true ∧ t.cp = s.cp + 1 ∧
      t = { s with
        col := t.col, row := t.row, pins := t.pins, ready := true, cp := t.cp, history := t.history, panel := t.panel }

/-! ### Fast clear, 42_fast_clear.md -/

/-- R180, R181, R183: CLR sends the full-screen window, then the byte `4 * (N div 2)` times, resets the cursor and changes
nothing else. -/
def Obligations.ClrStreamsOneByteAndHomesTheCursor : Prop :=
  ∀ (a : Byte) (s : State), Running s → BlockInv s →
    let items := windowItems s.cfg 0 (s.cfg.screenW - 1) 0 (s.cfg.screenH - 1) ++
      List.replicate (4 * (s.cfg.screenW * s.cfg.screenH / 2)) (.dat a)
    ∃ evs, transactions s.pins evs = items ∧
      exec (.clr a) s = .next { driven s evs items .high a with col := BitVec.ofNat 16 s.cfg.gap, row := 2 }

/-- R184, R11: on a screen with an even pixel count, CLR and a full-screen RECT in the colour of two equal bytes give the same
pin trace modulo stuttering and the same transaction trace, and leave the same state but for the trace and the cursor. -/
def Obligations.ClrEqualsFullScreenRect : Prop :=
  ∀ (a : Byte) (s : State), Running s → BlockInv s → s.cfg.screenW * s.cfg.screenH % 2 = 0 →
    ∃ t u evs evs',
      exec (.clr a) s = .next t ∧ t.trace = s.trace ++ evs ∧
      exec (.rect 0 0 (BitVec.ofNat 16 s.cfg.screenW) (BitVec.ofNat 16 s.cfg.screenH) (a ++ a)) s = .next u ∧
      u.trace = s.trace ++ evs' ∧ observed s.pins evs = observed s.pins evs' ∧
      transactions s.pins evs = transactions s.pins evs' ∧
      t = { u with history := t.history, col := BitVec.ofNat 16 s.cfg.gap, row := 2 }

/-! ### Text layout, 43_text_layout.md -/

/-- R191, with R190, R61 to R63 and R192: the raster's length and closed form, its blank end, and how many of its colours are
foreground. -/
def Obligations.RasterIsTheClosedForm : Prop :=
  ∀ (c : Cfg) (sym : Byte) (n : Nat) (fg bg : Half), c.wf = true → 0x20 ≤ sym.toNat → sym.toNat ≤ 0x7F → 1 ≤ n →
    (rasterStream c sym n fg bg).length = 48 * n * n ∧
    (∀ k, k < 48 * n * n → (rasterStream c sym n fg bg)[k]? = some
      (if glyphBit c sym (k / (8 * n * n)) (k / n % 8) then fg else bg)) ∧
    (rasterStream c sym n fg bg).drop (40 * n * n) = List.replicate (8 * n * n) bg ∧
    (fg ≠ bg → (rasterStream c sym n fg bg).count fg =
      n * n * ((List.range 5).map (fun col => (List.range 8).countP (glyphBit c sym col))).sum)

/-- R198: `dec` and `digits` are the canonical base-10 string, with the lengths given there. -/
def Obligations.DecimalIsTheRecursion : Prop :=
  (∀ n : Int, dec n = if n < 0 then 0x2D :: digits (-n).toNat else digits n.toNat) ∧
  (∀ m : Nat, digits m = if m < 10 then [BitVec.ofNat 8 (0x30 + m)] else digits (m / 10) ++ [BitVec.ofNat 8 (0x30 + m % 10)]) ∧
  (∀ n : Int, 0 ≤ n → n ≤ 9 → (dec n).length = 1) ∧
  (∀ n : Int, 0 ≤ n → n ≤ 32767 → (dec n).length ≤ 5) ∧ (∀ n : Int, -32768 ≤ n → n ≤ 32767 → (dec n).length ≤ 6) ∧
  (dec 32767).length = 5 ∧ (dec (-32768)).length = 6

/-- R198, from its words "no leading zeros": the digits read back in base 10 to the number, and the first is 0 only for 0. -/
def Obligations.DecimalReadsBack : Prop :=
  ∀ m : Nat, (digits m).foldl (fun v d => 10 * v + (d.toNat - 0x30)) 0 = m ∧
    (∀ d ∈ digits m, 0x30 ≤ d.toNat ∧ d.toNat ≤ 0x39) ∧ ((digits m).head? = some 0x30 → m = 0)

/-- R195, R193 without a wrap: the window of the cell at the cursor, the character's colours, the column advanced, and nothing
else. -/
def Obligations.ChrDrawsAtTheCursor : Prop :=
  ∀ (a : Byte) (s : State), Running s → BlockInv s → 0x20 ≤ a.toNat → a.toNat ≤ 0x7F →
    s.col.toInt + 6 * s.size.toNat ≤ s.cfg.wrapLimit → s.col.toInt + 6 * s.size.toNat ≤ 32767 →
    let items := cellItems s a (s.col.toInt, s.row.toInt)
    ∃ evs, transactions s.pins evs = items ∧ items.length = 11 + 96 * s.size.toNat * s.size.toNat ∧
      exec (.chr a) s = .next { driven s evs items .high (BitVec.ofNat 8 s.bg.toNat) with
        col := BitVec.ofInt 16 (s.col.toInt + 6 * s.size.toNat) }

/-- R195, R193 with a wrap: the same at the left gap, one line pitch down, whether or not the cell fits there. -/
def Obligations.ChrWrapsToTheNextLine : Prop :=
  ∀ (a : Byte) (s : State), Running s → BlockInv s → 0x20 ≤ a.toNat → a.toNat ≤ 0x7F →
    s.cfg.wrapLimit < s.col.toInt + 6 * s.size.toNat → s.row.toInt + 9 * s.size.toNat ≤ 32767 →
    (s.cfg.gap : Int) + 6 * s.size.toNat ≤ 32767 →
    let items := cellItems s a (s.cfg.gap, s.row.toInt + 9 * s.size.toNat)
    ∃ evs, transactions s.pins evs = items ∧
      exec (.chr a) s = .next { driven s evs items .high (BitVec.ofNat 8 s.bg.toNat) with
        col := BitVec.ofInt 16 (s.cfg.gap + 6 * s.size.toNat)
        row := BitVec.ofInt 16 (s.row.toInt + 9 * s.size.toNat) }

/-- R195, R231, R234: CHR refuses a symbol outside 0x20 to 0x7F before anything else, then a row and then a column outside
int16; a refused character has no other effect. -/
def Obligations.ChrRefusals : Prop :=
  ∀ (a : Byte) (s : State), Running s → BlockInv s →
    let n : Int := s.size.toNat
    ((a.toNat < 0x20 ∨ 0x7F < a.toNat) → exec (.chr a) s = .next (faulted s 3 (a.setWidth 16))) ∧
    (0x20 ≤ a.toNat → a.toNat ≤ 0x7F → s.cfg.wrapLimit < s.col.toInt + 6 * n → 32767 < s.row.toInt + 9 * n →
      exec (.chr a) s = .next (faulted s 6 (BitVec.ofInt 16 (s.row.toInt + 9 * n)))) ∧
    (0x20 ≤ a.toNat → a.toNat ≤ 0x7F → s.cfg.wrapLimit < s.col.toInt + 6 * n → s.row.toInt + 9 * n ≤ 32767 →
      32767 < s.cfg.gap + 6 * n → exec (.chr a) s = .next (faulted s 6 (BitVec.ofInt 16 (s.cfg.gap + 6 * n)))) ∧
    (0x20 ≤ a.toNat → a.toNat ≤ 0x7F → s.col.toInt + 6 * n ≤ s.cfg.wrapLimit → 32767 < s.col.toInt + 6 * n →
      exec (.chr a) s = .next (faulted s 6 (BitVec.ofInt 16 (s.col.toInt + 6 * n))))

/-- R196: STR has the effect of the CHR commands of its symbols in order, faults included; it counts as one command. -/
def Obligations.StrIsTheChrSequence : Prop :=
  ∀ (syms : List Byte) (s : State), Running s →
    ∃ t, execAll (syms.map .chr) s = .next t ∧ exec (.str syms) s = .next { t with cp := s.cp + 1 }

/-- R196, R193: a text whose rows and columns stay in int16 is drawn whole: its items in order, the cursor after it, and
nothing else changed. A text of no symbols does nothing. -/
def Obligations.StrDrawsItsText : Prop :=
  ∀ (syms : List Byte) (s : State), Running s → BlockInv s → (∀ a ∈ syms, 0x20 ≤ a.toNat ∧ a.toNat ≤ 0x7F) →
    s.cfg.wrapLimit ≤ 32767 → (s.cfg.gap : Int) + 6 * s.size.toNat ≤ 32767 →
    s.row.toInt + 9 * s.size.toNat * syms.length ≤ 32767 →
    let items := textItems s syms (s.col.toInt, s.row.toInt)
    let p := afterText s.cfg s.size.toNat syms.length (s.col.toInt, s.row.toInt)
    (syms = [] → exec (.str syms) s = .next { s with cp := s.cp + 1 }) ∧
    (syms ≠ [] → ∃ evs, transactions s.pins evs = items ∧
      exec (.str syms) s = .next { driven s evs items .high (BitVec.ofNat 8 s.bg.toNat) with
        col := BitVec.ofInt 16 p.1, row := BitVec.ofInt 16 p.2 })

/-- R197: INT draws the glyphs of `dec(n)`: it is STR with those symbols. -/
def Obligations.IntIsStrOfItsDecimal : Prop :=
  ∀ (h : Half) (s : State), Running s → exec (.int h) s = exec (.str (dec h.toInt)) s

/-- R197, R198, R193: an integer whose text stays in int16 is drawn whole, and nothing else changes. -/
def Obligations.IntDrawsItsDecimal : Prop :=
  ∀ (h : Half) (s : State), Running s → BlockInv s →
    s.cfg.wrapLimit ≤ 32767 → (s.cfg.gap : Int) + 6 * s.size.toNat ≤ 32767 →
    s.row.toInt + 9 * s.size.toNat * (dec h.toInt).length ≤ 32767 →
    let items := textItems s (dec h.toInt) (s.col.toInt, s.row.toInt)
    let p := afterText s.cfg s.size.toNat (dec h.toInt).length (s.col.toInt, s.row.toInt)
    ∃ evs, transactions s.pins evs = items ∧
      exec (.int h) s = .next { driven s evs items .high (BitVec.ofNat 8 s.bg.toNat) with
        col := BitVec.ofInt 16 p.1, row := BitVec.ofInt 16 p.2 }

/-- R202: from the left gap exactly `(WRAP_LIMIT - GAP) div (6 * size)` characters fit on a line; the next is drawn at the gap,
`9 * size` rows down. -/
def Obligations.ALineHoldsThatManyCharacters : Prop :=
  ∀ (syms : List Byte) (s : State), Running s → BlockInv s → (∀ a ∈ syms, 0x20 ≤ a.toNat ∧ a.toNat ≤ 0x7F) →
    s.cfg.wrapLimit ≤ 32767 → (s.cfg.gap : Int) + 6 * s.size.toNat ≤ 32767 → s.row.toInt + 9 * s.size.toNat ≤ 32767 →
    s.col.toInt = s.cfg.gap →
    let n := s.size.toNat
    let fits := (s.cfg.wrapLimit - s.cfg.gap).toNat / (6 * n)
    (syms.length ≤ fits → ∃ t, exec (.str syms) s = .next t ∧ t.fault = false ∧
      t.col.toInt = s.cfg.gap + 6 * n * syms.length ∧ t.row = s.row) ∧
    (syms.length = fits + 1 → ∃ t, exec (.str syms) s = .next t ∧ t.fault = false ∧
      t.col.toInt = s.cfg.gap + 6 * n ∧ t.row.toInt = s.row.toInt + 9 * n)

/-- R199: ERA floods the window of `n` cells at the cursor with the background colour, and changes nothing else: the cursor
stays. -/
def Obligations.EraFloodsWithBackground : Prop :=
  ∀ (a : Byte) (s : State), Running s → BlockInv s → 1 ≤ a.toNat → 6 * s.size.toNat * a.toNat ≤ 32767 →
    let w := 6 * s.size.toNat * a.toNat
    let h := 8 * s.size.toNat
    let items := windowItems s.cfg s.col.toNat (s.col.toNat + w - 1) s.row.toNat (s.row.toNat + h - 1) ++
      colorItems (List.replicate (w * h) s.bg)
    ∃ evs, transactions s.pins evs = items ∧ items.length = 11 + 96 * s.size.toNat * s.size.toNat * a.toNat ∧
      exec (.era a) s = .next (driven s evs items .high (BitVec.ofNat 8 s.bg.toNat))

/-- R199, R234: ERA refuses a width outside int16 with RANGE, and a count of 0 with BAD_WINDOW and index 2. -/
def Obligations.EraRefusals : Prop :=
  ∀ (a : Byte) (s : State), Running s → BlockInv s →
    (32767 < 6 * s.size.toNat * a.toNat →
      exec (.era a) s = .next (faulted s 6 (BitVec.ofNat 16 (6 * s.size.toNat * a.toNat)))) ∧
    (a = 0 → exec (.era a) s = .next (faulted s 5 2))

/-- R194 through NL (R200): the cursor goes to the left gap one line pitch down; a row outside int16 is refused first. -/
def Obligations.NlStartsANewLine : Prop :=
  ∀ s : State, Running s → s.cfg.wf = true →
    (s.row.toInt + 9 * s.size.toNat ≤ 32767 →
      exec .nl s = .next { s with
        col := BitVec.ofNat 16 s.cfg.gap, row := BitVec.ofInt 16 (s.row.toInt + 9 * s.size.toNat), cp := s.cp + 1 }) ∧
    (32767 < s.row.toInt + 9 * s.size.toNat →
      exec .nl s = .next (faulted s 6 (BitVec.ofInt 16 (s.row.toInt + 9 * s.size.toNat))))

/-! ### Font configuration, 44_font_config.md -/

/-- R220: SIZ writes the size and nothing else; 0 is refused. -/
def Obligations.SizSetsTheSize : Prop :=
  ∀ (a : Byte) (s : State), Running s →
    (a ≠ 0 → exec (.siz a) s = .next { s with size := a, cp := s.cp + 1 }) ∧
    (a = 0 → exec (.siz a) s = .next (faulted s 4 0))

/-- R221, R222: FGC and BGC write their field, any value, and nothing else. -/
def Obligations.ColorCommandsSetTheirField : Prop :=
  ∀ (h : Half) (s : State), Running s →
    exec (.fgc h) s = .next { s with fg := h, cp := s.cp + 1 } ∧ exec (.bgc h) s = .next { s with bg := h, cp := s.cp + 1 }

/-! ### The panel reference model, 20_memory.md -/

/-- R11: two pin traces that are equal modulo stuttering give the same transaction trace. -/
def Obligations.StutteringIsInvisible : Prop :=
  (∀ (p : Pins) (evs : List PinEvent), transactions p (observed p evs) = transactions p evs) ∧
  (∀ (p : Pins) (evs evs' : List PinEvent), observed p evs = observed p evs' → transactions p evs = transactions p evs')

/-- R78: the panel's reset line. -/
def Obligations.PanelResetLine : Prop :=
  ∀ (c : Cfg) (cs : Latch Level) (P : Panel),
    P.accept c cs (.rstLevel c.rstALevel.other) = { P with inReset := true } ∧
    (P.inReset = false → P.accept c cs (.rstLevel c.rstALevel) = P) ∧
    (P.inReset = true → ∃ Q, P.accept c cs (.rstLevel c.rstALevel) = Q ∧ Q.inReset = false ∧ Q.undef = false ∧
      Q.mode = .idle ∧ Q.half = none ∧ Q.cfgDone = [false, false, false, false, false] ∧
      Q.c0 = .x ∧ Q.c1 = .x ∧ Q.r0 = .x ∧ Q.r1 = .x ∧ ∀ x y, Q.gram.read (pixelKey x y) = .x) ∧
    (P.inReset = true → ∀ b, P.accept c cs (.cmd b) = P ∧ P.accept c cs (.dat b) = P ∧ P.accept c cs (.rd b) = P)

/-- R79, R89, R91, R92: an undefined panel, and one whose chip-select gates it off, ignore `Cmd`, `Dat` and `Rd`; waits and
chip-select levels have no effect of their own; nothing but leaving reset makes an undefined panel defined. -/
def Obligations.PanelIgnores : Prop :=
  ∀ (c : Cfg) (cs : Latch Level) (P : Panel),
    ((P.undef = true ∨ ∃ l, c.panelCsActive = some l ∧ cs ≠ .is l) →
      ∀ b, P.accept c cs (.cmd b) = P ∧ P.accept c cs (.dat b) = P ∧ P.accept c cs (.rd b) = P) ∧
    (∀ n, P.accept c cs (.wait n) = P) ∧ (∀ l, P.accept c cs (.csLevel l) = P) ∧
    (∀ t, P.undef = true → (P.accept c cs t).undef = false → P.inReset = true ∧ t = .rstLevel c.rstALevel)

/-- R80: a command opcode, by the argument list in progress and the value of the opcode. -/
def Obligations.PanelTakesAnOpcode : Prop :=
  ∀ (c : Cfg) (cs : Latch Level) (P : Panel) (b : Byte), c.wf = true → P.listening c cs = true →
    let complete (op : Byte) (got : List Byte) : Prop :=
      ((op = c.opCaset ∨ op = c.opPaset) ∧ got.length = 4) ∨ ∃ e ∈ c.initSeq, op = e.op ∧ got = e.data
    (∀ op got, P.mode = .args op got → ¬complete op got → P.accept c cs (.cmd b) = { P with undef := true }) ∧
    ((∀ op got, P.mode = .args op got → complete op got) →
      (b = c.opCaset ∨ b = c.opPaset → P.accept c cs (.cmd b) = { P with half := none, mode := .args b [] }) ∧
      (b = c.opRamwr → P.accept c cs (.cmd b) = { P with
        half := none, mode := .memWrite, x := P.c0, y := P.r0, undef := decide (P.c0 = .x ∨ P.r0 = .x) }) ∧
      (∀ i e, c.initSeq[i]? = some e → b = e.op →
        (e.data ≠ [] → P.accept c cs (.cmd b) = { P with half := none, mode := .args b [] }) ∧
        (e.data = [] → P.accept c cs (.cmd b) = { P with half := none, mode := .idle, cfgDone := P.cfgDone.set i true })) ∧
      (b ∉ c.panelOpcodes → P.accept c cs (.cmd b) = { P with half := none, undef := true }))

/-- R81, R82: the four data bytes of an address range. -/
def Obligations.AddressRangeBytes : Prop :=
  ∀ (c : Cfg) (cs : Latch Level) (P : Panel) (op b a0 a1 a2 : Byte) (got : List Byte), c.wf = true →
    P.listening c cs = true → (op = c.opCaset ∨ op = c.opPaset) →
    (P.mode = .args op got → got.length < 3 → P.accept c cs (.dat b) = { P with mode := .args op (got ++ [b]) }) ∧
    (P.mode = .args op [a0, a1, a2] → op = c.opCaset →
      P.accept c cs (.dat b) = { P with mode := .idle, c0 := .is (a0 ++ a1), c1 := .is (a2 ++ b) }) ∧
    (P.mode = .args op [a0, a1, a2] → op = c.opPaset →
      P.accept c cs (.dat b) = { P with mode := .idle, r0 := .is (a0 ++ a1), r1 := .is (a2 ++ b) })

/-- R87: a data byte of an entry of `INIT_SEQ`; R86: a data byte with no command to belong to. -/
def Obligations.InitArgumentBytes : Prop :=
  ∀ (c : Cfg) (cs : Latch Level) (P : Panel) (b : Byte), c.wf = true → P.listening c cs = true →
    (∀ i e got, c.initSeq[i]? = some e → P.mode = .args e.op got →
      (got ++ [b] = e.data → P.accept c cs (.dat b) = { P with mode := .idle, cfgDone := P.cfgDone.set i true }) ∧
      (got ++ [b] ≠ e.data → got ++ [b] <+: e.data → P.accept c cs (.dat b) = { P with mode := .args e.op (got ++ [b]) }) ∧
      (¬got ++ [b] <+: e.data →
        P.accept c cs (.dat b) = { P with mode := .args e.op (got ++ [b]), undef := true })) ∧
    (P.mode = .idle → P.accept c cs (.dat b) = { P with undef := true })

/-- R84, with R83 and R85: a data byte in memory-write mode. -/
def Obligations.PixelBytes : Prop :=
  ∀ (c : Cfg) (cs : Latch Level) (P : Panel) (b : Byte), P.listening c cs = true → P.mode = .memWrite →
    let valid (c0 c1 r0 r1 : Half) : Prop := P.c0 = .is c0 ∧ P.c1 = .is c1 ∧ P.r0 = .is r0 ∧ P.r1 = .is r1 ∧
      c0.toNat ≤ c1.toNat ∧ r0.toNat ≤ r1.toNat ∧ c1.toNat < c.screenW ∧ r1.toNat < c.screenH
    ((P.cfgDone ≠ [true, true, true, true, true] ∨ ¬∃ c0 c1 r0 r1, valid c0 c1 r0 r1) →
      P.accept c cs (.dat b) = { P with undef := true }) ∧
    (∀ c0 c1 r0 r1, P.cfgDone = [true, true, true, true, true] → valid c0 c1 r0 r1 → P.half = none →
      P.accept c cs (.dat b) = { P with half := some b }) ∧
    (∀ c0 c1 r0 r1 h x y, P.cfgDone = [true, true, true, true, true] → valid c0 c1 r0 r1 → P.half = some h →
      P.x = .is x → P.y = .is y → c0.toNat ≤ x.toNat → x.toNat ≤ c1.toNat → r0.toNat ≤ y.toNat → y.toNat ≤ r1.toNat →
      ∃ g x' y', P.accept c cs (.dat b) = { P with gram := g, half := none, x := .is x', y := .is y' } ∧
        g.read (pixelKey x y) = .is (h ++ b) ∧
        (∀ u v, (u, v) ≠ (x, y) → g.read (pixelKey u v) = P.gram.read (pixelKey u v)) ∧
        (c.panelFastAxis = .col →
          x' = (if x = c1 then c0 else x + 1) ∧ y' = (if x = c1 then (if y = r1 then r0 else y + 1) else y)) ∧
        (c.panelFastAxis = .row →
          y' = (if y = r1 then r0 else y + 1) ∧ x' = (if y = r1 then (if x = c1 then c0 else x + 1) else x)))

/-- P1 of 95_test_vectors.md for every configuration, from R164, R78, R80 to R87, R182, R183: after INIT the panel is defined,
configured and ready, and every pixel holds the clear byte twice, but for the last pixel of an odd screen, which holds `X`. -/
def Obligations.InitLeavesAClearedScreen : Prop :=
  ∀ s : State, BlockInv s → s.fault = false →
    (s.cfg.panelCsActive = none ∨ s.cfg.panelCsActive = some s.cfg.csIdleLevel) →
    ∃ t, exec .init s = .next t ∧ PanelReady t.cfg t.pins.cs t.panel ∧ t.panel.mode = .memWrite ∧
      ∀ x y, onScreen s.cfg x y → screen t x y =
        if scanIndex s.cfg x y < 2 * (s.cfg.screenW * s.cfg.screenH / 2) then .is (s.cfg.initClearByte ++ s.cfg.initClearByte)
        else .x

/-- R182, R183: a fast clear of a ready panel colours every pixel `{b, b}`, but for the last pixel in scan order of an odd
screen, which keeps its value. -/
def Obligations.ClrPaintsTheScreen : Prop :=
  ∀ (a : Byte) (s : State), Running s → BlockInv s → PanelReady s.cfg s.pins.cs s.panel →
    ∃ t, exec (.clr a) s = .next t ∧ PanelReady t.cfg t.pins.cs t.panel ∧
      ∀ x y, onScreen s.cfg x y → screen t x y =
        if scanIndex s.cfg x y < 2 * (s.cfg.screenW * s.cfg.screenH / 2) then .is (a ++ a) else screen s x y

/-- R276: a second CLR with the same byte sends its whole burst again and leaves screen and cursor as the first did. -/
def Obligations.ClrTwiceIsClrOnce : Prop :=
  ∀ (a : Byte) (s : State), Running s → BlockInv s → PanelReady s.cfg s.pins.cs s.panel →
    ∃ t u evs, exec (.clr a) s = .next t ∧ exec (.clr a) t = .next u ∧ u.trace = t.trace ++ evs ∧
      (transactions t.pins evs).length = 11 + 4 * (s.cfg.screenW * s.cfg.screenH / 2) ∧
      u.col = t.col ∧ u.row = t.row ∧ u.panel.undef = false ∧ ∀ x y, onScreen s.cfg x y → screen u x y = screen t x y

/-- R168, R170: RECT on a ready panel, inside the screen, fills its rectangle with the colour and leaves every other pixel,
under either scan order. -/
def Obligations.RectFillsItsRectangle : Prop :=
  ∀ (col row width height color : Half) (s : State), Running s → BlockInv s → PanelReady s.cfg s.pins.cs s.panel →
    0 < width.toInt → 0 < height.toInt → col.toNat + width.toNat ≤ s.cfg.screenW → row.toNat + height.toNat ≤ s.cfg.screenH →
    ∃ t, exec (.rect col row width height color) s = .next t ∧ PanelReady t.cfg t.pins.cs t.panel ∧
      ∀ x y, onScreen s.cfg x y →
        (inRect col.toNat row.toNat width.toNat height.toNat x y → screen t x y = .is color) ∧
        (¬inRect col.toNat row.toNat width.toNat height.toNat x y → screen t x y = screen s x y)

/-- R170, R203, R84: a window that leaves the screen makes the panel undefined at its first pixel; the block goes on. -/
def Obligations.OffScreenRectUndefinesThePanel : Prop :=
  ∀ (col row width height color : Half) (s : State), Running s → BlockInv s → PanelReady s.cfg s.pins.cs s.panel →
    0 ≤ col.toInt → 0 ≤ row.toInt → 0 < width.toInt → 0 < height.toInt →
    (s.cfg.screenW < col.toNat + width.toNat ∨ s.cfg.screenH < row.toNat + height.toNat) →
    ∃ t, exec (.rect col row width height color) s = .next t ∧ t.fault = false ∧ t.panel.undef = true ∧
      t.panel.gram = s.panel.gram

/-- R170, R203, R193: on a ready panel a character whose cell lies on the screen puts colour `k` of its stream where the panel's
scan order puts it, and leaves every pixel outside the cell. -/
def Obligations.ChrLandsInItsCell : Prop :=
  ∀ (a : Byte) (s : State), Running s → BlockInv s → PanelReady s.cfg s.pins.cs s.panel → 0x20 ≤ a.toNat → a.toNat ≤ 0x7F →
    let n := s.size.toNat
    s.col.toInt + 6 * n ≤ s.cfg.wrapLimit → s.col.toNat + 6 * n ≤ s.cfg.screenW → s.row.toNat + 8 * n ≤ s.cfg.screenH →
    ∃ t, exec (.chr a) s = .next t ∧ PanelReady t.cfg t.pins.cs t.panel ∧
      (∀ k, k < 48 * n * n → let q := placeOf s.cfg s.col.toNat s.row.toNat (6 * n) (8 * n) k
        screen t q.1 q.2 = .is (glyphPixel s.cfg a n s.fg s.bg k)) ∧
      (∀ x y, onScreen s.cfg x y → ¬inRect s.col.toNat s.row.toNat (6 * n) (8 * n) x y → screen t x y = screen s x y)

/-- R203: under the row-first scan order the character stands upright: glyph column `c`, row `r`, each repeated `size` times
both ways, the spacer to its right. -/
def Obligations.ChrIsUprightUnderRowOrder : Prop :=
  ∀ (a : Byte) (s : State), Running s → BlockInv s → PanelReady s.cfg s.pins.cs s.panel → s.cfg.panelFastAxis = .row →
    0x20 ≤ a.toNat → a.toNat ≤ 0x7F →
    let n := s.size.toNat
    s.col.toInt + 6 * n ≤ s.cfg.wrapLimit → s.col.toNat + 6 * n ≤ s.cfg.screenW → s.row.toNat + 8 * n ≤ s.cfg.screenH →
    ∃ t, exec (.chr a) s = .next t ∧ ∀ c hr r vr, c < 6 → hr < n → r < 8 → vr < n →
      screen t (BitVec.ofNat 16 (s.col.toNat + c * n + hr)) (BitVec.ofNat 16 (s.row.toNat + r * n + vr)) =
        .is (if glyphBit s.cfg a c r then s.fg else s.bg)

/-! ### Frames and whole-machine rules -/

/-- Frame of frame memory: commands that store no pixel leave all of it, whatever the panel's state. -/
def Obligations.NoPixelIsStoredBy : Prop :=
  ∀ (i : Instr) (s t : State), BlockInv s → exec i s = .next t →
    i.mnemonic ∈ [Mnemonic.selc, .seld, .rdb, .cmd, .win, .nl, .siz, .fgc, .bgc] →
    ∀ x y, t.panel.gram.read (pixelKey x y) = s.panel.gram.read (pixelKey x y)

/-- Frame of frame memory: one byte written by WRB or DAT stores at most the pixel at the panel's write pointer. -/
def Obligations.OneByteStoresAtThePointer : Prop :=
  ∀ (i : Instr) (s t : State), BlockInv s → exec i s = .next t → i.mnemonic ∈ [Mnemonic.wrb, .dat] →
    ∀ x y, ¬(s.panel.x = .is x ∧ s.panel.y = .is y) → t.panel.gram.read (pixelKey x y) = s.panel.gram.read (pixelKey x y)

/-- Frame of frame memory: RECT, ERA and CHR store only inside their window, whatever the panel's state. -/
def Obligations.WindowedCommandsStoreInTheirWindow : Prop :=
  ∀ s : State, Running s → BlockInv s →
    (∀ col row width height color t, exec (.rect col row width height color) s = .next t →
      ∀ x y, ¬inRect col.toNat row.toNat width.toNat height.toNat x y →
        t.panel.gram.read (pixelKey x y) = s.panel.gram.read (pixelKey x y)) ∧
    (∀ a t, exec (.era a) s = .next t →
      ∀ x y, ¬inRect s.col.toNat s.row.toNat (6 * s.size.toNat * a.toNat) (8 * s.size.toNat) x y →
        t.panel.gram.read (pixelKey x y) = s.panel.gram.read (pixelKey x y)) ∧
    (∀ a t, exec (.chr a) s = .next t →
      let q := cellAt s.cfg s.size.toNat (s.col.toInt, s.row.toInt)
      ∀ x y, ¬inRect q.1.toNat q.2.toNat (6 * s.size.toNat) (8 * s.size.toNat) x y →
        t.panel.gram.read (pixelKey x y) = s.panel.gram.read (pixelKey x y))

/-- The write columns of R37, for every state: which commands can change which field; the configuration and the pending
bytes never change under a command, and `cp` always advances by one (R112, R121). -/
def Obligations.OnlyTheseCommandsWrite : Prop :=
  ∀ (i : Instr) (s t : State), exec i s = .next t →
    let m := i.mnemonic
    let writers := [Mnemonic.init, .cmd, .dat, .win, .rect, .clr, .chr, .str, .int, .era]
    t.cfg = s.cfg ∧ t.cmdIn = s.cmdIn ∧ t.cp = s.cp + 1 ∧
    (m ∉ [Mnemonic.init, .clr, .chr, .str, .int, .nl] → t.col = s.col ∧ t.row = s.row) ∧
    (m ≠ .siz → t.size = s.size) ∧ (m ≠ .fgc → t.fg = s.fg) ∧ (m ≠ .bgc → t.bg = s.bg) ∧
    (m ∉ .selc :: .seld :: .rdb :: writers → t.pins.rs = s.pins.rs) ∧
    (m ∉ .wrb :: writers → t.pins.wr = s.pins.wr ∧ t.pins.dout = s.pins.dout) ∧
    (m ∉ [Mnemonic.rdb, .init] → t.pins.rd = s.pins.rd ∧ t.pins.ddir = s.pins.ddir) ∧
    (m ≠ .init → t.pins.rst = s.pins.rst ∧ t.pins.cs = s.pins.cs ∧ t.pins.ctlOut = s.pins.ctlOut ∧ t.ready = s.ready) ∧
    (m ≠ .rdb → t.respOut = s.respOut ∧ t.samples = s.samples)

/-- R235: a fault of any command but STR and INT comes before every effect; a fault of STR comes after the whole of the
characters before the faulting one and before any effect of it. -/
def Obligations.FaultsArePrecise : Prop :=
  (∀ (i : Instr) (s t : State), s.fault = false → exec i s = .next t → t.fault = true →
    i.mnemonic ≠ .str → i.mnemonic ≠ .int →
    ∃ code info, t = faulted s code info ∧ 1 ≤ code.toNat ∧ code.toNat ≤ 6) ∧
  (∀ (syms : List Byte) (s t : State), Running s → exec (.str syms) s = .next t → t.fault = true →
    ∃ j u code info, j < syms.length ∧ exec (.str (syms.take j)) s = .next u ∧ u.fault = false ∧
      t = { u with fault := true, fcause := code, finfo := info })

/-- The three invariants below hold at power-up, `State.reset` among them, for every configuration of R8, and after a hardware
reset from any state; there the panel keeps its contents (R238) and is undefined (R261), read together in log 13, so its
invariant holds if it held before. So too after a reset in the middle of a command (R260): the panel has then taken the first `k`
events the abandoned command's step would have added to the trace. The state meets what `InitLeavesAClearedScreen` asks. -/
def Obligations.InvariantsHoldAtReset : Prop :=
  State.reset.cfg.wf = true ∧ State.reset = State.resetOf State.reset.cfg ∧
  (∀ c : Cfg, c.wf = true →
    BlockInv (State.resetOf c) ∧ TraceExplains Panel.powerUp (State.resetOf c) ∧ PanelInv c (State.resetOf c).panel) ∧
  ∀ s : State, s.cfg.wf = true →
    BlockInv (hardwareReset s) ∧ TraceExplains (hardwareReset s).panel (hardwareReset s) ∧
    (hardwareReset s).panel = { s.panel with undef := true } ∧
    (PanelInv s.cfg s.panel → PanelInv s.cfg (hardwareReset s).panel) ∧
    (∀ t, step s = .next t → t.trace = s.trace ++ stepEvents s) ∧
    hardwareResetDuring 0 s = hardwareReset s ∧
    ∀ k : Nat,
      let evs := (stepEvents s).take k
      let r := hardwareResetDuring k s
      r = { hardwareReset s with
        panel := { panelAfter s.cfg s.pins s.panel evs with undef := true }
        samples := s.samples + evs.countP PinEvent.isSample } ∧
      r.fault = false ∧ BlockInv r ∧ TraceExplains r.panel r ∧ (PanelInv s.cfg s.panel → PanelInv s.cfg r.panel)

/-- R22, R36, R148 and the causes of R231: every step keeps the invariant of the block. -/
def Obligations.StepKeepsBlockInv : Prop := ∀ s t : State, BlockInv s → step s = .next t → BlockInv t

/-- R10, R74, R77, R122: every step keeps the trace in agreement with the pins, the panel and the responses, whatever panel
`P` the last hardware reset left. -/
def Obligations.StepKeepsTraceExplains : Prop :=
  ∀ (P : Panel) (s t : State), TraceExplains P s → step s = .next t → TraceExplains P t ∧ s.trace <+: t.trace

/-- R76, R83 to R85: every step keeps the panel's invariant, whatever the command and the panel's state. -/
def Obligations.StepKeepsPanelInv : Prop :=
  ∀ s t : State, s.cfg.wf = true → PanelInv s.cfg s.panel → step s = .next t → PanelInv t.cfg t.panel
end

