-- ==== Sys2Proof/Laws/State.lean ====
section
/-! SUPPORT. One lemma per field per named update of State, true by unfolding, so that no proof unfolds a record update. -/

namespace Sys2Proof.Machine

variable (s : State)

/-! `State.emits` moves the pins, the trace and the panel, and nothing else. -/

@[simp] theorem State.emits_cfg (evs : List PinEvent) : (s.emits evs).cfg = s.cfg := rfl
@[simp] theorem State.emits_col (evs : List PinEvent) : (s.emits evs).col = s.col := rfl
@[simp] theorem State.emits_row (evs : List PinEvent) : (s.emits evs).row = s.row := rfl
@[simp] theorem State.emits_size (evs : List PinEvent) : (s.emits evs).size = s.size := rfl
@[simp] theorem State.emits_fg (evs : List PinEvent) : (s.emits evs).fg = s.fg := rfl
@[simp] theorem State.emits_bg (evs : List PinEvent) : (s.emits evs).bg = s.bg := rfl
@[simp] theorem State.emits_pins (evs : List PinEvent) : (s.emits evs).pins = pinsAfter s.pins evs := rfl
@[simp] theorem State.emits_ready (evs : List PinEvent) : (s.emits evs).ready = s.ready := rfl
@[simp] theorem State.emits_fault (evs : List PinEvent) : (s.emits evs).fault = s.fault := rfl
@[simp] theorem State.emits_fcause (evs : List PinEvent) : (s.emits evs).fcause = s.fcause := rfl
@[simp] theorem State.emits_finfo (evs : List PinEvent) : (s.emits evs).finfo = s.finfo := rfl
@[simp] theorem State.emits_cp (evs : List PinEvent) : (s.emits evs).cp = s.cp := rfl
@[simp] theorem State.emits_cmdIn (evs : List PinEvent) : (s.emits evs).cmdIn = s.cmdIn := rfl
@[simp] theorem State.emits_respOut (evs : List PinEvent) : (s.emits evs).respOut = s.respOut := rfl
@[simp] theorem State.emits_samples (evs : List PinEvent) : (s.emits evs).samples = s.samples := rfl
@[simp] theorem State.emits_history (evs : List PinEvent) : (s.emits evs).history = evs.reverse ++ s.history := rfl
@[simp] theorem State.emits_panel (evs : List PinEvent) : (s.emits evs).panel = panelAfter s.cfg s.pins s.panel evs := rfl

/-! `State.setCursor` writes the cursor, and nothing else. -/

@[simp] theorem State.setCursor_cfg (c r : Half) : (s.setCursor c r).cfg = s.cfg := rfl
@[simp] theorem State.setCursor_col (c r : Half) : (s.setCursor c r).col = c := rfl
@[simp] theorem State.setCursor_row (c r : Half) : (s.setCursor c r).row = r := rfl
@[simp] theorem State.setCursor_size (c r : Half) : (s.setCursor c r).size = s.size := rfl
@[simp] theorem State.setCursor_fg (c r : Half) : (s.setCursor c r).fg = s.fg := rfl
@[simp] theorem State.setCursor_bg (c r : Half) : (s.setCursor c r).bg = s.bg := rfl
@[simp] theorem State.setCursor_pins (c r : Half) : (s.setCursor c r).pins = s.pins := rfl
@[simp] theorem State.setCursor_ready (c r : Half) : (s.setCursor c r).ready = s.ready := rfl
@[simp] theorem State.setCursor_fault (c r : Half) : (s.setCursor c r).fault = s.fault := rfl
@[simp] theorem State.setCursor_fcause (c r : Half) : (s.setCursor c r).fcause = s.fcause := rfl
@[simp] theorem State.setCursor_finfo (c r : Half) : (s.setCursor c r).finfo = s.finfo := rfl
@[simp] theorem State.setCursor_cp (c r : Half) : (s.setCursor c r).cp = s.cp := rfl
@[simp] theorem State.setCursor_cmdIn (c r : Half) : (s.setCursor c r).cmdIn = s.cmdIn := rfl
@[simp] theorem State.setCursor_respOut (c r : Half) : (s.setCursor c r).respOut = s.respOut := rfl
@[simp] theorem State.setCursor_samples (c r : Half) : (s.setCursor c r).samples = s.samples := rfl
@[simp] theorem State.setCursor_history (c r : Half) : (s.setCursor c r).history = s.history := rfl
@[simp] theorem State.setCursor_panel (c r : Half) : (s.setCursor c r).panel = s.panel := rfl

/-! `State.advance` moves `cp`, and nothing else. -/

@[simp] theorem State.advance_cfg : (s.advance).cfg = s.cfg := rfl
@[simp] theorem State.advance_col : (s.advance).col = s.col := rfl
@[simp] theorem State.advance_row : (s.advance).row = s.row := rfl
@[simp] theorem State.advance_size : (s.advance).size = s.size := rfl
@[simp] theorem State.advance_fg : (s.advance).fg = s.fg := rfl
@[simp] theorem State.advance_bg : (s.advance).bg = s.bg := rfl
@[simp] theorem State.advance_pins : (s.advance).pins = s.pins := rfl
@[simp] theorem State.advance_ready : (s.advance).ready = s.ready := rfl
@[simp] theorem State.advance_fault : (s.advance).fault = s.fault := rfl
@[simp] theorem State.advance_fcause : (s.advance).fcause = s.fcause := rfl
@[simp] theorem State.advance_finfo : (s.advance).finfo = s.finfo := rfl
@[simp] theorem State.advance_cp : (s.advance).cp = s.cp + 1 := rfl
@[simp] theorem State.advance_cmdIn : (s.advance).cmdIn = s.cmdIn := rfl
@[simp] theorem State.advance_respOut : (s.advance).respOut = s.respOut := rfl
@[simp] theorem State.advance_samples : (s.advance).samples = s.samples := rfl
@[simp] theorem State.advance_history : (s.advance).history = s.history := rfl
@[simp] theorem State.advance_panel : (s.advance).panel = s.panel := rfl

/-! `State.raise` writes the three fault fields, and nothing else (R232). -/

@[simp] theorem State.raise_cfg (k : Cause) (w : Half) : (s.raise k w).cfg = s.cfg := rfl
@[simp] theorem State.raise_col (k : Cause) (w : Half) : (s.raise k w).col = s.col := rfl
@[simp] theorem State.raise_row (k : Cause) (w : Half) : (s.raise k w).row = s.row := rfl
@[simp] theorem State.raise_size (k : Cause) (w : Half) : (s.raise k w).size = s.size := rfl
@[simp] theorem State.raise_fg (k : Cause) (w : Half) : (s.raise k w).fg = s.fg := rfl
@[simp] theorem State.raise_bg (k : Cause) (w : Half) : (s.raise k w).bg = s.bg := rfl
@[simp] theorem State.raise_pins (k : Cause) (w : Half) : (s.raise k w).pins = s.pins := rfl
@[simp] theorem State.raise_ready (k : Cause) (w : Half) : (s.raise k w).ready = s.ready := rfl
@[simp] theorem State.raise_fault (k : Cause) (w : Half) : (s.raise k w).fault = true := rfl
@[simp] theorem State.raise_fcause (k : Cause) (w : Half) : (s.raise k w).fcause = k.code := rfl
@[simp] theorem State.raise_finfo (k : Cause) (w : Half) : (s.raise k w).finfo = w := rfl
@[simp] theorem State.raise_cp (k : Cause) (w : Half) : (s.raise k w).cp = s.cp := rfl
@[simp] theorem State.raise_cmdIn (k : Cause) (w : Half) : (s.raise k w).cmdIn = s.cmdIn := rfl
@[simp] theorem State.raise_respOut (k : Cause) (w : Half) : (s.raise k w).respOut = s.respOut := rfl
@[simp] theorem State.raise_samples (k : Cause) (w : Half) : (s.raise k w).samples = s.samples := rfl
@[simp] theorem State.raise_history (k : Cause) (w : Half) : (s.raise k w).history = s.history := rfl
@[simp] theorem State.raise_panel (k : Cause) (w : Half) : (s.raise k w).panel = s.panel := rfl

/-! `State.respond` puts one byte on the response port and one event on the trace; the wires and the panel do not see it. -/

@[simp] theorem State.respond_cfg (v : Byte) : (s.respond v).cfg = s.cfg := rfl
@[simp] theorem State.respond_col (v : Byte) : (s.respond v).col = s.col := rfl
@[simp] theorem State.respond_row (v : Byte) : (s.respond v).row = s.row := rfl
@[simp] theorem State.respond_size (v : Byte) : (s.respond v).size = s.size := rfl
@[simp] theorem State.respond_fg (v : Byte) : (s.respond v).fg = s.fg := rfl
@[simp] theorem State.respond_bg (v : Byte) : (s.respond v).bg = s.bg := rfl
@[simp] theorem State.respond_pins (v : Byte) : (s.respond v).pins = s.pins := rfl
@[simp] theorem State.respond_ready (v : Byte) : (s.respond v).ready = s.ready := rfl
@[simp] theorem State.respond_fault (v : Byte) : (s.respond v).fault = s.fault := rfl
@[simp] theorem State.respond_fcause (v : Byte) : (s.respond v).fcause = s.fcause := rfl
@[simp] theorem State.respond_finfo (v : Byte) : (s.respond v).finfo = s.finfo := rfl
@[simp] theorem State.respond_cp (v : Byte) : (s.respond v).cp = s.cp := rfl
@[simp] theorem State.respond_cmdIn (v : Byte) : (s.respond v).cmdIn = s.cmdIn := rfl
@[simp] theorem State.respond_respOut (v : Byte) : (s.respond v).respOut = s.respOut ++ [v] := rfl
@[simp] theorem State.respond_samples (v : Byte) : (s.respond v).samples = s.samples := rfl
@[simp] theorem State.respond_history (v : Byte) : (s.respond v).history = .respond v :: s.history := rfl
@[simp] theorem State.respond_panel (v : Byte) : (s.respond v).panel = s.panel := rfl

@[simp] theorem State.emits_trace (evs : List PinEvent) : (s.emits evs).trace = s.trace ++ evs := by
  simp [State.trace]

@[simp] theorem State.emits_nil : s.emits [] = s := rfl

/-! `hardwareReset` sets every field of the block and keeps the panel's contents (R35, R238). -/

@[simp] theorem hardwareReset_cfg : (hardwareReset s).cfg = s.cfg := rfl
@[simp] theorem hardwareReset_col : (hardwareReset s).col = BitVec.ofNat 16 s.cfg.gap := rfl
@[simp] theorem hardwareReset_row : (hardwareReset s).row = Config.cursorRow0 := rfl
@[simp] theorem hardwareReset_size : (hardwareReset s).size = s.cfg.sizeReset := rfl
@[simp] theorem hardwareReset_fg : (hardwareReset s).fg = s.cfg.fgReset := rfl
@[simp] theorem hardwareReset_bg : (hardwareReset s).bg = s.cfg.bgReset := rfl
@[simp] theorem hardwareReset_pins : (hardwareReset s).pins = Pins.unset := rfl
@[simp] theorem hardwareReset_ready : (hardwareReset s).ready = false := rfl
@[simp] theorem hardwareReset_fault : (hardwareReset s).fault = false := rfl
@[simp] theorem hardwareReset_fcause : (hardwareReset s).fcause = 0 := rfl
@[simp] theorem hardwareReset_finfo : (hardwareReset s).finfo = 0 := rfl
@[simp] theorem hardwareReset_cp : (hardwareReset s).cp = 0 := rfl
@[simp] theorem hardwareReset_cmdIn : (hardwareReset s).cmdIn = [] := rfl
@[simp] theorem hardwareReset_respOut : (hardwareReset s).respOut = [] := rfl
@[simp] theorem hardwareReset_samples : (hardwareReset s).samples = s.samples := rfl
@[simp] theorem hardwareReset_history : (hardwareReset s).history = [] := rfl
@[simp] theorem hardwareReset_trace : (hardwareReset s).trace = [] := rfl
@[simp] theorem hardwareReset_panel : (hardwareReset s).panel = s.panel.afterHardwareReset := rfl

/-! `hardwareResetAfter` differs from `hardwareReset` in the panel and the counter only (R260). -/

theorem hardwareResetAfter_eq (evs : List PinEvent) : hardwareResetAfter evs s =
    { hardwareReset s with
      panel := (panelAfter s.cfg s.pins s.panel evs).afterHardwareReset
      samples := s.samples + evs.countP PinEvent.isSample } := rfl

@[simp] theorem hardwareResetAfter_nil : hardwareResetAfter [] s = hardwareReset s := rfl

/-- A panel at a hardware reset of the block: only `undef` changes. -/
theorem Panel.afterHardwareReset_eq (P : Panel) : P.afterHardwareReset = { P with undef := true } := rfl

/-- The latches and the panel follow a list of events one by one. -/
theorem pinsAfter_append (p : Pins) (a b : List PinEvent) : pinsAfter p (a ++ b) = pinsAfter (pinsAfter p a) b :=
  List.foldl_append

theorem panelAfter_append (c : Cfg) (p : Pins) (P : Panel) (a b : List PinEvent) :
    panelAfter c p P (a ++ b) = panelAfter c (pinsAfter p a) (panelAfter c p P a) b := by
  induction a generalizing p P with
  | nil => rfl
  | cons e a ih => exact ih (p.apply e) (P.follow c p e)

theorem State.emits_append (a b : List PinEvent) : s.emits (a ++ b) = (s.emits a).emits b := by
  simp [State.emits, pinsAfter_append, panelAfter_append]

end Sys2Proof.Machine
end

