-- ==== Sys2Proof/Laws/Bus.lean ====
section
/-! SUPPORT. What the helper procedures put on the bus: for each, its items, and the levels it leaves (rules R140 to R143, R160
to R163, R180), composed once through `Sends`. -/

namespace Sys2Proof.Machine

theorem transactions_append (p : Pins) (a b : List PinEvent) :
    transactions p (a ++ b) = transactions p a ++ transactions (pinsAfter p a) b := by
  induction a generalizing p with
  | nil => rfl
  | cons e a ih => simp [transactions, ih, pinsAfter]

/-- Away from chip-select events the panel takes the items of the trace at one chip-select level. -/
theorem panelAfter_eq_foldl (c : Cfg) {evs : List PinEvent} (h : ∀ l, PinEvent.set .cs l ∉ evs) (p : Pins) (P : Panel) :
    panelAfter c p P evs = (transactions p evs).foldl (Panel.accept c p.cs) P := by
  induction evs generalizing p P with
  | nil => rfl
  | cons e evs ih =>
    have hcs : (p.apply e).cs = p.cs := by
      cases e with
      | set line l =>
        cases line with
        | cs => exact absurd (List.mem_cons_self ..) (h l)
        | _ => rfl
      | _ => rfl
    simp only [panelAfter, transactions, List.foldl_append, ih (fun l hl => h l (List.mem_cons_of_mem _ hl)), hcs, Panel.follow]
    cases transactionOf p e <;> rfl

/-- The pins after writes that leave RS at `rs` and `d` in the data latch. -/
def Pins.sent (p : Pins) (rs : Level) (d : Byte) : Pins := { p with rs := .is rs, dout := .is d, wr := .is .high }

/-- `evs` are writes: on an output bus they produce `items` and leave RS at `rs`, `d` in the data latch and WR high, and they
move no other line. -/
structure Sends (evs : List PinEvent) (items : List Transaction) (rs : Level) (d : Byte) : Prop where
  items : ∀ p : Pins, p.ddir = .is .out → transactions p evs = items
  pins : ∀ p : Pins, p.ddir = .is .out → pinsAfter p evs = p.sent rs d
  noCs : ∀ l, PinEvent.set .cs l ∉ evs

theorem Sends.append {a b : List PinEvent} {i j : List Transaction} {r r' : Level} {d d' : Byte}
    (ha : Sends a i r d) (hb : Sends b j r' d') : Sends (a ++ b) (i ++ j) r' d' where
  items p hp := by rw [transactions_append, ha.items p hp, ha.pins p hp, hb.items (p.sent r d) hp]
  pins p hp := by rw [pinsAfter_append, ha.pins p hp, hb.pins (p.sent r d) hp]; rfl
  noCs l := by simp [ha.noCs l, hb.noCs l]

theorem Sends.congr {a : List PinEvent} {i j : List Transaction} {r : Level} {d d' : Byte}
    (h : Sends a i r d) (hi : i = j) (hd : d = d') : Sends a j r d' := by
  subst hi hd; exact h

theorem sends_writeCommand (c : Byte) : Sends (writeCommand c) [.cmd c] .low c where
  items p hp := by simp [writeCommand, selectCommandRegister, writeByte, transactions, transactionOf, Pins.apply, hp]
  pins p _ := rfl
  noCs l := by simp [writeCommand, selectCommandRegister, writeByte]

theorem sends_writeData (d : Byte) : Sends (writeData d) [.dat d] .high d where
  items p hp := by simp [writeData, selectDataRegister, writeByte, transactions, transactionOf, Pins.apply, hp]
  pins p _ := rfl
  noCs l := by simp [writeData, selectDataRegister, writeByte]

theorem hi8_eq (v : Half) : hi8 v = BitVec.ofNat 8 (v.toNat / 256) := by
  apply BitVec.eq_of_toNat_eq
  simp [hi8, BitVec.extractLsb'_toNat, Nat.shiftRight_eq_div_pow]

theorem lo8_eq (v : Half) : lo8 v = BitVec.ofNat 8 v.toNat := by
  apply BitVec.eq_of_toNat_eq
  simp [lo8, BitVec.extractLsb'_toNat]

theorem u16Of_natCast (n : Nat) : u16Of (n : Int) = BitVec.ofNat 16 n := by
  simp [u16Of]

theorem hi8_ofNat (n : Nat) : hi8 (BitVec.ofNat 16 n) = BitVec.ofNat 8 (n / 256) := by
  rw [hi8_eq]
  apply BitVec.eq_of_toNat_eq
  simp only [BitVec.toNat_ofNat]
  omega

theorem lo8_ofNat (n : Nat) : lo8 (BitVec.ofNat 16 n) = BitVec.ofNat 8 n := by
  rw [lo8_eq]
  apply BitVec.eq_of_toNat_eq
  simp only [BitVec.toNat_ofNat]
  omega

theorem cat16_hi8_lo8 (v : Half) : cat16 (hi8 v) (lo8 v) = v := by
  apply BitVec.eq_of_toNat_eq
  have := v.isLt
  simp only [cat16, hi8_eq, lo8_eq, BitVec.toNat_append, BitVec.toNat_ofNat, Nat.shiftLeft_eq]
  rw [← Nat.shiftLeft_eq, ← Nat.shiftLeft_add_eq_or_of_lt (by omega), Nat.shiftLeft_eq]
  omega

theorem sends_wordItems (v : Half) :
    Sends (writeData (hi8 v) ++ writeData (lo8 v)) (wordItems v.toNat) .high (lo8 v) :=
  ((sends_writeData _).append (sends_writeData _)).congr (by simp [wordItems, hi8_eq, lo8_eq]) rfl

theorem sends_pushColor (v : Half) : Sends (pushColor v) (wordItems v.toNat) .high (lo8 v) := sends_wordItems v

/-- A stream of at least one colour; the last one stays in the data latch. -/
theorem sends_pushColors (ps : List Half) (v : Half) :
    Sends (pushColors (ps ++ [v])) (colorItems (ps ++ [v])) .high (lo8 v) := by
  induction ps with
  | nil => simpa [pushColors, colorItems] using sends_pushColor v
  | cons q ps ih => simpa [pushColors, colorItems] using (sends_pushColor q).append ih

theorem sends_pushColors_replicate {n : Nat} (hn : n ≠ 0) (v : Half) :
    Sends (pushColors (List.replicate n v)) (colorItems (List.replicate n v)) .high (lo8 v) := by
  obtain ⟨m, rfl⟩ := Nat.exists_eq_succ_of_ne_zero hn
  rw [List.replicate_succ']
  exact sends_pushColors _ v

theorem sends_addressRange (op : Byte) (a b : Half) :
    Sends (addressRange op a b) ([.cmd op] ++ wordItems a.toNat ++ wordItems b.toNat) .high (lo8 b) := by
  have h := ((sends_writeCommand op).append (sends_wordItems a)).append (sends_wordItems b)
  simpa [addressRange, List.append_assoc] using h

theorem wordItems_mod (n : Nat) : wordItems (BitVec.ofNat 16 n).toNat = wordItems n := by
  simp only [wordItems, ← hi8_eq, ← lo8_eq, hi8_ofNat, lo8_ofNat]

/-- `setWindow` on natural-number arguments (R163). -/
theorem sends_setWindow (c : Cfg) (col row w h : Nat) (hw : w ≠ 0) (hh : h ≠ 0) :
    Sends (setWindow c col row w h) (windowItems c col (col + w - 1) row (row + h - 1)) .low c.opRamwr := by
  have e1 : u16Of ((col : Int) + w - 1) = BitVec.ofNat 16 (col + w - 1) := by
    rw [← u16Of_natCast]; congr 1; omega
  have e2 : u16Of ((row : Int) + h - 1) = BitVec.ofNat 16 (row + h - 1) := by
    rw [← u16Of_natCast]; congr 1; omega
  have h1 := ((sends_addressRange c.opCaset (u16Of (col : Int)) (u16Of ((col : Int) + w - 1))).append
    (sends_addressRange c.opPaset (u16Of (row : Int)) (u16Of ((row : Int) + h - 1)))).append (sends_writeCommand c.opRamwr)
  refine h1.congr ?_ rfl
  simp only [e1, e2, u16Of_natCast, wordItems_mod, windowItems, List.append_assoc]

/-- One burst iteration: four strobes commit the byte in the data latch four times (R180). -/
theorem transactions_fourStrobes (p : Pins) (b : Byte) (hd : p.ddir = .is .out) (hr : p.rs = .is .high) (hb : p.dout = .is b) :
    transactions p fourStrobes = List.replicate 4 (.dat b) := by
  simp [fourStrobes, transactions, transactionOf, Pins.apply, hd, hr, hb, List.replicate]

theorem burst_spec (p : Pins) (b : Byte) (n : Nat) (hd : p.ddir = .is .out) (hr : p.rs = .is .high) (hb : p.dout = .is b)
    (hw : p.wr = .is .high) :
    transactions p (List.replicate n fourStrobes).flatten = List.replicate (4 * n) (.dat b) ∧
      pinsAfter p (List.replicate n fourStrobes).flatten = p := by
  have hp : pinsAfter p fourStrobes = p := by
    obtain ⟨a1, a2, a3, a4, a5, a6, a7, a8⟩ := p
    simp_all [fourStrobes, pinsAfter, Pins.apply]
  induction n with
  | zero => simp [transactions, pinsAfter]
  | succ n ih =>
    rw [List.replicate_succ, List.flatten_cons, transactions_append, pinsAfter_append, hp, ih.1, ih.2,
      transactions_fourStrobes p b hd hr hb, List.replicate_append_replicate]
    exact ⟨by congr 1; omega, rfl⟩

/-- `fastClear`'s events (R180): the full-screen window, then `4 * (N div 2)` data bytes. -/
theorem sends_fastClear (c : Cfg) (hc : c.screenW ≠ 0) (hr : c.screenH ≠ 0) (b : Byte) :
    Sends (fastClearEvents c b)
      (windowItems c 0 (c.screenW - 1) 0 (c.screenH - 1) ++ List.replicate (4 * (c.screenW * c.screenH / 2)) (.dat b)) .high b := by
  have hw := sends_setWindow c 0 0 c.screenW c.screenH hc hr
  simp only [Nat.zero_add, Nat.cast_zero] at hw
  have hs : ∀ p : Pins, p.ddir = .is .out → transactions p (selectDataRegister ++ [.drive b]) = [] ∧
      pinsAfter p (selectDataRegister ++ [.drive b]) = { p with rs := .is .high, dout := .is b } := fun p _ => by
    simp [selectDataRegister, transactions, transactionOf, pinsAfter, Pins.apply]
  refine ⟨fun p hp => ?_, fun p hp => ?_, fun l => ?_⟩
  · simp only [fastClearEvents, List.append_assoc]
    rw [transactions_append, hw.items p hp, hw.pins p hp, ← List.append_assoc selectDataRegister, transactions_append,
      (hs (p.sent .low c.opRamwr) hp).1, (hs (p.sent .low c.opRamwr) hp).2, List.nil_append,
      (burst_spec _ b _ (by exact hp) rfl rfl rfl).1]
  · simp only [fastClearEvents, List.append_assoc]
    rw [pinsAfter_append, hw.pins p hp, ← List.append_assoc selectDataRegister, pinsAfter_append,
      (hs (p.sent .low c.opRamwr) hp).2, (burst_spec _ b _ (by exact hp) rfl rfl rfl).2]
    rfl
  · have := hw.noCs l
    simp [fastClearEvents, this, selectDataRegister, fourStrobes, List.mem_flatten, List.mem_replicate]

/-- The state after writes, when the write strobe stands high. -/
theorem State.emits_of_sends {s : State} {evs : List PinEvent} {items : List Transaction} {rs : Level} {d : Byte}
    (h : Sends evs items rs d) (hd : s.pins.ddir = .is .out) (hw : s.pins.wr = .is .high) :
    (s.emits evs).advance = driven s evs items rs d := by
  have hp := h.pins s.pins hd
  have hP := panelAfter_eq_foldl s.cfg h.noCs s.pins s.panel
  rw [h.items s.pins hd] at hP
  simp only [State.emits, State.advance, driven, hp, hP, Pins.sent, ← hw]

end Sys2Proof.Machine
end

