-- ==== Sys2Proof/Laws/Memory.lean ====
section
/-! SUPPORT. The laws of frame memory: read after write, and the canonical form every operation keeps. -/

namespace Sys2Proof.Machine

@[simp] theorem Memory.read_nil (a : Nat) : Memory.read [] a = .x := rfl

theorem Memory.read_write (m : Memory) (a b : Nat) (v : Half) :
    (Memory.write m a v).read b = if b = a then .is v else Memory.read m b := by
  induction m with
  | nil => rfl
  | cons q m ih =>
    obtain ⟨k, u⟩ := q
    simp only [Memory.write]
    split
    · rfl
    · split
      · subst_vars
        simp only [Memory.read]
        split <;> rfl
      · simp only [Memory.read, ih]
        split_ifs <;> first | rfl | omega

@[simp] theorem Memory.read_write_same (m : Memory) (a : Nat) (v : Half) : (Memory.write m a v).read a = .is v := by
  simp [Memory.read_write]

theorem Memory.read_write_other (m : Memory) {a b : Nat} (v : Half) (h : b ≠ a) :
    (Memory.write m a v).read b = Memory.read m b := by
  simp [Memory.read_write, h]

@[simp] theorem Memory.wf_nil : Memory.wf [] = true := rfl

theorem Memory.wf_cons (p : Nat × Half) (m : Memory) :
    Memory.wf (p :: m) = true ↔ (∀ q ∈ m.head?, p.1 < q.1) ∧ Memory.wf m = true := by
  cases m <;> simp [Memory.wf]

/-- A write keeps the canonical form. -/
theorem Memory.write_wf {m : Memory} (a : Nat) (v : Half) (h : m.wf = true) : (Memory.write m a v).wf = true := by
  induction m with
  | nil => rfl
  | cons q m ih =>
    obtain ⟨hlt, hm⟩ := (Memory.wf_cons q m).1 h
    simp only [Memory.write]
    split
    · exact (Memory.wf_cons _ _).2 ⟨by simpa using ‹a < q.1›, h⟩
    · split
      · exact (Memory.wf_cons _ _).2 ⟨by subst_vars; exact hlt, hm⟩
      · refine (Memory.wf_cons _ _).2 ⟨?_, ih hm⟩
        cases m with
        | nil => simp [Memory.write]; omega
        | cons r m =>
          have hr : q.1 < r.1 := hlt r (by simp)
          simp only [Memory.write]
          split_ifs <;> simp <;> omega

/-- Two pixels share a key only if they are one pixel. -/
theorem pixelKey_inj {x y x' y' : Half} : pixelKey x y = pixelKey x' y' ↔ x = x' ∧ y = y' := by
  constructor
  · intro h
    have := x.isLt; have := x'.isLt; have := y.isLt; have := y'.isLt
    simp only [pixelKey] at h
    exact ⟨BitVec.eq_of_toNat_eq (by omega), BitVec.eq_of_toNat_eq (by omega)⟩
  · rintro ⟨rfl, rfl⟩
    rfl

end Sys2Proof.Machine
end

