-- ==== Sys2Proof/Laws/Panel.lean ====
section
/-! SUPPORT. The reference panel under a window and a stream (20_memory.md rules R80 to R85): the state a window arms, where
colour number `k` lands, and what the frame memory reads afterwards. -/

namespace Sys2Proof.Machine

/-- R8: the three opcodes of windows and streams are pairwise distinct. -/
theorem Cfg.wf_opcodes {c : Cfg} (h : c.wf = true) :
    c.opCaset ≠ c.opPaset ∧ c.opCaset ≠ c.opRamwr ∧ c.opPaset ≠ c.opRamwr := by
  have hn : c.panelOpcodes.Nodup := by simp only [Cfg.wf, Bool.and_eq_true, decide_eq_true_eq] at h; exact h.1.2
  simp [Cfg.panelOpcodes] at hn
  tauto

/-- R8: the screen's bounds. -/
theorem Cfg.wf_screen {c : Cfg} (h : c.wf = true) :
    1 ≤ c.screenW ∧ c.screenW ≤ 32767 ∧ 1 ≤ c.screenH ∧ c.screenH ≤ 32767 ∧ c.gap < c.screenW ∧ c.gap ≤ 32767 := by
  simp only [Cfg.wf, Bool.and_eq_true, decide_eq_true_eq] at h
  tauto

/-- Everything an opcode can do to a panel (R80, R88). -/
theorem acceptCmd_cases (c : Cfg) (P : Panel) (b : Byte) :
    P.acceptCmd c b = { P with undef := true } ∨
    P.acceptCmd c b = { P with half := none, mode := .args b [] } ∨
    (b = c.opRamwr ∧ P.acceptCmd c b = { P with
      half := none, mode := .memWrite, x := P.c0, y := P.r0, undef := P.undef || decide (P.c0 = .x ∨ P.r0 = .x) }) ∨
    (∃ i, P.acceptCmd c b = { P with half := none, cfgDone := P.cfgDone.set i true, mode := .idle }) ∨
    P.acceptCmd c b = { P with half := none, undef := true } := by
  have key : ∀ inc : Bool, ∀ Q : Panel,
      Q = (if inc then { P with undef := true }
        else if b = c.opCaset ∨ b = c.opPaset then { P with half := none, mode := .args b [] }
        else if b = c.opRamwr then
          { P with half := none, mode := .memWrite, x := P.c0, y := P.r0, undef := P.undef || decide (P.c0 = .x ∨ P.r0 = .x) }
        else match initIndex? c b with
          | some i =>
              if initData c i = [] then { P with half := none, cfgDone := P.cfgDone.set i true, mode := .idle }
              else { P with half := none, mode := .args b [] }
          | none => { P with half := none, undef := true }) →
      Q = { P with undef := true } ∨ Q = { P with half := none, mode := .args b [] } ∨
      (b = c.opRamwr ∧ Q = { P with
        half := none, mode := .memWrite, x := P.c0, y := P.r0, undef := P.undef || decide (P.c0 = .x ∨ P.r0 = .x) }) ∨
      (∃ i, Q = { P with half := none, cfgDone := P.cfgDone.set i true, mode := .idle }) ∨
      Q = { P with half := none, undef := true } := by
    rintro inc Q rfl
    split
    · exact .inl rfl
    · split
      · exact .inr (.inl rfl)
      · split
        · exact .inr (.inr (.inl ⟨‹_›, rfl⟩))
        · split
          · split
            · exact .inr (.inr (.inr (.inl ⟨_, rfl⟩)))
            · exact .inr (.inl rfl)
          · exact .inr (.inr (.inr (.inr rfl)))
  exact key _ _ rfl

/-- An argument byte changes no pixel and never starts a stream (R81, R82, R87). -/
theorem acceptArg_cases (c : Cfg) (P : Panel) (op : Byte) (got : List Byte) :
    (P.acceptArg c op got).gram = P.gram ∧ (P.acceptArg c op got).cfgDone.length = P.cfgDone.length ∧
      ((P.acceptArg c op got).mode = .idle ∨ (P.acceptArg c op got).mode = .args op got) := by
  simp only [Panel.acceptArg]
  split
  · split <;> simp
  · split
    · split <;> simp
    · split
      · split
        · simp
        · split <;> simp
      · simp

/-- The panel armed with a window: pointer at `(x, y)`, no half pixel, frame memory `g`. -/
def Panel.streaming (P : Panel) (w : Window) (x y : Half) (g : Memory) : Panel :=
  { P with
    half := none, mode := .memWrite, c0 := .is w.c0, c1 := .is w.c1, r0 := .is w.r0, r1 := .is w.r1
    x := .is x, y := .is y, gram := g }

theorem Panel.listening_congr {c : Cfg} {cs : Latch Level} {P Q : Panel} (h1 : Q.inReset = P.inReset) (h2 : Q.undef = P.undef) :
    Q.listening c cs = P.listening c cs := by
  simp [Panel.listening, h1, h2]

theorem cat16_ofNat (n : Nat) : cat16 (BitVec.ofNat 8 (n / 256)) (BitVec.ofNat 8 n) = BitVec.ofNat 16 n := by
  have h := cat16_hi8_lo8 (BitVec.ofNat 16 n)
  rwa [hi8_ofNat, lo8_ofNat] at h

/-- A ready panel takes a column address range (R80, R81). -/
theorem columns_set {c : Cfg} {cs : Latch Level} {P : Panel} (hl : P.listening c cs = true)
    (hm : P.mode = .idle ∨ P.mode = .memWrite) (a b : Nat) :
    ([Transaction.cmd c.opCaset] ++ wordItems a ++ wordItems b).foldl (Panel.accept c cs) P =
      { P with half := none, mode := .idle, c0 := .is (.ofNat 16 a), c1 := .is (.ofNat 16 b) } := by
  have h1 : P.accept c cs (.cmd c.opCaset) = { P with half := none, mode := .args c.opCaset [] } := by
    rcases hm with hm | hm <;> simp [Panel.accept, hl, Panel.acceptCmd, hm]
  have key : ∀ Q : Panel, Q.inReset = P.inReset → Q.undef = P.undef → Q.listening c cs = true := fun Q a b => by
    rw [Panel.listening_congr a b, hl]
  simp only [wordItems, List.cons_append, List.nil_append, List.foldl_cons, List.foldl_nil, h1]
  simp [Panel.accept, Panel.acceptDat, Panel.acceptArg, key, cat16_ofNat]

/-- A ready panel takes a row address range (R80, R82). -/
theorem rows_set {c : Cfg} (hc : c.wf = true) {cs : Latch Level} {P : Panel} (hl : P.listening c cs = true)
    (hm : P.mode = .idle ∨ P.mode = .memWrite) (a b : Nat) :
    ([Transaction.cmd c.opPaset] ++ wordItems a ++ wordItems b).foldl (Panel.accept c cs) P =
      { P with half := none, mode := .idle, r0 := .is (.ofNat 16 a), r1 := .is (.ofNat 16 b) } := by
  have hne := (Cfg.wf_opcodes hc).1.symm
  have h1 : P.accept c cs (.cmd c.opPaset) = { P with half := none, mode := .args c.opPaset [] } := by
    rcases hm with hm | hm <;> simp [Panel.accept, hl, Panel.acceptCmd, hm]
  have key : ∀ Q : Panel, Q.inReset = P.inReset → Q.undef = P.undef → Q.listening c cs = true := fun Q a b => by
    rw [Panel.listening_congr a b, hl]
  simp only [wordItems, List.cons_append, List.nil_append, List.foldl_cons, List.foldl_nil, h1]
  simp [Panel.accept, Panel.acceptDat, Panel.acceptArg, key, cat16_ofNat, hne]

/-- The eleven items of a window arm a ready panel at the window's first pixel (R80 to R82). -/
theorem window_arms {c : Cfg} (hc : c.wf = true) {cs : Latch Level} {P : Panel} (hl : P.listening c cs = true)
    (hm : P.mode = .idle ∨ P.mode = .memWrite) (c0 c1 r0 r1 : Nat) :
    (windowItems c c0 c1 r0 r1).foldl (Panel.accept c cs) P =
      P.streaming ⟨.ofNat 16 c0, .ofNat 16 c1, .ofNat 16 r0, .ofNat 16 r1⟩ (.ofNat 16 c0) (.ofNat 16 r0) P.gram := by
  obtain ⟨-, h2, h3⟩ := Cfg.wf_opcodes hc
  have key : ∀ Q : Panel, Q.inReset = P.inReset → Q.undef = P.undef → Q.listening c cs = true := fun Q a b => by
    rw [Panel.listening_congr a b, hl]
  have hu : P.undef = false := by simp [Panel.listening] at hl; exact hl.1.2
  rw [windowItems, List.foldl_append, List.append_assoc _ (wordItems r0), List.append_assoc _ [_], List.foldl_append,
    columns_set hl hm, ← List.append_assoc,
    rows_set hc (P := { P with half := none, mode := .idle, c0 := .is (.ofNat 16 c0), c1 := .is (.ofNat 16 c1) })
      (key _ rfl rfl) (.inl rfl)]
  simp [Panel.accept, key, Panel.acceptCmd, h2.symm, h3.symm, Panel.streaming, hu]

/-- Two data bytes in memory-write mode store one pixel and advance the pointer (R84, R85). -/
theorem pixel_stored {c : Cfg} {cs : Latch Level} {P : Panel} (hl : P.listening c cs = true) (hcf : P.configured = true)
    {w : Window} (hw : w.valid c = true) (x y v : Half) (g : Memory) :
    (wordItems v.toNat).foldl (Panel.accept c cs) (P.streaming w x y g) =
      P.streaming w (w.next c x y).1 (w.next c x y).2 (g.write (pixelKey x y) v) := by
  have key : ∀ Q : Panel, Q.inReset = P.inReset → Q.undef = P.undef → Q.listening c cs = true := fun Q a b => by
    rw [Panel.listening_congr a b, hl]
  have hcf' : ∀ Q : Panel, Q.cfgDone = P.cfgDone → Q.configured = true := fun Q a => by
    rw [Panel.configured, a]; exact hcf
  have hv : cat16 (BitVec.ofNat 8 (v.toNat / 256)) (v.setWidth 8) = v := by simpa using cat16_ofNat v.toNat
  simp [wordItems, Panel.streaming, Panel.accept, key, Panel.acceptDat, hcf', Panel.window?, hw, Panel.storePixel, hv]

/-- Where colour number `k` lands in a window at `(col, row)` of `w` by `h` (R85, R170). -/
def pixelAt (a : FastAxis) (col row w h k : Nat) : Nat × Nat :=
  match a with
  | .col => (col + k % w, row + k / w)
  | .row => (col + k / h, row + k % h)

/-- Different colours of one stream land on different pixels. -/
theorem pixelAt_inj {a : FastAxis} {col row w h j k : Nat} (he : pixelAt a col row w h j = pixelAt a col row w h k) : j = k := by
  cases a with
  | col =>
    simp only [pixelAt, Prod.mk.injEq] at he
    rw [← Nat.div_add_mod j w, ← Nat.div_add_mod k w, Nat.add_left_cancel he.1, Nat.add_left_cancel he.2]
  | row =>
    simp only [pixelAt, Prod.mk.injEq] at he
    rw [← Nat.div_add_mod j h, ← Nat.div_add_mod k h, Nat.add_left_cancel he.1, Nat.add_left_cancel he.2]

/-- The pixels of a stream lie in its window. -/
theorem pixelAt_mem {a : FastAxis} {col row w h k : Nat} (hw : 0 < w) (hh : 0 < h) (hk : k < w * h) :
    col ≤ (pixelAt a col row w h k).1 ∧ (pixelAt a col row w h k).1 < col + w ∧
      row ≤ (pixelAt a col row w h k).2 ∧ (pixelAt a col row w h k).2 < row + h := by
  cases a with
  | col =>
    have h1 := Nat.mod_lt k hw
    have h2 : k / w < h := Nat.div_lt_of_lt_mul hk
    simp only [pixelAt]
    generalize k / w = q at *
    omega
  | row =>
    have h1 := Nat.mod_lt k hh
    have h2 : k / h < w := Nat.div_lt_of_lt_mul (by rwa [Nat.mul_comm])
    simp only [pixelAt]
    generalize k / h = q at *
    omega

/-- Every pixel of a window is the place of some colour of its stream. -/
theorem pixelAt_surj {a : FastAxis} {col row w h x y : Nat} (hx : col ≤ x) (hx' : x < col + w) (hy : row ≤ y) (hy' : y < row + h) :
    ∃ k < w * h, pixelAt a col row w h k = (x, y) := by
  have hw : 0 < w := by omega
  have hh : 0 < h := by omega
  cases a with
  | col =>
    refine ⟨(y - row) * w + (x - col), ?_, ?_⟩
    · calc (y - row) * w + (x - col) < (y - row) * w + w := by omega
        _ = (y - row + 1) * w := by ring
        _ ≤ h * w := Nat.mul_le_mul_right w (by omega)
        _ = w * h := Nat.mul_comm h w
    · simp only [pixelAt, Prod.mk.injEq]
      rw [Nat.add_comm ((y - row) * w), Nat.add_mul_mod_self_right, Nat.add_mul_div_right _ _ hw, Nat.mod_eq_of_lt (by omega),
        Nat.div_eq_of_lt (by omega)]
      omega
  | row =>
    refine ⟨(x - col) * h + (y - row), ?_, ?_⟩
    · calc (x - col) * h + (y - row) < (x - col) * h + h := by omega
        _ = (x - col + 1) * h := by ring
        _ ≤ w * h := Nat.mul_le_mul_right h (by omega)
    · simp only [pixelAt, Prod.mk.injEq]
      rw [Nat.add_comm ((x - col) * h), Nat.add_mul_mod_self_right, Nat.add_mul_div_right _ _ hh, Nat.mod_eq_of_lt (by omega),
        Nat.div_eq_of_lt (by omega)]
      omega

theorem succ_div_mod (k w : Nat) (hw : 0 < w) :
    (if w ≤ k % w + 1 then ((k + 1) % w = 0 ∧ (k + 1) / w = k / w + 1) else ((k + 1) % w = k % w + 1 ∧ (k + 1) / w = k / w)) := by
  have h1 := Nat.mod_lt k hw
  have hd := Nat.div_add_mod k w
  split
  · have hk : k + 1 = w * (k / w + 1) := by rw [Nat.mul_add]; omega
    rw [hk]
    exact ⟨Nat.mul_mod_right _ _, Nat.mul_div_cancel_left _ hw⟩
  · have hk : k + 1 = (k % w + 1) + w * (k / w) := by omega
    constructor
    · rw [hk, Nat.add_mul_mod_self_left, Nat.mod_eq_of_lt (by omega)]
    · conv_lhs => rw [hk]
      rw [Nat.add_mul_div_left _ _ hw, Nat.div_eq_of_lt (by omega)]
      omega

/-- Inside its window the pointer steps from colour `k`'s place to colour `k+1`'s (R85). -/
theorem next_pixelAt {c : Cfg} {col row w h k : Nat} (hw : 0 < w) (hh : 0 < h) (hcol : col + w ≤ 65536) (hrow : row + h ≤ 65536)
    (hk : k + 1 < w * h) :
    let W : Window := ⟨.ofNat 16 col, .ofNat 16 (col + w - 1), .ofNat 16 row, .ofNat 16 (row + h - 1)⟩
    let p := pixelAt c.panelFastAxis col row w h k
    let q := pixelAt c.panelFastAxis col row w h (k + 1)
    W.next c (.ofNat 16 p.1) (.ofNat 16 p.2) = (.ofNat 16 q.1, .ofNat 16 q.2) := by
  have hm := pixelAt_mem (a := c.panelFastAxis) (col := col) (row := row) hw hh (Nat.lt_of_succ_lt hk)
  have hm' := pixelAt_mem (a := c.panelFastAxis) (col := col) (row := row) hw hh hk
  simp only [Window.next]
  cases ha : c.panelFastAxis <;> rw [ha] at hm hm' <;> simp only [pixelAt] at *
  · have hs := succ_div_mod k w hw
    simp only [advancePair, BitVec.toNat_ofNat]
    split at hs <;> rename_i hlast <;> (congr 2 <;> split_ifs <;> omega)
  · have hs := succ_div_mod k h hh
    simp only [advancePair, BitVec.toNat_ofNat]
    split at hs <;> rename_i hlast <;> (congr 2 <;> split_ifs <;> omega)

/-- The key of colour `k`'s pixel. -/
def streamKey (a : FastAxis) (col row w h k : Nat) : Nat :=
  pixelKey (.ofNat 16 (pixelAt a col row w h k).1) (.ofNat 16 (pixelAt a col row w h k).2)

theorem streamKey_inj {a : FastAxis} {col row w h j k : Nat} (hw : 0 < w) (hh : 0 < h) (hcol : col + w ≤ 65536)
    (hrow : row + h ≤ 65536) (hj : j < w * h) (hk : k < w * h) (he : streamKey a col row w h j = streamKey a col row w h k) :
    j = k := by
  have m1 := pixelAt_mem (a := a) (col := col) (row := row) hw hh hj
  have m2 := pixelAt_mem (a := a) (col := col) (row := row) hw hh hk
  obtain ⟨e1, e2⟩ := pixelKey_inj.1 he
  have e1 := congrArg BitVec.toNat e1
  have e2 := congrArg BitVec.toNat e2
  simp only [BitVec.toNat_ofNat] at e1 e2
  exact pixelAt_inj (a := a) (col := col) (row := row) (w := w) (h := h) (Prod.ext_iff.2 ⟨by omega, by omega⟩)

/-- The frame memory after the colours `ps` from place `k` on. -/
def streamed (a : FastAxis) (col row w h : Nat) : Nat → List Half → Memory → Memory
  | _, [], g => g
  | k, v :: ps, g => streamed a col row w h (k + 1) ps (g.write (streamKey a col row w h k) v)

theorem streamed_wf {a : FastAxis} {col row w h k : Nat} {ps : List Half} {g : Memory} (hg : g.wf = true) :
    (streamed a col row w h k ps g).wf = true := by
  induction ps generalizing k g with
  | nil => exact hg
  | cons v ps ih => exact ih (Memory.write_wf _ _ hg)

/-- A key that is no pixel of the stream reads as before. -/
theorem streamed_read_other {a : FastAxis} {col row w h k : Nat} {ps : List Half} {g : Memory} {key : Nat}
    (hk : ∀ j < ps.length, key ≠ streamKey a col row w h (k + j)) :
    (streamed a col row w h k ps g).read key = g.read key := by
  induction ps generalizing k g with
  | nil => rfl
  | cons v ps ih =>
    simp only [streamed]
    rw [ih (fun j hj => by have := hk (j + 1) (by simpa using hj); rwa [show k + (j + 1) = k + 1 + j by omega] at this),
      Memory.read_write_other _ _ (by simpa using hk 0 (by simp))]

/-- Colour `j` of the stream is what its pixel reads. -/
theorem streamed_read {a : FastAxis} {col row w h k : Nat} {ps : List Half} {g : Memory} (hw : 0 < w) (hh : 0 < h)
    (hcol : col + w ≤ 65536) (hrow : row + h ≤ 65536) (hlen : k + ps.length ≤ w * h) {j : Nat} (hj : j < ps.length) :
    (streamed a col row w h k ps g).read (streamKey a col row w h (k + j)) = .is ps[j] := by
  induction ps generalizing k g j with
  | nil => simp at hj
  | cons v ps ih =>
    simp only [List.length_cons] at hlen hj
    simp only [streamed]
    cases j with
    | zero =>
      rw [streamed_read_other (fun i hi he => by have := streamKey_inj hw hh hcol hrow (by omega) (by omega) he; omega)]
      simp
    | succ j =>
      rw [show k + (j + 1) = k + 1 + j by omega, ih (by omega) (by omega)]
      simp

/-- A stream into an armed window, R170: the panel stays armed and the frame memory holds the colours. -/
theorem stream_lands {c : Cfg} {cs : Latch Level} {P : Panel} (hl : P.listening c cs = true) (hcf : P.configured = true)
    {col row w h k : Nat} (hw : 0 < w) (hh : 0 < h) (hcol : col + w ≤ c.screenW) (hrow : row + h ≤ c.screenH)
    (hW : c.screenW ≤ 65536) (hH : c.screenH ≤ 65536) {ps : List Half} (hlen : k + ps.length ≤ w * h) (g : Memory)
    (hk : k < w * h) :
    let W : Window := ⟨.ofNat 16 col, .ofNat 16 (col + w - 1), .ofNat 16 row, .ofNat 16 (row + h - 1)⟩
    ∃ x y, (colorItems ps).foldl (Panel.accept c cs) (P.streaming W
        (.ofNat 16 (pixelAt c.panelFastAxis col row w h k).1) (.ofNat 16 (pixelAt c.panelFastAxis col row w h k).2) g) =
      P.streaming W x y (streamed c.panelFastAxis col row w h k ps g) := by
  intro W
  have hv : W.valid c = true := by
    simp only [Window.valid, W, BitVec.toNat_ofNat, Bool.and_eq_true, decide_eq_true_eq]
    omega
  induction ps generalizing k g with
  | nil => exact ⟨_, _, rfl⟩
  | cons v ps ih =>
    simp only [List.length_cons] at hlen
    simp only [colorItems, List.flatMap_cons, List.foldl_append, pixel_stored hl hcf hv, streamed]
    by_cases hlast : k + 1 < w * h
    · rw [next_pixelAt hw hh (by omega) (by omega) hlast]
      exact ih (by omega) _ hlast
    · have : ps = [] := List.eq_nil_of_length_eq_zero (by omega)
      subst this
      exact ⟨_, _, rfl⟩

end Sys2Proof.Machine
end

