-- ==== Sys2Proof/Laws/Ops.lean ====
section
/-! SUPPORT. For each shared operation, what it can do: the command template (30_encoding.md rule R121), the range and window
checks (R9, R169), and the text helpers (R193, R194, R199). -/

namespace Sys2Proof.Machine

/-! ### The template -/

theorem runCommand_halted {m : Mnemonic} {body : State → State} {s : State} (h : s.fault = true) :
    runCommand m body s = .next s.advance := by simp [runCommand, h]

theorem runCommand_notReady {m : Mnemonic} {body : State → State} {s : State} (hm : m ≠ .init) (hr : s.ready = false)
    (hf : s.fault = false) : runCommand m body s = .next (s.raise .notReady (Mnemonic.info m)).advance := by
  simp [runCommand, hm, hr, hf]

theorem runCommand_running {m : Mnemonic} {body : State → State} {s : State} (h : Running s) :
    runCommand m body s = .next (body s).advance := by simp [runCommand, h.1, h.2]

theorem runCommand_init {body : State → State} {s : State} (hf : s.fault = false) :
    runCommand .init body s = .next (body s).advance := by simp [runCommand, hf]

/-- Everything the template can do: a command always answers a next state, and it is one of three. -/
theorem runCommand_cases {m : Mnemonic} {body : State → State} {s t : State} (h : runCommand m body s = .next t) :
    (s.fault = true ∧ t = s.advance) ∨
    (s.fault = false ∧ m ≠ .init ∧ s.ready = false ∧ t = (s.raise .notReady (Mnemonic.info m)).advance) ∨
    (s.fault = false ∧ (m = .init ∨ s.ready = true) ∧ t = (body s).advance) := by
  unfold runCommand at h
  injection h with h
  cases hf : s.fault <;> simp only [hf, Bool.false_eq_true, if_false, if_true] at h
  · split at h <;> rename_i hm
    · exact .inr (.inl ⟨rfl, hm.1, hm.2, h.symm⟩)
    · refine .inr (.inr ⟨rfl, ?_, h.symm⟩)
      cases hr : s.ready <;> simp_all
  · exact .inl ⟨rfl, h.symm⟩

/-! ### Range and window checks -/

theorem chk16_ok {v : Int} (h1 : -32768 ≤ v) (h2 : v ≤ 32767) : chk16 v = .ok (u16Of v) := by simp [chk16, h1, h2]

theorem chk16_error {v : Int} (h : v < -32768 ∨ 32767 < v) : chk16 v = .error (u16Of v) := by
  simp only [chk16]; split <;> first | omega | rfl

theorem chk16_cases (v : Int) : (-32768 ≤ v ∧ v ≤ 32767 ∧ chk16 v = .ok (u16Of v)) ∨
    ((v < -32768 ∨ 32767 < v) ∧ chk16 v = .error (u16Of v)) := by
  by_cases h : -32768 ≤ v ∧ v ≤ 32767
  · exact .inl ⟨h.1, h.2, chk16_ok h.1 h.2⟩
  · exact .inr ⟨by omega, chk16_error (by omega)⟩

/-- What `chk16` lets through is held exactly. -/
theorem toInt_u16Of {v : Int} (h1 : -32768 ≤ v) (h2 : v ≤ 32767) : (u16Of v).toInt = v := by
  simp only [u16Of, BitVec.toInt_ofInt, Int.bmod]
  norm_num
  omega

@[simp] theorem u16Of_toInt (v : Half) : u16Of v.toInt = v := by simp [u16Of]

theorem toInt_bounds (v : Half) : -32768 ≤ v.toInt ∧ v.toInt ≤ 32767 := by
  have h1 := BitVec.le_toInt v
  have h2 := BitVec.toInt_lt (x := v)
  norm_num at h1 h2
  omega

theorem checkWindow_none {col row w h : Int} :
    checkWindow col row w h = none ↔ 0 ≤ col ∧ 0 ≤ row ∧ 0 < w ∧ 0 < h := by
  simp only [checkWindow]
  split_ifs <;> simp <;> omega

theorem windowed_refused {col row w h : Int} {ps : List Half} {s : State} {k : Half} (hk : checkWindow col row w h = some k) :
    windowed col row w h ps s = s.raise .badWindow k := by simp [windowed, hk]

theorem windowed_sent {col row w h : Int} {ps : List Half} {s : State} (hk : checkWindow col row w h = none) :
    windowed col row w h ps s = s.emits (setWindow s.cfg col row w h ++ pushColors ps) := by simp [windowed, hk]

/-- A window and a constant fill (R163, R168, R199). -/
theorem sends_fill (c : Cfg) (col row w h n : Nat) (hw : w ≠ 0) (hh : h ≠ 0) (hn : n ≠ 0) (v : Half) :
    Sends (setWindow c col row w h ++ pushColors (List.replicate n v))
      (windowItems c col (col + w - 1) row (row + h - 1) ++ colorItems (List.replicate n v)) .high (lo8 v) :=
  (sends_setWindow c col row w h hw hh).append (sends_pushColors_replicate hn v)

/-! ### Text -/

/-- Everything `placeCell` can answer (R193): the cell on the line or at the next line's start, or the first range failure. -/
theorem placeCell_cases (s : State) :
    (s.col.toInt + 6 * s.size.toNat ≤ s.cfg.wrapLimit ∧ s.col.toInt + 6 * s.size.toNat ≤ 32767 ∧
      placeCell s = .ok (s.col.toInt, s.row.toInt, s.col.toInt + 6 * s.size.toNat)) ∨
    (s.cfg.wrapLimit < s.col.toInt + 6 * s.size.toNat ∧ s.row.toInt + 9 * s.size.toNat ≤ 32767 ∧
      (s.cfg.gap : Int) + 6 * s.size.toNat ≤ 32767 ∧
      placeCell s = .ok (s.cfg.gap, s.row.toInt + 9 * s.size.toNat, s.cfg.gap + 6 * s.size.toNat)) ∨
    (∃ v : Int, 32767 < v ∧ placeCell s = .error (u16Of v) ∧
      ((s.col.toInt + 6 * s.size.toNat ≤ s.cfg.wrapLimit ∧ v = s.col.toInt + 6 * s.size.toNat) ∨
       (s.cfg.wrapLimit < s.col.toInt + 6 * s.size.toNat ∧ v = s.row.toInt + 9 * s.size.toNat) ∨
       (s.cfg.wrapLimit < s.col.toInt + 6 * s.size.toNat ∧ s.row.toInt + 9 * s.size.toNat ≤ 32767 ∧
         v = s.cfg.gap + 6 * s.size.toNat))) := by
  have hc := toInt_bounds s.col
  have hr := toInt_bounds s.row
  simp only [placeCell, i16Of]
  by_cases hw : s.col.toInt + 6 * (s.size.toNat : Int) > s.cfg.wrapLimit
  · simp only [if_pos hw]
    rcases chk16_cases (s.row.toInt + 9 * s.size.toNat) with ⟨a, b, e⟩ | ⟨a, e⟩
    · rcases chk16_cases ((s.cfg.gap : Int) + 6 * s.size.toNat) with ⟨a', b', e'⟩ | ⟨a', e'⟩
      · exact .inr (.inl ⟨hw, b, b', by simp [e, e']⟩)
      · exact .inr (.inr ⟨_, by omega, by simp [e, e'], .inr (.inr ⟨hw, b, rfl⟩)⟩)
    · exact .inr (.inr ⟨_, by omega, by simp [e], .inr (.inl ⟨hw, rfl⟩)⟩)
  · simp only [if_neg hw]
    rcases chk16_cases (s.col.toInt + 6 * s.size.toNat) with ⟨a, b, e⟩ | ⟨a, e⟩
    · exact .inl ⟨by omega, b, by simp [e]⟩
    · exact .inr (.inr ⟨_, by omega, by simp [e], .inl ⟨by omega, rfl⟩⟩)

/-- Everything `renderChar` can do (R193). -/
theorem renderChar_cases (sym : Byte) (s : State) :
    (∃ info, renderChar sym s = s.raise .range info) ∨
    (∃ nc nr ac, placeCell s = .ok (nc, nr, ac) ∧ renderChar sym s =
      ((s.setCursor (u16Of nc) (u16Of nr)).emits (cellEvents s sym nc nr)).setCursor (u16Of ac) (u16Of nr)) := by
  cases h : placeCell s with
  | error info => exact .inl ⟨info, by simp [renderChar, h]⟩
  | ok q => exact .inr ⟨q.1, q.2.1, q.2.2, rfl, by simp [renderChar, h]⟩

/-- The raster of one character has `48 * s * s` colours (R191). -/
theorem rasterStream_length (c : Cfg) (sym : Byte) (n : Nat) (fg bg : Half) :
    (rasterStream c sym n fg bg).length = 48 * n * n := by
  have hrun : ∀ g, (rasterRun g n fg bg).length = 8 * n := fun g => by simp [rasterRun, List.range_succ]; ring
  simp [rasterStream, List.range_succ, List.length_flatten, hrun]
  ring

/-- The last colour of a character is a background colour: the spacer is streamed last (R190, R191, R195). -/
theorem rasterStream_last (c : Cfg) (sym : Byte) {n : Nat} (hn : n ≠ 0) (fg bg : Half) :
    ∃ ps, rasterStream c sym n fg bg = ps ++ [bg] := by
  obtain ⟨m, rfl⟩ := Nat.exists_eq_succ_of_ne_zero hn
  have hrun : ∃ q, rasterRun (glyphColumn c sym 5) (m + 1) fg bg = q ++ [bg] := by
    refine ⟨(List.range 7).flatMap (fun r => List.replicate (m + 1) (pick ((glyphColumn c sym 5).getLsbD r) fg bg)) ++
      List.replicate m bg, ?_⟩
    rw [rasterRun, List.range_succ, List.flatMap_append]
    simp [glyphColumn, pick, List.replicate_succ', List.append_assoc]
  obtain ⟨q, hq⟩ := hrun
  refine ⟨(List.range 5).flatMap (fun k => (List.replicate (m + 1) (rasterRun (glyphColumn c sym k) (m + 1) fg bg)).flatten) ++
    ((List.replicate m (rasterRun (glyphColumn c sym 5) (m + 1) fg bg)).flatten ++ q), ?_⟩
  rw [rasterStream, List.range_succ, List.flatMap_append]
  simp only [List.flatMap_cons, List.flatMap_nil, List.append_nil]
  rw [List.replicate_succ', List.flatten_append]
  simp [hq, List.append_assoc]

/-- One character on the bus (R193): the window of its cell, its raster, and the background byte left in the data latch. -/
theorem sends_cell (s : State) (sym : Byte) (nc nr : Nat) (hs : s.size ≠ 0) :
    Sends (cellEvents s sym nc nr)
      (windowItems s.cfg nc (nc + 6 * s.size.toNat - 1) nr (nr + 8 * s.size.toNat - 1) ++
        colorItems (rasterStream s.cfg sym s.size.toNat s.fg s.bg)) .high (lo8 s.bg) := by
  have hn : s.size.toNat ≠ 0 := fun h => hs (BitVec.eq_of_toNat_eq (by simpa using h))
  obtain ⟨ps, hps⟩ := rasterStream_last s.cfg sym hn s.fg s.bg
  have h1 := sends_setWindow s.cfg nc nr (6 * s.size.toNat) (8 * s.size.toNat) (by omega) (by omega)
  have h2 := h1.append (hps ▸ sends_pushColors ps s.bg)
  simpa [cellEvents, hps] using h2

end Sys2Proof.Machine
end

