-- ==== Sys2Proof/Laws/Exec.lean ====
section
/-! SUPPORT. `exec` said once: every command is its own rule inside the template of 30_encoding.md rule R121, and that rule is one
of few operations. -/

namespace Sys2Proof.Machine

/-- The command's own rule, R121 step 4. -/
def commandRule : Instr → State → State
  | .wrb a => fun s => s.emits (writeByte a)
  | .selc => fun s => s.emits selectCommandRegister
  | .seld => fun s => s.emits selectDataRegister
  | .rdb => fun s => (readByte s).2.respond (readByte s).1
  | .init => fun s => { fastClear s.cfg.initClearByte (s.emits (bringUpEvents s.cfg)) with ready := true }
  | .cmd a => fun s => s.emits (writeCommand a)
  | .dat a => fun s => s.emits (writeData a)
  | .win col row width height => windowed (i16Of col) (i16Of row) (i16Of width) (i16Of height) []
  | .rect col row width height color =>
      windowed (i16Of col) (i16Of row) (i16Of width) (i16Of height)
        (List.replicate ((i16Of width).toNat * (i16Of height).toNat) color)
  | .clr a => fastClear a
  | .chr a => renderSymbol a
  | .str syms => renderSymbols syms
  | .int h => renderChars (dec (i16Of h))
  | .era a => eraseCells a.toNat
  | .nl => newLineStep
  | .siz a => fun s => if a = 0 then s.raise .badSize 0 else { s with size := a }
  | .fgc h => fun s => { s with fg := h }
  | .bgc h => fun s => { s with bg := h }

theorem exec_eq (i : Instr) (s : State) : exec i s = runCommand i.mnemonic (commandRule i) s := by
  cases i <;> rfl

/-- Everything a command can do: nothing on a halted block, NOT_READY, or its own rule; `cp` moves on in each case. -/
theorem exec_cases {i : Instr} {s t : State} (h : exec i s = .next t) :
    (s.fault = true ∧ t = s.advance) ∨
    (s.fault = false ∧ i.mnemonic ≠ .init ∧ s.ready = false ∧ t = (s.raise .notReady (Mnemonic.info i.mnemonic)).advance) ∨
    (s.fault = false ∧ (i.mnemonic = .init ∨ s.ready = true) ∧ t = (commandRule i s).advance) :=
  runCommand_cases (exec_eq i s ▸ h)

/-- Everything a step can do. -/
theorem step_cases {s t : State} (h : step s = .next t) :
    s.cfg.wf = true ∧ ((∃ i rest, decode s.cmdIn = .command i rest ∧ exec i { s with cmdIn := rest } = .next t) ∨
      (∃ b rest, decode s.cmdIn = .illegal b rest ∧ t = illegalOpcode b { s with cmdIn := rest })) := by
  simp only [step] at h
  split at h <;> rename_i hc
  · refine ⟨hc, ?_⟩
    split at h <;> rename_i hd
    · exact .inl ⟨_, _, hd, h⟩
    · cases h; exact .inr ⟨_, _, hd, rfl⟩
    · cases h
    · cases h
  · cases h

/-- Everything `windowed` can do (R169, R163). -/
theorem windowed_cases (col row w h : Int) (ps : List Half) (s : State) :
    (∃ k, checkWindow col row w h = some k ∧ windowed col row w h ps s = s.raise .badWindow k) ∨
    (checkWindow col row w h = none ∧ windowed col row w h ps s = s.emits (setWindow s.cfg col row w h ++ pushColors ps)) := by
  cases hk : checkWindow col row w h with
  | some k => exact .inl ⟨k, rfl, windowed_refused hk⟩
  | none => exact .inr ⟨rfl, windowed_sent hk⟩

/-- Everything `newLineStep` can do (R194). -/
theorem newLineStep_cases (s : State) :
    (s.row.toInt + 9 * s.size.toNat ≤ 32767 ∧
      newLineStep s = s.setCursor (u16Of s.cfg.gap) (u16Of (s.row.toInt + 9 * s.size.toNat))) ∨
    (32767 < s.row.toInt + 9 * s.size.toNat ∧ newLineStep s = s.raise .range (u16Of (s.row.toInt + 9 * s.size.toNat))) := by
  have hb := toInt_bounds s.row
  rcases chk16_cases (s.row.toInt + 9 * s.size.toNat) with ⟨-, h, e⟩ | ⟨h, e⟩
  · exact .inl ⟨h, by simp [newLineStep, i16Of, e]⟩
  · exact .inr ⟨by omega, by simp [newLineStep, i16Of, e]⟩

/-- Everything `eraseCells` can do (R199). -/
theorem eraseCells_cases (n : Nat) (s : State) :
    (32767 < 6 * (s.size.toNat : Int) * n ∧ eraseCells n s = s.raise .range (u16Of (6 * s.size.toNat * n))) ∨
    (6 * (s.size.toNat : Int) * n ≤ 32767 ∧ eraseCells n s =
      windowed s.col.toInt s.row.toInt (6 * s.size.toNat * n) (8 * s.size.toNat)
        (List.replicate (6 * s.size.toNat * n * (8 * s.size.toNat)) s.bg) s) := by
  have hpos : (0 : Int) ≤ 6 * (s.size.toNat : Int) * n := by positivity
  rcases chk16_cases (6 * (s.size.toNat : Int) * n) with ⟨-, h, e⟩ | ⟨h, e⟩
  · exact .inr ⟨h, by simp [eraseCells, e, i16Of]⟩
  · exact .inl ⟨by omega, by simp [eraseCells, e]⟩

/-- `t` comes from `s` by the pin events `evs`: pins, panel, trace and responses are what the events make of them, and the
configuration stays. -/
structure MovesBy (s t : State) (evs : List PinEvent) : Prop where
  cfg : t.cfg = s.cfg
  pins : t.pins = pinsAfter s.pins evs
  panel : t.panel = panelAfter s.cfg s.pins s.panel evs
  trace : t.trace = s.trace ++ evs
  responses : t.respOut = s.respOut ++ evs.filterMap responseOf

theorem MovesBy.still {s t : State} (h1 : t.cfg = s.cfg) (h2 : t.pins = s.pins) (h3 : t.panel = s.panel)
    (h4 : t.history = s.history) (h5 : t.respOut = s.respOut) : MovesBy s t [] :=
  ⟨h1, h2, h3, by simp [State.trace, h4], by simp [h5]⟩

theorem MovesBy.then {s t u : State} {a b : List PinEvent} (h : MovesBy s t a) (k : MovesBy t u b) : MovesBy s u (a ++ b) where
  cfg := k.cfg.trans h.cfg
  pins := by rw [k.pins, h.pins, pinsAfter_append]
  panel := by rw [k.panel, h.panel, h.pins, h.cfg, panelAfter_append]
  trace := by rw [k.trace, h.trace, List.append_assoc]
  responses := by rw [k.responses, h.responses, List.filterMap_append, List.append_assoc]

theorem MovesBy.setCursor {s t : State} {evs : List PinEvent} (h : MovesBy s t evs) (c r : Half) :
    MovesBy s (t.setCursor c r) evs := ⟨h.cfg, h.pins, h.panel, h.trace, h.responses⟩

theorem MovesBy.ready {s t : State} {evs : List PinEvent} (h : MovesBy s t evs) : MovesBy s { t with ready := true } evs :=
  ⟨h.cfg, h.pins, h.panel, h.trace, h.responses⟩

theorem MovesBy.of_setCursor {s t : State} {evs : List PinEvent} {c r : Half} (h : MovesBy (s.setCursor c r) t evs) :
    MovesBy s t evs := ⟨h.cfg, h.pins, h.panel, h.trace, h.responses⟩

/-- Emitting events that carry no response. -/
theorem movesBy_emits (s : State) {evs : List PinEvent} (h : evs.filterMap responseOf = []) : MovesBy s (s.emits evs) evs :=
  ⟨rfl, rfl, rfl, by simp, by simp [h]⟩

/-- A response (R10, R122). -/
theorem movesBy_respond (v : Byte) (s : State) : MovesBy s (s.respond v) [.respond v] :=
  ⟨rfl, rfl, rfl, by simp [State.respond, State.trace], rfl⟩

/-- The helper procedures respond nothing (R122). -/
theorem noResponse_writeData (d : Byte) : (writeData d).filterMap responseOf = [] := rfl

theorem noResponse_pushColors (ps : List Half) : (pushColors ps).filterMap responseOf = [] := by
  induction ps with
  | nil => rfl
  | cons p ps ih => simpa [pushColors, pushColor, writeData, selectDataRegister, writeByte, responseOf] using ih

theorem noResponse_setWindow (c : Cfg) (col row w h : Int) : (setWindow c col row w h).filterMap responseOf = [] := rfl

theorem noResponse_fastClear (c : Cfg) (b : Byte) : (fastClearEvents c b).filterMap responseOf = [] := by
  have h : ∀ n, (List.replicate n fourStrobes).flatten.filterMap responseOf = [] := by
    intro n
    induction n with
    | zero => rfl
    | succ n ih => rw [List.replicate_succ, List.flatten_cons, List.filterMap_append, ih]; rfl
  simp only [fastClearEvents, List.filterMap_append, noResponse_setWindow, h]
  rfl

theorem noResponse_bringUp (c : Cfg) : (bringUpEvents c).filterMap responseOf = [] := by
  have hd : ∀ bs : List Byte, (bs.flatMap writeData).filterMap responseOf = [] := by
    intro bs
    induction bs with
    | nil => rfl
    | cons b bs ih => rw [List.flatMap_cons, List.filterMap_append, ih]; rfl
  have he : ∀ es : List PanelCommand, (es.flatMap powerOnEntry).filterMap responseOf = [] := by
    intro es
    induction es with
    | nil => rfl
    | cons e es ih => rw [List.flatMap_cons, List.filterMap_append, ih, powerOnEntry, List.filterMap_append, hd]; rfl
  simp only [bringUpEvents, List.filterMap_append, he]
  rfl

theorem movesBy_windowed (col row w h : Int) (ps : List Half) (s : State) : ∃ evs, MovesBy s (windowed col row w h ps s) evs := by
  rcases windowed_cases col row w h ps s with ⟨k, -, e⟩ | ⟨-, e⟩ <;> rw [e]
  · exact ⟨_, .still rfl rfl rfl rfl rfl⟩
  · exact ⟨_, movesBy_emits s (by simp [noResponse_setWindow, noResponse_pushColors])⟩

theorem movesBy_fastClear (b : Byte) (s : State) : MovesBy s (fastClear b s) (fastClearEvents s.cfg b) :=
  (movesBy_emits s (noResponse_fastClear s.cfg b)).setCursor _ _

theorem movesBy_renderChar (sym : Byte) (s : State) : ∃ evs, MovesBy s (renderChar sym s) evs := by
  rcases renderChar_cases sym s with ⟨k, e⟩ | ⟨nc, nr, ac, -, e⟩ <;> rw [e]
  · exact ⟨_, .still rfl rfl rfl rfl rfl⟩
  · have hr : (cellEvents s sym nc nr).filterMap responseOf = [] := by
      simp only [cellEvents, List.filterMap_append, noResponse_setWindow, noResponse_pushColors, List.append_nil]
    exact ⟨_, ((movesBy_emits _ hr).setCursor _ _).of_setCursor⟩

theorem movesBy_renderSymbol (sym : Byte) (s : State) : ∃ evs, MovesBy s (renderSymbol sym s) evs := by
  simp only [renderSymbol]
  split
  · exact movesBy_renderChar sym s
  · exact ⟨_, .still rfl rfl rfl rfl rfl⟩

theorem movesBy_renderSymbols (syms : List Byte) (s : State) : ∃ evs, MovesBy s (renderSymbols syms s) evs := by
  induction syms generalizing s with
  | nil => exact ⟨_, .still rfl rfl rfl rfl rfl⟩
  | cons sym syms ih =>
    obtain ⟨a, ha⟩ := movesBy_renderSymbol sym s
    simp only [renderSymbols]
    split
    · exact ⟨a, ha⟩
    · obtain ⟨b, hb⟩ := ih (renderSymbol sym s)
      exact ⟨_, ha.then hb⟩

theorem movesBy_renderChars (syms : List Byte) (s : State) : ∃ evs, MovesBy s (renderChars syms s) evs := by
  induction syms generalizing s with
  | nil => exact ⟨_, .still rfl rfl rfl rfl rfl⟩
  | cons sym syms ih =>
    obtain ⟨a, ha⟩ := movesBy_renderChar sym s
    simp only [renderChars]
    split
    · exact ⟨a, ha⟩
    · obtain ⟨b, hb⟩ := ih (renderChar sym s)
      exact ⟨_, ha.then hb⟩

/-- Every command's own rule moves pins, panel, trace and responses by one list of pin events (R10, R77, R122). -/
theorem commandRule_moves (i : Instr) (s : State) : ∃ evs, MovesBy s (commandRule i s) evs := by
  cases i with
  | wrb a => exact ⟨_, movesBy_emits s rfl⟩
  | selc => exact ⟨_, movesBy_emits s rfl⟩
  | seld => exact ⟨_, movesBy_emits s rfl⟩
  | rdb =>
    have h := movesBy_emits s (evs := readByteEvents (Config.readOracle s.samples)) rfl
    have h' : MovesBy s (readByte s).2 _ := ⟨h.cfg, h.pins, h.panel, h.trace, h.responses⟩
    exact ⟨_, h'.then (movesBy_respond _ _)⟩
  | init =>
    exact ⟨_, ((movesBy_emits s (noResponse_bringUp s.cfg)).then (movesBy_fastClear s.cfg.initClearByte _)).ready⟩
  | cmd a => exact ⟨_, movesBy_emits s rfl⟩
  | dat a => exact ⟨_, movesBy_emits s rfl⟩
  | win col row width height => exact movesBy_windowed ..
  | rect col row width height color => exact movesBy_windowed ..
  | clr a => exact ⟨_, movesBy_fastClear a s⟩
  | chr a => exact movesBy_renderSymbol a s
  | str syms => exact movesBy_renderSymbols syms s
  | int h => exact movesBy_renderChars _ s
  | era a =>
    rcases eraseCells_cases a.toNat s with ⟨-, e⟩ | ⟨-, e⟩ <;> simp only [commandRule, e]
    · exact ⟨_, .still rfl rfl rfl rfl rfl⟩
    · exact movesBy_windowed ..
  | nl =>
    rcases newLineStep_cases s with ⟨-, e⟩ | ⟨-, e⟩ <;> simp only [commandRule, e] <;>
      exact ⟨_, .still rfl rfl rfl rfl rfl⟩
  | siz a => simp only [commandRule]; split <;> exact ⟨_, .still rfl rfl rfl rfl rfl⟩
  | fgc h => exact ⟨_, .still rfl rfl rfl rfl rfl⟩
  | bgc h => exact ⟨_, .still rfl rfl rfl rfl rfl⟩

/-- The same of a whole step. -/
theorem step_moves {s t : State} (h : step s = .next t) : ∃ evs, MovesBy s t evs := by
  obtain ⟨-, ⟨i, rest, -, hx⟩ | ⟨b, rest, -, rfl⟩⟩ := step_cases h
  · rcases exec_cases hx with ⟨-, rfl⟩ | ⟨-, -, -, rfl⟩ | ⟨-, -, rfl⟩
    · exact ⟨_, .still rfl rfl rfl rfl rfl⟩
    · exact ⟨_, .still rfl rfl rfl rfl rfl⟩
    · obtain ⟨evs, hm⟩ := commandRule_moves i { s with cmdIn := rest }
      exact ⟨evs, hm.cfg, hm.pins, hm.panel, hm.trace, hm.responses⟩
  · simp only [illegalOpcode]
    split <;> exact ⟨_, .still rfl rfl rfl rfl rfl⟩

/-- `stepEvents` is the list of events of `step_moves`. -/
theorem step_movesBy_stepEvents {s t : State} (h : step s = .next t) : MovesBy s t (stepEvents s) := by
  obtain ⟨evs, hm⟩ := step_moves h
  have he : stepEvents s = evs := by simp [stepEvents, h, hm.trace]
  exact he ▸ hm

/-- No command in progress has sent anything yet: the reset is the plain one. -/
@[simp] theorem hardwareResetDuring_zero (s : State) : hardwareResetDuring 0 s = hardwareReset s := by
  simp [hardwareResetDuring]

end Sys2Proof.Machine
end

