-- ==== Sys2Proof/Laws/Frame.lean ====
section
/-! SUPPORT. Frames of the shared operations: what a write to the bus leaves alone, which event lists keep the bus idle
(40_bus_interface.md rule R148), and what the panel's frame memory keeps whatever the panel's state (20_memory.md R80 to R86). -/

namespace Sys2Proof.Machine

/-! ### Fields -/

/-- `e` is one of the three events a bus write is made of (R140 to R142). -/
def PinEvent.isWrite : PinEvent → Bool
  | .drive _ => true
  | .set .rs _ => true
  | .set .wr _ => true
  | .set .rst _ => false
  | .set .cs _ => false
  | .set .rd _ => false
  | .ctlOut => false
  | .dir _ => false
  | .sample _ => false
  | .wait _ => false
  | .respond _ => false

/-- `t` differs from `s` at most in the cursor, the three write latches, the history, the panel and the fault fields. -/
structure WriteFrame (s t : State) : Prop where
  cfg : t.cfg = s.cfg
  cmdIn : t.cmdIn = s.cmdIn
  cp : t.cp = s.cp
  size : t.size = s.size
  fg : t.fg = s.fg
  bg : t.bg = s.bg
  ready : t.ready = s.ready
  respOut : t.respOut = s.respOut
  samples : t.samples = s.samples
  lines : t.pins = { s.pins with rs := t.pins.rs, wr := t.pins.wr, dout := t.pins.dout }

theorem WriteFrame.refl (s : State) : WriteFrame s s := ⟨rfl, rfl, rfl, rfl, rfl, rfl, rfl, rfl, rfl, rfl⟩

theorem WriteFrame.trans {s t u : State} (h : WriteFrame s t) (k : WriteFrame t u) : WriteFrame s u where
  cfg := k.cfg.trans h.cfg
  cmdIn := k.cmdIn.trans h.cmdIn
  cp := k.cp.trans h.cp
  size := k.size.trans h.size
  fg := k.fg.trans h.fg
  bg := k.bg.trans h.bg
  ready := k.ready.trans h.ready
  respOut := k.respOut.trans h.respOut
  samples := k.samples.trans h.samples
  lines := by rw [k.lines, h.lines]

theorem pinsAfter_writes {evs : List PinEvent} (h : evs.all PinEvent.isWrite = true) (p : Pins) :
    pinsAfter p evs =
      { p with rs := (pinsAfter p evs).rs, wr := (pinsAfter p evs).wr, dout := (pinsAfter p evs).dout } := by
  induction evs generalizing p with
  | nil => rfl
  | cons e evs ih =>
    simp only [List.all_cons, Bool.and_eq_true] at h
    have he : p.apply e = { p with rs := (p.apply e).rs, wr := (p.apply e).wr, dout := (p.apply e).dout } := by
      cases e with
      | set line l => cases line <;> simp [PinEvent.isWrite] at h <;> rfl
      | drive v => rfl
      | _ => simp [PinEvent.isWrite] at h
    have := ih h.2 (p.apply e)
    simp only [pinsAfter, List.foldl_cons] at this ⊢
    rw [this, he]

theorem writeFrame_emits {s : State} {evs : List PinEvent} (h : evs.all PinEvent.isWrite = true) : WriteFrame s (s.emits evs) :=
  ⟨rfl, rfl, rfl, rfl, rfl, rfl, rfl, rfl, rfl, pinsAfter_writes h s.pins⟩

theorem writeFrame_raise (s : State) (c : Cause) (k : Half) : WriteFrame s (s.raise c k) :=
  ⟨rfl, rfl, rfl, rfl, rfl, rfl, rfl, rfl, rfl, rfl⟩

theorem writeFrame_setCursor (s : State) (c r : Half) : WriteFrame s (s.setCursor c r) :=
  ⟨rfl, rfl, rfl, rfl, rfl, rfl, rfl, rfl, rfl, rfl⟩

theorem writes_setWindow (c : Cfg) (col row w h : Int) : (setWindow c col row w h).all PinEvent.isWrite = true := rfl

theorem writes_pushColors (ps : List Half) : (pushColors ps).all PinEvent.isWrite = true := by
  induction ps with
  | nil => rfl
  | cons p ps ih => rw [pushColors, List.flatMap_cons, List.all_append, ← pushColors, ih]; rfl

theorem writes_fastClear (c : Cfg) (b : Byte) : (fastClearEvents c b).all PinEvent.isWrite = true := by
  have hn : ∀ n, (List.replicate n fourStrobes).flatten.all PinEvent.isWrite = true := by
    intro n
    induction n with
    | zero => rfl
    | succ n ih => rw [List.replicate_succ, List.flatten_cons, List.all_append, ih]; rfl
  simp only [fastClearEvents, List.all_append, writes_setWindow, hn]
  rfl

/-- WIN, RECT and ERA write nothing but the bus or the fault fields. -/
theorem writeFrame_windowed (col row w h : Int) (ps : List Half) (s : State) :
    WriteFrame s (windowed col row w h ps s) ∧ (windowed col row w h ps s).col = s.col ∧
      (windowed col row w h ps s).row = s.row := by
  rcases windowed_cases col row w h ps s with ⟨k, -, e⟩ | ⟨-, e⟩ <;> rw [e]
  · exact ⟨writeFrame_raise .., rfl, rfl⟩
  · exact ⟨writeFrame_emits (by simp [writes_setWindow, writes_pushColors]), rfl, rfl⟩

theorem writeFrame_eraseCells (n : Nat) (s : State) :
    WriteFrame s (eraseCells n s) ∧ (eraseCells n s).col = s.col ∧ (eraseCells n s).row = s.row := by
  rcases eraseCells_cases n s with ⟨-, e⟩ | ⟨-, e⟩ <;> rw [e]
  · exact ⟨writeFrame_raise .., rfl, rfl⟩
  · exact writeFrame_windowed ..

theorem writeFrame_fastClear (b : Byte) (s : State) : WriteFrame s (fastClear b s) :=
  (writeFrame_emits (writes_fastClear s.cfg b)).trans (writeFrame_setCursor ..)

theorem writeFrame_renderChar (sym : Byte) (s : State) : WriteFrame s (renderChar sym s) := by
  rcases renderChar_cases sym s with ⟨k, e⟩ | ⟨nc, nr, ac, -, e⟩ <;> rw [e]
  · exact writeFrame_raise ..
  · exact ((writeFrame_setCursor ..).trans
      (writeFrame_emits (by simp [cellEvents, writes_setWindow, writes_pushColors]))).trans (writeFrame_setCursor ..)

theorem writeFrame_renderSymbol (sym : Byte) (s : State) : WriteFrame s (renderSymbol sym s) := by
  simp only [renderSymbol]
  split
  · exact writeFrame_renderChar sym s
  · exact writeFrame_raise ..

theorem writeFrame_renderSymbols (syms : List Byte) (s : State) : WriteFrame s (renderSymbols syms s) := by
  induction syms generalizing s with
  | nil => exact .refl s
  | cons sym syms ih =>
    simp only [renderSymbols]
    split
    · exact writeFrame_renderSymbol sym s
    · exact (writeFrame_renderSymbol sym s).trans (ih _)

theorem writeFrame_renderChars (syms : List Byte) (s : State) : WriteFrame s (renderChars syms s) := by
  induction syms generalizing s with
  | nil => exact .refl s
  | cons sym syms ih =>
    simp only [renderChars]
    split
    · exact writeFrame_renderChar sym s
    · exact (writeFrame_renderChar sym s).trans (ih _)

/-! ### The idle bus -/

/-- Event lists that leave an idle bus idle (R148). -/
def KeepsIdle (evs : List PinEvent) : Prop := ∀ c p, PinsIdle c p → PinsIdle c (pinsAfter p evs)

theorem KeepsIdle.append {a b : List PinEvent} (h : KeepsIdle a) (k : KeepsIdle b) : KeepsIdle (a ++ b) :=
  fun c p hp => by rw [pinsAfter_append]; exact k _ _ (h _ _ hp)

theorem Sends.keepsIdle {evs : List PinEvent} {items : List Transaction} {rs : Level} {d : Byte} (h : Sends evs items rs d) :
    KeepsIdle evs := fun c p hp => by
  rw [h.pins p hp.ddir]
  exact ⟨rfl, hp.rd, hp.ddir, hp.rst, hp.cs, hp.ctlOut, by simp [Pins.sent], by simp [Pins.sent]⟩

theorem keepsIdle_readByte (v : Byte) : KeepsIdle (readByteEvents v) := fun c p hp => by
  simp only [readByteEvents, pinsAfter, List.foldl_cons, List.foldl_nil, Pins.apply]
  exact ⟨hp.wr, rfl, rfl, hp.rst, hp.cs, hp.ctlOut, by simp, hp.dout⟩

/-! ### The panel, whatever its state -/

theorem accept_cmd_gram (c : Cfg) (cs : Latch Level) (P : Panel) (b : Byte) : (P.accept c cs (.cmd b)).gram = P.gram := by
  simp only [Panel.accept]
  split
  · rcases acceptCmd_cases c P b with e | e | ⟨-, e⟩ | ⟨i, e⟩ | e <;> rw [e]
  · rfl

theorem accept_rd_gram (c : Cfg) (cs : Latch Level) (P : Panel) (v : Byte) : (P.accept c cs (.rd v)).gram = P.gram := by
  simp only [Panel.accept]
  split
  · split <;> rfl
  · rfl

/-- A panel that does not listen takes no written byte (R78, R79, R89). -/
theorem deaf_ignores {c : Cfg} {cs : Latch Level} {P : Panel} (h : P.listening c cs = false) {items : List Transaction}
    (hi : ∀ t ∈ items, (∃ b, t = .cmd b) ∨ ∃ b, t = .dat b) : items.foldl (Panel.accept c cs) P = P := by
  induction items with
  | nil => rfl
  | cons t items ih =>
    have ht : P.accept c cs t = P := by
      rcases hi t (by simp) with ⟨b, rfl⟩ | ⟨b, rfl⟩ <;> simp [Panel.accept, h]
    rw [List.foldl_cons, ht]
    exact ih (fun t ht => hi t (by simp [ht]))

theorem windowItems_written (c : Cfg) (c0 c1 r0 r1 : Nat) :
    ∀ t ∈ windowItems c c0 c1 r0 r1, (∃ b, t = .cmd b) ∨ ∃ b, t = .dat b := by
  intro t ht
  simp [windowItems, wordItems] at ht
  rcases ht with h | h | h | h | h | h | h | h | h | h | h <;> subst h <;> simp

/-- A window on any panel: frame memory stays, and the panel either listens to nothing or is armed at the window's first
pixel (R80 to R82). -/
theorem window_any {c : Cfg} (hc : c.wf = true) (cs : Latch Level) (P : Panel) (c0 c1 r0 r1 : Nat) :
    let Q := (windowItems c c0 c1 r0 r1).foldl (Panel.accept c cs) P
    Q.gram = P.gram ∧ (Q.listening c cs = false ∨ (Q.mode = .memWrite ∧
      Q.window? = some ⟨.ofNat 16 c0, .ofNat 16 c1, .ofNat 16 r0, .ofNat 16 r1⟩ ∧
      Q.x = .is (.ofNat 16 c0) ∧ Q.y = .is (.ofNat 16 r0))) := by
  intro Q
  have hcons : windowItems c c0 c1 r0 r1 = .cmd c.opCaset :: (windowItems c c0 c1 r0 r1).tail := rfl
  by_cases hl : P.listening c cs = false
  · have hQ : Q = P := deaf_ignores hl (windowItems_written c c0 c1 r0 r1)
    rw [hQ]
    exact ⟨rfl, .inl hl⟩
  · simp only [Bool.not_eq_false] at hl
    by_cases hinc : ∃ op got, P.mode = .args op got ∧ argsComplete c op got = false
    · obtain ⟨op, got, hm, ha⟩ := hinc
      have h1 : P.accept c cs (.cmd c.opCaset) = { P with undef := true } := by
        simp [Panel.accept, hl, Panel.acceptCmd, hm, ha]
      have hd : ({ P with undef := true } : Panel).listening c cs = false := by simp [Panel.listening]
      have hQ : Q = { P with undef := true } := by
        show List.foldl _ _ _ = _
        rw [hcons, List.foldl_cons, h1]
        exact deaf_ignores hd (fun t ht => windowItems_written c c0 c1 r0 r1 t (List.mem_of_mem_tail ht))
      rw [hQ]
      exact ⟨rfl, .inl hd⟩
    · have hl' : ({ P with mode := .idle } : Panel).listening c cs = true := by rw [← hl]; rfl
      have h1 : P.accept c cs (.cmd c.opCaset) = ({ P with mode := .idle } : Panel).accept c cs (.cmd c.opCaset) := by
        simp only [Panel.accept, hl, hl', if_true, Panel.acceptCmd]
        cases hm : P.mode with
        | idle => simp
        | memWrite => simp
        | args op got =>
          have ha : argsComplete c op got = true := by
            by_contra hh
            exact hinc ⟨op, got, hm, by simpa using hh⟩
          simp [ha]
      have hQ : Q = (windowItems c c0 c1 r0 r1).foldl (Panel.accept c cs) { P with mode := .idle } := by
        show List.foldl _ _ _ = _
        rw [hcons, List.foldl_cons, List.foldl_cons, h1]
      rw [hQ, window_arms hc hl' (.inl rfl)]
      exact ⟨rfl, .inr ⟨rfl, rfl, rfl, rfl⟩⟩

end Sys2Proof.Machine
end

