-- ==== Sys2Proof/Laws/Init.lean ====
section
/-! SUPPORT. The parts of INIT (41_controller_session.md rule R164): the bus lines after the reset pulse train, the items of the
power-on sequence, and the panel that has taken it (20_memory.md rules R78, R80, R87). -/

namespace Sys2Proof.Machine

/-! ### The panel and `INIT_SEQ` -/

/-- R8: entry `i` of `INIT_SEQ` is found by its opcode, which is none of the three window opcodes. -/
theorem initIndex_entry {c : Cfg} (h : c.wf = true) {i : Nat} {e : PanelCommand} (he : c.initSeq[i]? = some e) :
    initIndex? c e.op = some i ∧ initData c i = e.data ∧ e.op ≠ c.opCaset ∧ e.op ≠ c.opPaset ∧ e.op ≠ c.opRamwr := by
  have hn : c.panelOpcodes.Nodup := by simp only [Cfg.wf, Bool.and_eq_true, decide_eq_true_eq] at h; exact h.1.2
  rw [Cfg.panelOpcodes, List.nodup_append] at hn
  obtain ⟨-, hseq, hdisj⟩ := hn
  obtain ⟨hi, he'⟩ := List.getElem?_eq_some_iff.1 he
  have hmem : e.op ∈ c.initSeq.map (·.op) := List.mem_map.2 ⟨e, List.mem_of_getElem? he, rfl⟩
  refine ⟨?_, by simp [initData, he], ?_, ?_, ?_⟩
  · rw [initIndex?, List.findIdx?_eq_some_iff_getElem]
    refine ⟨hi, by simp [he'], fun j hj => ?_⟩
    simp only [beq_iff_eq]
    intro hop
    have := List.nodup_iff_injective_get.1 hseq (a₁ := ⟨j, by simp; omega⟩) (a₂ := ⟨i, by simpa using hi⟩) (by simp [hop, he'])
    simp at this
    omega
  all_goals exact fun hop => hdisj _ (by simp) _ hmem hop.symm

theorem initIndex_none {c : Cfg} {b : Byte} : initIndex? c b = none ↔ ∀ e ∈ c.initSeq, e.op ≠ b := by
  simp [initIndex?, List.findIdx?_eq_none_iff]

/-- What a complete argument list is, without the search (R80, R81, R82, R87). -/
theorem argsComplete_iff {c : Cfg} (h : c.wf = true) (op : Byte) (got : List Byte) :
    argsComplete c op got = true ↔
      ((op = c.opCaset ∨ op = c.opPaset) ∧ got.length = 4) ∨ ∃ e ∈ c.initSeq, op = e.op ∧ got = e.data := by
  simp only [argsComplete]
  split <;> rename_i ho
  · simp only [beq_iff_eq, ho, true_and]
    refine ⟨.inl, ?_⟩
    rintro (hl | ⟨e, he, rfl, -⟩)
    · exact hl
    · obtain ⟨i, hi⟩ := List.getElem?_of_mem he
      have := initIndex_entry h hi
      tauto
  · simp only [ho, false_and, false_or]
    cases hx : initIndex? c op with
    | none =>
      have hn := initIndex_none.1 hx
      simp only [Bool.false_eq_true, false_iff, not_exists, not_and]
      exact fun e he hop => absurd hop.symm (hn e he)
    | some i =>
      simp only [beq_iff_eq]
      constructor
      · rintro rfl
        rw [initIndex?, List.findIdx?_eq_some_iff_getElem] at hx
        obtain ⟨hi, hop, -⟩ := hx
        exact ⟨_, List.getElem_mem hi, (beq_iff_eq.1 hop).symm, by simp [initData, hi]⟩
      · rintro ⟨e, he, rfl, rfl⟩
        obtain ⟨j, hj⟩ := List.getElem?_of_mem he
        obtain ⟨hj', hd, -⟩ := initIndex_entry h hj
        rw [hx] at hj'
        cases hj'
        exact hd.symm

/-- The items of one entry of the power-on sequence. -/
def entryItems (e : PanelCommand) : List Transaction := .cmd e.op :: e.data.map .dat

/-- The data bytes that complete an entry's argument list (R87). -/
theorem entryData_taken {c : Cfg} (hc : c.wf = true) {cs : Latch Level} {i : Nat} {e : PanelCommand}
    (he : c.initSeq[i]? = some e) :
    ∀ (bs got : List Byte) (P : Panel), P.listening c cs = true → P.mode = .args e.op got → got ++ bs = e.data → bs ≠ [] →
      (bs.map Transaction.dat).foldl (Panel.accept c cs) P = { P with mode := .idle, cfgDone := P.cfgDone.set i true } := by
  obtain ⟨hidx, hdata, h1, h2, -⟩ := initIndex_entry hc he
  intro bs
  induction bs with
  | nil => intro _ _ _ _ _ h; contradiction
  | cons b bs ih =>
    intro got P hl hm hgot _
    simp only [List.map_cons, List.foldl_cons]
    cases bs with
    | nil => simp [Panel.accept, hl, Panel.acceptDat, hm, Panel.acceptArg, h1, h2, hidx, hdata, hgot]
    | cons b' bs =>
      have hne : got ++ [b] ≠ e.data := by
        intro h
        have hlen := congrArg List.length (hgot.trans h.symm)
        simp at hlen
      have hpre : (got ++ [b]).isPrefixOf e.data = true := by
        rw [List.isPrefixOf_iff_prefix, ← hgot]
        exact ⟨b' :: bs, by simp⟩
      have hstep : P.accept c cs (.dat b) = { P with mode := .args e.op (got ++ [b]) } := by
        simp [Panel.accept, hl, Panel.acceptDat, hm, Panel.acceptArg, h1, h2, hidx, hdata, hne, hpre]
      rw [hstep, ih (got ++ [b]) _ (by rw [← hl]; exact Panel.listening_congr rfl rfl) rfl (by simpa using hgot) (by simp)]

/-- A panel outside an argument list takes a whole entry (R80, R87). -/
theorem entry_taken {c : Cfg} (hc : c.wf = true) {cs : Latch Level} {i : Nat} {e : PanelCommand} (he : c.initSeq[i]? = some e)
    {P : Panel} (hl : P.listening c cs = true) (hm : P.mode = .idle ∨ P.mode = .memWrite) :
    (entryItems e).foldl (Panel.accept c cs) P =
      { P with half := none, mode := .idle, cfgDone := P.cfgDone.set i true } := by
  obtain ⟨hidx, hdata, h1, h2, h3⟩ := initIndex_entry hc he
  simp only [entryItems, List.foldl_cons]
  by_cases hd : e.data = []
  · rcases hm with hm | hm <;> simp [Panel.accept, hl, Panel.acceptCmd, hm, h1, h2, h3, hidx, hdata, hd]
  · have hstep : P.accept c cs (.cmd e.op) = { P with half := none, mode := .args e.op [] } := by
      rcases hm with hm | hm <;> simp [Panel.accept, hl, Panel.acceptCmd, hm, h1, h2, h3, hidx, hdata, hd]
    rw [hstep, entryData_taken hc he e.data [] _ (by rw [← hl]; exact Panel.listening_congr rfl rfl) rfl rfl hd]

/-- The entries from number `k` on, in order, set their bits and leave the panel idle. -/
theorem entries_taken {c : Cfg} (hc : c.wf = true) {cs : Latch Level} :
    ∀ (es : List PanelCommand) (k : Nat) (P : Panel), c.initSeq.drop k = es →
      P.listening c cs = true → P.mode = .idle → P.half = none →
      (es.flatMap entryItems).foldl (Panel.accept c cs) P =
        { P with cfgDone := (List.range es.length).foldl (fun d j => d.set (k + j) true) P.cfgDone } := by
  intro es
  induction es with
  | nil => intro k P _ _ _ _; rfl
  | cons e es ih =>
    intro k P hes hl hm hh
    have he : c.initSeq[k]? = some e := by rw [← Nat.add_zero k, ← List.getElem?_drop, hes]; rfl
    rw [List.flatMap_cons, List.foldl_append, entry_taken hc he hl (.inl hm),
      ih (k + 1) _ (by rw [← List.tail_drop, hes]; rfl)
        (by rw [← hl]; exact Panel.listening_congr rfl rfl) rfl rfl]
    simp only [List.length_cons, List.range_succ_eq_map, List.foldl_cons, List.foldl_map, Nat.add_zero, ← hm, ← hh]
    simp only [Nat.succ_eq_add_one, Nat.add_assoc, Nat.add_comm 1]

/-- R164 step 4: a panel fresh from reset that takes the whole power-on sequence is configured and idle. -/
theorem powerOn_taken {c : Cfg} (hc : c.wf = true) {cs : Latch Level} {P : Panel} (hl : P.listening c cs = true)
    (hm : P.mode = .idle) (hh : P.half = none) (hd : P.cfgDone = List.replicate 5 false) :
    (c.initSeq.flatMap entryItems).foldl (Panel.accept c cs) P = { P with cfgDone := List.replicate 5 true } := by
  have hlen : c.initSeq.length = 5 := by simp only [Cfg.wf, Bool.and_eq_true, decide_eq_true_eq] at hc; exact hc.1.1.2
  rw [entries_taken hc c.initSeq 0 P rfl hl hm hh, hlen, hd]
  rfl

/-! ### The bus -/

theorem sends_powerOnEntry (e : PanelCommand) : ∃ rs d, Sends (powerOnEntry e) (entryItems e) rs d := by
  have key : ∀ (bs : List Byte) (a : List PinEvent) (i : List Transaction) (r : Level) (d : Byte), Sends a i r d →
      ∃ rs d', Sends (a ++ bs.flatMap writeData) (i ++ bs.map .dat) rs d' := by
    intro bs
    induction bs with
    | nil => intro a i r d h; exact ⟨r, d, by simpa using h⟩
    | cons b bs ih =>
      intro a i r d h
      obtain ⟨rs, d', h'⟩ := ih _ _ _ _ (h.append (sends_writeData b))
      exact ⟨rs, d', by simpa [List.append_assoc] using h'⟩
  obtain ⟨rs, d, h⟩ := key e.data _ _ _ _ (sends_writeCommand e.op)
  exact ⟨rs, d, h⟩

/-- The power-on sequence on the bus, R164 step 4. -/
theorem sends_powerOn : ∀ es : List PanelCommand, es ≠ [] →
    ∃ rs d, Sends (es.flatMap powerOnEntry) (es.flatMap entryItems) rs d := by
  intro es
  induction es with
  | nil => intro h; contradiction
  | cons e es ih =>
    intro _
    obtain ⟨r, d, h⟩ := sends_powerOnEntry e
    by_cases hes : es = []
    · subst hes; exact ⟨r, d, by simpa using h⟩
    · obtain ⟨r', d', h'⟩ := ih hes
      exact ⟨r', d', by simpa using h.append h'⟩

/-- R164 steps 1 to 3: the levels after the reset pulse train, whatever they were before. -/
theorem pins_bringUpLines (c : Cfg) (p : Pins) :
    pinsAfter p (bringUpLines c) =
      { p with rst := .is c.rstALevel, cs := .is c.csIdleLevel, wr := .is .high, rd := .is .high, ddir := .is .out,
               ctlOut := true } := rfl

end Sys2Proof.Machine
end

