-- ==== Sys2Proof/Laws/PerInstr.lean ====
section
/-! SUPPORT. One fact per constructor of Instr: the shape of its encoding (30_encoding.md rules R111, R113, R115). -/

namespace Sys2Proof.Laws.EncodedShape

/-- The formats of rule R111. -/
inductive Format where
  | n | b | h | w | r | s
  deriving DecidableEq, Repr

/-- The format column of rule R113. -/
def formatOf : Mnemonic → Format
  | .wrb => .b
  | .selc => .n
  | .seld => .n
  | .rdb => .n
  | .init => .n
  | .cmd => .b
  | .dat => .b
  | .win => .w
  | .rect => .r
  | .clr => .b
  | .chr => .b
  | .str => .s
  | .int => .h
  | .era => .b
  | .nl => .n
  | .siz => .b
  | .fgc => .h
  | .bgc => .h

/-- The total length of a command by its format, rule R111; the length byte of format S is byte 1. -/
def totalLength (bytes : List Byte) : Format → Nat
  | .n => 1
  | .b => 2
  | .h => 3
  | .w => 9
  | .r => 11
  | .s => 2 + (bytes.getD 1 0).toNat

/-- A command that has an encoding starts with its opcode byte and is exactly as long as its format says. -/
def Statement (i : Instr) : Prop :=
  i.wf = true →
    (encode i).head? = some i.mnemonic.opcode ∧ (encode i).length = totalLength (encode i) (formatOf i.mnemonic)

theorem wrb (a : Byte) : Statement (.wrb a) := fun _ => ⟨rfl, rfl⟩
theorem selc : Statement .selc := fun _ => ⟨rfl, rfl⟩
theorem seld : Statement .seld := fun _ => ⟨rfl, rfl⟩
theorem rdb : Statement .rdb := fun _ => ⟨rfl, rfl⟩
theorem init : Statement .init := fun _ => ⟨rfl, rfl⟩
theorem cmd (a : Byte) : Statement (.cmd a) := fun _ => ⟨rfl, rfl⟩
theorem dat (a : Byte) : Statement (.dat a) := fun _ => ⟨rfl, rfl⟩
theorem win (col row width height : Half) : Statement (.win col row width height) := fun _ => ⟨rfl, rfl⟩
theorem rect (col row width height color : Half) : Statement (.rect col row width height color) := fun _ => ⟨rfl, rfl⟩
theorem clr (a : Byte) : Statement (.clr a) := fun _ => ⟨rfl, rfl⟩
theorem chr (a : Byte) : Statement (.chr a) := fun _ => ⟨rfl, rfl⟩
theorem str (syms : List Byte) : Statement (.str syms) := fun h => by
  have hl : syms.length ≤ 255 := by simpa [Instr.wf] using h
  refine ⟨rfl, ?_⟩
  simp [encode, Instr.operandBytes, Instr.mnemonic, formatOf, totalLength, Nat.mod_eq_of_lt (Nat.lt_succ_of_le hl)]
  omega
theorem int (h : Half) : Statement (.int h) := fun _ => ⟨rfl, rfl⟩
theorem era (a : Byte) : Statement (.era a) := fun _ => ⟨rfl, rfl⟩
theorem nl : Statement .nl := fun _ => ⟨rfl, rfl⟩
theorem siz (a : Byte) : Statement (.siz a) := fun _ => ⟨rfl, rfl⟩
theorem fgc (h : Half) : Statement (.fgc h) := fun _ => ⟨rfl, rfl⟩
theorem bgc (h : Half) : Statement (.bgc h) := fun _ => ⟨rfl, rfl⟩

end Sys2Proof.Laws.EncodedShape
end

