-- ==== Sys2Proof/Tests/Slice0.lean ====
section
/-! SUPPORT. Own tests: ill-formed terms are refused, words written out from 30_encoding.md and 95_test_vectors.md decode to
their commands, single steps with the results those files give, and a witness for the hypotheses of every statement. -/

namespace Sys2Proof.Tests

open Sys2Proof.Machine

/-! ### Well-formedness: R111, format S -/

theorem test_str_of_255_is_wf : (Instr.str (List.replicate 255 0x41)).wf = true := by
  rw [Instr.wf, List.length_replicate]; decide
theorem test_str_of_256_is_refused : (Instr.str (List.replicate 256 0x41)).wf = false := by
  rw [Instr.wf, List.length_replicate]; decide

/-! ### Decoding: the words of 95_test_vectors.md section 2, each written out bit by bit from R111 and R113 -/

theorem test_decode_wrb : decode [0b00000001, 0b01011010] = .command (.wrb 0x5A) [] := by decide
theorem test_decode_selc : decode [0b00000010] = .command .selc [] := by decide
theorem test_decode_seld : decode [0b00000011] = .command .seld [] := by decide
theorem test_decode_rdb : decode [0b00000100] = .command .rdb [] := by decide
theorem test_decode_init : decode [0b00010000] = .command .init [] := by decide
theorem test_decode_cmd : decode [0b00010001, 0b00101001] = .command (.cmd 0x29) [] := by decide
theorem test_decode_dat : decode [0b00010010, 0b11111000] = .command (.dat 0xF8) [] := by decide
theorem test_decode_win : decode [0b00010011, 0, 0b00000010, 0, 0b00000010, 0, 0b00000110, 0, 0b00001000] =
    .command (.win 2 2 6 8) [] := by decide
theorem test_decode_win_negative : decode [0b00010011, 0xFF, 0xFF, 0, 0, 0, 1, 0, 1] =
    .command (.win (BitVec.ofInt 16 (-1)) 0 1 1) [] := by decide
theorem test_decode_rect : decode [0b00010100, 0, 0b00001010, 0, 0b00010100, 0, 0b00000010, 0, 0b00000001, 0b11111000, 0] =
    .command (.rect 10 20 2 1 0xF800) [] := by decide
theorem test_decode_clr : decode [0b00100000, 0b00001100] = .command (.clr 0x0C) [] := by decide
theorem test_decode_chr : decode [0b00110000, 0b01000001] = .command (.chr 0x41) [] := by decide
theorem test_decode_str : decode [0b00110001, 0b00000010, 0b01001000, 0b01101001] = .command (.str [0x48, 0x69]) [] := by decide
theorem test_decode_str_empty : decode [0b00110001, 0] = .command (.str []) [] := by decide
theorem test_decode_int : decode [0b00110010, 0b11111111, 0b10001000] = .command (.int (BitVec.ofInt 16 (-120))) [] := by decide
theorem test_decode_era : decode [0b00110011, 0b00000010] = .command (.era 2) [] := by decide
theorem test_decode_nl : decode [0b00110100] = .command .nl [] := by decide
theorem test_decode_siz : decode [0b01000000, 0b00000011] = .command (.siz 3) [] := by decide
theorem test_decode_fgc : decode [0b01000001, 0b11111000, 0] = .command (.fgc 0xF800) [] := by decide
theorem test_decode_bgc : decode [0b01000010, 0, 0b00011111] = .command (.bgc 0x001F) [] := by decide
/-- The stream of R115's example: the first command and what is left. -/
theorem test_decode_stream : decode [0x10, 0x40, 0x02, 0x31, 0x02, 0x48, 0x69, 0x34, 0x04] =
    .command .init [0x40, 0x02, 0x31, 0x02, 0x48, 0x69, 0x34, 0x04] := by decide
theorem test_decode_truncated : decode [0x31, 0x03, 0x41, 0x42] = .truncated := by decide
/-- The ends of the illegal ranges of R116, and the legal bytes beside them. -/
theorem test_decode_illegal_ends :
    (∀ b ∈ [0x00, 0x05, 0x0F, 0x15, 0x1F, 0x21, 0x2F, 0x35, 0x3F, 0x43, 0xFF], decode [b] = .illegal b []) ∧
    ∀ b ∈ [0x01, 0x04, 0x10, 0x14, 0x20, 0x30, 0x34, 0x40, 0x42], decode [b] ≠ .illegal b [] := by decide

/-- Table words of spec/opcode_table.json, with and without the operand bytes. -/
theorem test_table_words :
    decodeTableWord 16 0x5A01 = some (.wrb 0x5A) ∧ decodeTableWord 8 0x31 = some (.str []) ∧
    decodeTableWord 8 0x13 = some (.win 0 0 0 0) ∧ decodeTableWord 24 0x88FF32 = some (.int (BitVec.ofInt 16 (-120))) ∧
    decodeTableWord 8 0x05 = none := by decide
theorem test_fetch_word_runs : step (State.reset.withFetchWord 16 0x0020) = exec (.clr 0) State.reset := by rfl

/-! ### Machines for the single steps -/

/-- TINY of 95_test_vectors.md. -/
def tiny : Cfg := { Config.ref with screenW := 16, screenH := 20, gap := 1, wrapLimit := 16 }

/-- The 2 x 1 panel of vector T11. -/
def pair : Cfg := { Config.ref with screenW := 2, screenH := 1, gap := 0, wrapLimit := 2 }

/-- The panel of `c` after INIT, its frame memory aside: defined, configured, in memory-write mode at the screen's start. -/
def armed (c : Cfg) : Panel :=
  { Panel.powerUp with
    undef := false, mode := .memWrite, c0 := .is 0, c1 := .is (BitVec.ofNat 16 (c.screenW - 1)), r0 := .is 0
    r1 := .is (BitVec.ofNat 16 (c.screenH - 1)), x := .is 0, y := .is 0, cfgDone := List.replicate 5 true }

/-- A running block between commands, `rs` at 1 and `dout` at 0x00 as after INIT, with the given cursor and size. -/
def ready (c : Cfg) (col row : Half) (size : Byte) : State :=
  { State.resetOf c with
    col := col, row := row, size := size, ready := true, panel := armed c
    pins := ⟨.is c.rstALevel, .is c.csIdleLevel, .is .high, .is .high, .is .high, .is .out, .is 0, true⟩ }

/-- The same with the panel outside any stream (after `CMD 0x29`, vector T23). -/
def readyIdle (c : Cfg) (col row : Half) (size : Byte) : State :=
  { ready c col row size with panel := { armed c with mode := .idle } }

/-- A field of the next state. -/
def got {α : Type} (f : State → α) : Out → Option α
  | .next s => some (f s)
  | .fault _ => none
  | .refused _ => none

/-- The items a command put on the bus of a block that started at `ready`. -/
def items (s : State) : List Transaction :=
  transactions ⟨.is s.cfg.rstALevel, .is s.cfg.csIdleLevel, .is .high, .is .high, .is .high, .is .out, .is 0, true⟩ s.trace

def after2 (i j : Instr) (s : State) : Out := execAll [i, j] s

/-! ### Single steps, results from 95_test_vectors.md -/

/-- T1. -/
theorem test_wrb_events : got (·.trace) (exec (.wrb 0x5A) (ready tiny 1 2 1)) =
    some [.drive 0x5A, .set .wr .low, .set .wr .high] := by decide
/-- T1: the panel takes the byte as the high byte of a pixel. -/
theorem test_wrb_half_pixel : got (fun s => (s.panel.half, s.pins.dout)) (exec (.wrb 0x5A) (ready tiny 1 2 1)) =
    some (some 0x5A, .is 0x5A) := by decide
/-- T1: after SELC a WRB is a command. -/
theorem test_selc_then_wrb : got items (after2 .selc (.wrb 0x2C) (ready tiny 1 2 1)) = some [.cmd 0x2C] := by decide
/-- R146's example. -/
theorem test_seld_then_wrb : got items (execAll [.selc, .seld, .wrb 0x12] (ready tiny 1 2 1)) = some [.dat 0x12] := by decide
/-- T2: after an RDB a WRB is data, though the command register was selected; the panel becomes undefined. -/
theorem test_rdb_selects_data : got (fun s => (s.pins.rs, s.pins.ddir, s.pins.rd, s.panel.undef, s.respOut.length))
    (after2 .selc .rdb (ready tiny 1 2 1)) = some (.is .high, .is .out, .is .high, true, 1) := by decide
/-- R238, R261: a hardware reset clears the block, and the panel keeps its pixels and its window but is undefined. -/
theorem test_hardwareReset_keeps_panel : got (fun s => ((hardwareReset s).fault, (hardwareReset s).ready,
      (hardwareReset s).panel.gram.read (pixelKey 1 0), (hardwareReset s).panel.c1, (hardwareReset s).panel.undef))
    (execAll [.rect 0 0 2 1 0x1234, .siz 0] (ready tiny 1 2 1)) =
    some (false, false, .is 0x1234, .is 1, true) := by decide
/-- R260: RECT abandoned after its window (11 bytes of four pin events each), one pixel and one byte: one pixel is in frame
memory, half a pixel waits, memory-write mode stands, and the panel is undefined. -/
theorem test_hardwareReset_abandons_rect :
    let s : State := { ready tiny 1 2 1 with cmdIn := encode (.rect 0 0 2 1 0x1234) }
    (hardwareResetDuring 56 s).panel.gram = [(pixelKey 0 0, 0x1234)] ∧
      (hardwareResetDuring 56 s).panel.half = some 0x12 ∧ (hardwareResetDuring 56 s).panel.mode = .memWrite ∧
      (hardwareResetDuring 56 s).panel.undef = true ∧ (hardwareResetDuring 56 s).cp = 0 := by decide
/-- R260, R164: INIT abandoned in the middle phase of its reset pulse leaves the panel held in reset. -/
theorem test_hardwareReset_abandons_init :
    (hardwareResetDuring 5 { State.resetOf pair with cmdIn := [0x10] }).panel.inReset = true := by decide
/-- T23: an RDB on an idle panel leaves it defined. -/
theorem test_rdb_idle : got (fun s => (s.panel.undef, s.panel.mode)) (exec .rdb (readyIdle tiny 1 2 1)) =
    some (false, .idle) := by decide
/-- T6. -/
theorem test_cmd_display_on : got (fun s => (s.trace, s.panel.mode, s.panel.undef)) (exec (.cmd 0x29) (ready tiny 1 2 1)) =
    some ([.set .rs .low, .drive 0x29, .set .wr .low, .set .wr .high], .idle, false) := by decide
/-- T6: an opcode that is none of the eight. -/
theorem test_cmd_unknown : got (·.panel.undef) (exec (.cmd 0x28) (ready tiny 1 2 1)) = some true := by decide
/-- T6: data in `Idle`. -/
theorem test_dat_idle : got (fun s => (s.panel.undef, s.pins.rs)) (exec (.dat 0xF8) (readyIdle tiny 1 2 1)) =
    some (true, .is .high) := by decide
/-- T3. -/
theorem test_win_items : got (fun s => (items s, s.pins.rs, s.pins.dout)) (exec (.win 2 2 6 8) (ready tiny 1 2 1)) =
    some ([.cmd 0x2A, .dat 0, .dat 2, .dat 0, .dat 7, .cmd 0x2B, .dat 0, .dat 2, .dat 0, .dat 9, .cmd 0x2C],
      .is .low, .is 0x2C) := by decide
/-- T3: the largest window; T4: the first failing field. -/
theorem test_win_ends : got items (exec (.win 32767 32767 32767 32767) (ready tiny 1 2 1)) =
      some [.cmd 0x2A, .dat 0x7F, .dat 0xFF, .dat 0xFF, .dat 0xFD, .cmd 0x2B, .dat 0x7F, .dat 0xFF, .dat 0xFF, .dat 0xFD,
        .cmd 0x2C] ∧
    got (fun s => (s.fcause, s.finfo, s.trace)) (exec (.win 0 0 (BitVec.ofInt 16 (-5)) 3) (ready tiny 1 2 1)) =
      some (5, 2, []) := by decide
/-- T5, on TINY: two pixels get the colour, the next one keeps its value, the cursor stays. -/
theorem test_rect_pixels : got (fun s => (screen s 10 15, screen s 11 15, screen s 12 15, s.col, s.row))
    (exec (.rect 10 15 2 1 0xF800) (ready tiny 1 2 1)) = some (.is 0xF800, .is 0xF800, .x, 1, 2) := by decide
/-- T4, T5: a bad height; a rectangle past the screen. -/
theorem test_rect_edges :
    got (fun s => (s.fcause, s.finfo)) (exec (.rect 0 0 1 (BitVec.ofInt 16 (-1)) 0xFFFF) (ready tiny 1 2 1)) = some (5, 3) ∧
    got (fun s => (s.fault, s.panel.undef)) (exec (.rect 15 0 2 1 0xFFFF) (ready tiny 1 2 1)) = some (false, true) := by decide
/-- T11 and R184: CLR and RECT send the same items. -/
theorem test_clr_pair : got items (exec (.clr 0x0C) (ready pair 0 2 1)) = got items (exec (.rect 0 0 2 1 0x0C0C) (ready pair 0 2 1)) ∧
    got (fun s => (screen s 0 0, screen s 1 0)) (exec (.clr 0x0C) (ready pair 0 2 1)) = some (.is 0x0C0C, .is 0x0C0C) := by decide
/-- E7: the cursor returns to `(GAP, 2)`. -/
theorem test_clr_cursor : got (fun s => (s.col, s.row)) (exec (.clr 0) (ready pair 8 11 1)) = some (0, 2) := by decide
/-- P1's first items and end state, on the 2 x 1 panel. -/
theorem test_init_first_items : got (fun s => (transactions Pins.unset s.trace).take 16) (exec .init (State.resetOf pair)) =
    some [.rstLevel .high, .wait 10, .rstLevel .low, .wait 20, .rstLevel .high, .wait 20, .csLevel .low, .cmd 0xF7, .dat 0x20,
      .cmd 0x3A, .dat 0x55, .cmd 0x36, .dat 0x48, .cmd 0x11, .cmd 0x29, .wait 120] := by decide
theorem test_init_end : got (fun s => (s.ready, s.col, s.row, s.pins.rs, s.pins.cs)) (exec .init (State.resetOf pair)) =
    some (true, 0, 2, .is .high, .is .low) := by decide
/-- T7: the colours of `A`, the cursor after it. -/
theorem test_chr_a : rasterStream Config.ref 0x41 1 1 0 =
    [0,1,1,1,1,1,1,0, 1,0,0,0,1,0,0,0, 1,0,0,0,1,0,0,0, 1,0,0,0,1,0,0,0, 0,1,1,1,1,1,1,0, 0,0,0,0,0,0,0,0] := by decide
/-- P3: `c` at column 13 of TINY wraps to `(1, 11)`. -/
theorem test_chr_wraps : got (fun s => (s.col, s.row, (items s).take 11)) (exec (.chr 0x63) (ready tiny 13 2 1)) =
    some (7, 11, [.cmd 0x2A, .dat 0, .dat 1, .dat 0, .dat 6, .cmd 0x2B, .dat 0, .dat 11, .dat 0, .dat 18, .cmd 0x2C]) := by decide
/-- T15: a bad symbol mid-way; T15: the empty string. -/
theorem test_str_bad_symbol : got (fun s => (s.col, s.fcause, s.finfo)) (exec (.str [0x41, 0x00, 0x43]) (ready Config.ref 2 2 1)) =
    some (8, 3, 0) := by decide
theorem test_str_empty : got (fun s => (s.col, s.trace, s.cp)) (exec (.str []) (ready tiny 1 2 1)) = some (1, [], 1) := by decide
/-- T12. -/
theorem test_dec : dec 0 = [0x30] ∧ dec (-120) = [0x2D, 0x31, 0x32, 0x30] ∧
    dec (-32768) = [0x2D, 0x33, 0x32, 0x37, 0x36, 0x38] := by decide
/-- T12: the end cursor of `INT -1`. -/
theorem test_int_cursor : got (fun s => (s.col, s.row)) (exec (.int (BitVec.ofInt 16 (-1))) (ready Config.ref 2 2 1)) =
    some (14, 2) := by decide
/-- T16 with one cell: the window at `(26, 2)`, by R199. -/
theorem test_era_window : got (fun s => ((items s).take 11, s.col)) (exec (.era 1) (ready Config.ref 26 2 1)) =
    some ([.cmd 0x2A, .dat 0, .dat 0x1A, .dat 0, .dat 0x1F, .cmd 0x2B, .dat 0, .dat 2, .dat 0, .dat 9, .cmd 0x2C], 26) := by
  decide
/-- T16: `ERA 0`, and `SIZ 22; ERA 255`. -/
theorem test_era_refusals :
    got (fun s => (s.fcause, s.finfo)) (exec (.era 0) (ready Config.ref 2 2 1)) = some (5, 2) ∧
    got (fun s => (s.fcause, s.finfo)) (exec (.era 255) (ready Config.ref 2 2 22)) = some (6, 0x837C) := by decide
/-- T17. -/
theorem test_nl : got (fun s => (s.col, s.row)) (exec .nl (ready Config.ref 2 2 2)) = some (2, 20) ∧
    got (fun s => (s.row, s.fcause, s.finfo)) (exec .nl (ready Config.ref 2 32132 255)) = some (32132, 6, 0x867B) := by decide
/-- T20. -/
theorem test_siz : got (·.size) (exec (.siz 3) (ready tiny 1 2 1)) = some 3 ∧
    got (fun s => (s.size, s.fcause, s.finfo)) (exec (.siz 0) (ready tiny 1 2 1)) = some (1, 4, 0) := by decide
theorem test_colors : got (fun s => (s.fg, s.bg)) (after2 (.fgc 0xF800) (.bgc 0x001F) (ready tiny 1 2 1)) =
    some (0xF800, 0x001F) := by decide
/-- T21, T22: the first command is not INIT; an illegal byte; a halted block ignores INIT. -/
theorem test_not_ready : got (fun s => (s.fcause, s.finfo, s.pins.ctlOut, s.cp)) (after2 (.clr 0) .init State.reset) =
    some (2, 0x20, false, 2) := by decide
theorem test_illegal_first : got (fun s => (s.fcause, s.finfo, s.cmdIn)) (step (State.reset.withFetchWord 8 0x05)) =
    some (1, 5, []) := by decide

/-- The memory after reset has the canonical form. -/
theorem test_reset_memory_wf : State.reset.panel.gram.wf = true := by decide

/-! ### Witnesses: for each statement with hypotheses, a state and operands that meet all of them, at the boundary of each
clause where it has several -/

theorem pins_ready (c : Cfg) (col row : Half) (size : Byte) : PinsIdle (ready c col row size).cfg (ready c col row size).pins :=
  ⟨rfl, rfl, rfl, rfl, rfl, rfl, by simp [ready], by simp [ready]⟩

theorem inv_ready {c : Cfg} {col row : Half} {size : Byte} (hc : c.wf = true) (hs : size ≠ 0) (h1 : 0 ≤ col.toInt)
    (h2 : 2 ≤ row.toInt) : BlockInv (ready c col row size) :=
  ⟨hc, hs, h1, h2, fun _ => pins_ready c col row size, fun h => by simp [ready] at h, fun _ => ⟨rfl, rfl⟩,
    fun h => by simp [ready, State.resetOf] at h⟩

theorem running_ready (c : Cfg) (col row : Half) (size : Byte) : Running (ready c col row size) := ⟨rfl, rfl⟩

theorem inv_reset {c : Cfg} (hc : c.wf = true) (hs : c.sizeReset ≠ 0) (h : 0 ≤ (BitVec.ofNat 16 c.gap).toInt) :
    BlockInv (State.resetOf c) :=
  ⟨hc, hs, h, by rfl, fun h => by simp [State.resetOf] at h, fun _ => rfl, fun _ => ⟨rfl, rfl⟩,
    fun h => by simp [State.resetOf] at h⟩

theorem panel_ready (col row : Half) (size : Byte) :
    PanelReady tiny (ready tiny col row size).pins.cs (ready tiny col row size).panel := ⟨rfl, rfl, .inr rfl⟩

theorem panel_ready_idle (col row : Half) (size : Byte) :
    PanelReady tiny (readyIdle tiny col row size).pins.cs (readyIdle tiny col row size).panel := ⟨rfl, rfl, .inl rfl⟩

/-- The machine most witnesses use: TINY, running, cursor at `(1, 2)`. -/
def one : State := ready tiny 1 2 1

theorem one_inv : BlockInv one := inv_ready (by decide) (by decide) (by decide) (by decide)
theorem one_running : Running one := running_ready ..
theorem one_pins : PinsIdle one.cfg one.pins := pins_ready ..
theorem one_panel : PanelReady one.cfg one.pins.cs one.panel := panel_ready ..

/-- A configuration whose left gap is as far right as R8 allows. -/
def farGap : Cfg := { Config.ref with screenW := 32767, gap := 32766, wrapLimit := 0 }

/-- A configuration whose wrap limit no cursor reaches. -/
def farLimit : Cfg := { Config.ref with wrapLimit := 40000 }

/-- TINY with the row index running first (vector T24). -/
def tinyRow : Cfg := { tiny with panelFastAxis := .row }

/-- The same machine with bytes pending. -/
def pending (bs : List Byte) : State := { one with cmdIn := bs }

theorem pending_inv (bs : List Byte) : BlockInv (pending bs) :=
  ⟨one_inv.cfg, one_inv.size, one_inv.col, one_inv.row,
    fun _ => one_pins, fun h => by simp [pending, one, ready] at h, fun _ => ⟨rfl, rfl⟩,
    fun h => by simp [pending, one, ready, State.resetOf] at h⟩

theorem witness_encodeThenDecode : (Instr.str []).wf = true ∧ (Instr.str (List.replicate 255 0x41)).wf = true :=
  ⟨rfl, test_str_of_255_is_wf⟩
theorem witness_decodeThenEncode : decode [0x31, 0x00, 0x34] = .command (.str []) [0x34] := by decide
theorem witness_illegalOpcodeFaults : (pending [0xFF]).cfg.wf = true ∧ (pending [0xFF]).fault = false ∧
    (pending [0xFF]).cmdIn = [0xFF] ∧ decode [0xFF] = .illegal 0xFF [] := by decide
theorem witness_truncatedCommandIsStuck : (Instr.str [0x41, 0x42, 0x43]).wf = true ∧
    [0x31, 0x03, 0x41, 0x42] <+: encode (.str [0x41, 0x42, 0x43]) ∧
    [0x31, 0x03, 0x41, 0x42] ≠ encode (.str [0x41, 0x42, 0x43]) ∧ (pending [0x31, 0x03, 0x41, 0x42]).cfg.wf = true ∧
    (pending [0x31, 0x03, 0x41, 0x42]).cmdIn = [0x31, 0x03, 0x41, 0x42] ∧ [0x20] <+: encode (.clr 0) := by decide
theorem witness_stepRunsTheDecodedCommand : (pending [0x34, 0x02]).cfg.wf = true ∧
    decode (pending [0x34, 0x02]).cmdIn = .command .nl [0x02] := by decide
theorem witness_noStepWithoutConfigurationOrCommand :
    ¬1 ≤ ({ one with cfg := { tiny with screenW := 0 } } : State).cfg.screenW ∧ one.cfg.wf = true ∧ one.cmdIn = [] := by decide
theorem witness_hardwareResetState : one.cfg.wf = true ∧ farGap.wf = true := by decide
theorem witness_haltedBlockIgnoresEveryCommand : ∃ s t : State, s.fault = true ∧ step s = .next t :=
  ⟨{ one with fault := true, cmdIn := [0x10] }, _, rfl, rfl⟩
theorem witness_notReadyRefusesAllButInit : Instr.clr 0 ≠ .init ∧ State.reset.ready = false ∧ State.reset.fault = false := by decide
theorem witness_wrbWritesOneByte : Running one ∧ PinsIdle one.cfg one.pins ∧ one.pins.rs = .is .high ∧
    ∃ s : State, Running s ∧ PinsIdle s.cfg s.pins ∧ s.pins.rs = .is .low :=
  ⟨one_running, one_pins, rfl, { one with pins := { one.pins with rs := .is .low } }, one_running,
    ⟨rfl, rfl, rfl, rfl, rfl, rfl, by simp, by simp [one, ready]⟩, rfl⟩
theorem witness_selectSetsRegisterSelect : Running one := one_running
theorem witness_rdbReturnsTheSampledByte : Running one ∧ PinsIdle one.cfg one.pins := ⟨one_running, one_pins⟩
theorem witness_readInsideAStreamUndefinesThePanel :
    (Running one ∧ PinsIdle one.cfg one.pins ∧ one.panel.listening one.cfg one.pins.cs = true ∧ one.panel.mode ≠ .idle) ∧
    ∃ s : State, Running s ∧ PinsIdle s.cfg s.pins ∧ s.panel.listening s.cfg s.pins.cs = true ∧ s.panel.mode = .idle :=
  ⟨⟨one_running, one_pins, rfl, by decide⟩, readyIdle tiny 1 2 1, one_running, one_pins, rfl, rfl⟩
theorem witness_cmdAndDatIssueOneByte : Running one ∧ PinsIdle one.cfg one.pins := ⟨one_running, one_pins⟩
theorem witness_winSendsElevenItems : Running one ∧ PinsIdle one.cfg one.pins ∧ 0 ≤ (32767 : Half).toInt ∧
    0 < (32767 : Half).toInt ∧ 0 ≤ (0 : Half).toInt ∧ 0 < (1 : Half).toInt := ⟨one_running, one_pins, by decide⟩
theorem witness_badWindowIsRefused : Running one ∧ (BitVec.ofInt 16 (-1)).toInt < 0 ∧ 0 ≤ (0 : Half).toInt ∧
    (0 : Half).toInt ≤ 0 ∧ 0 < (1 : Half).toInt := ⟨one_running, by decide⟩
theorem witness_rectStreamsTheArea : Running one ∧ PinsIdle one.cfg one.pins ∧ 0 ≤ (0 : Half).toInt ∧ 0 < (1 : Half).toInt :=
  ⟨one_running, one_pins, by decide⟩
theorem witness_initBringsUpTheBlock : (BlockInv (State.resetOf tiny) ∧ (State.resetOf tiny).fault = false) ∧
    BlockInv one ∧ one.fault = false := ⟨⟨inv_reset (by decide) (by decide) (by decide), rfl⟩, one_inv, rfl⟩
theorem witness_clrStreamsOneByteAndHomesTheCursor : Running one ∧ BlockInv one := ⟨one_running, one_inv⟩
theorem witness_clrEqualsFullScreenRect : Running one ∧ BlockInv one ∧ one.cfg.screenW * one.cfg.screenH % 2 = 0 :=
  ⟨one_running, one_inv, by decide⟩
theorem witness_rasterIsTheClosedForm : tiny.wf = true ∧ 0x20 ≤ (0x20 : Byte).toNat ∧ (0x7F : Byte).toNat ≤ 0x7F ∧ 0 < 48 * 1 * 1 ∧
    (0xFFFF : Half) ≠ 0 := by decide
theorem witness_decimalIsTheRecursion : (0 : Int) ≤ 9 ∧ (9 : Int) ≤ 9 ∧ (-32768 : Int) ≤ -32768 ∧ (-32768 : Int) ≤ 32767 ∧
    (0 : Int) ≤ 32767 := by decide
theorem witness_decimalReadsBack : (digits 0).head? = some 0x30 := by decide
theorem witness_chrDrawsAtTheCursor : Running (ready tiny 10 2 1) ∧ BlockInv (ready tiny 10 2 1) ∧
    (ready tiny 10 2 1).col.toInt + 6 * (ready tiny 10 2 1).size.toNat = (ready tiny 10 2 1).cfg.wrapLimit ∧
    (ready tiny 10 2 1).col.toInt + 6 * (ready tiny 10 2 1).size.toNat ≤ 32767 ∧
    0x20 ≤ (0x20 : Byte).toNat ∧ (0x7F : Byte).toNat ≤ 0x7F :=
  ⟨running_ready .., inv_ready (by decide) (by decide) (by decide) (by decide), by decide⟩
theorem witness_chrWrapsToTheNextLine : Running (ready tiny 11 2 1) ∧ BlockInv (ready tiny 11 2 1) ∧
    (ready tiny 11 2 1).cfg.wrapLimit < (ready tiny 11 2 1).col.toInt + 6 * (ready tiny 11 2 1).size.toNat ∧
    (ready tiny 11 2 1).row.toInt + 9 * (ready tiny 11 2 1).size.toNat ≤ 32767 ∧
    ((ready tiny 11 2 1).cfg.gap : Int) + 6 * (ready tiny 11 2 1).size.toNat ≤ 32767 :=
  ⟨running_ready .., inv_ready (by decide) (by decide) (by decide) (by decide), by decide⟩
theorem witness_chrRefusals_symbol : Running one ∧ BlockInv one ∧ (0x1F : Byte).toNat < 0x20 ∧ 0x7F < (0x80 : Byte).toNat :=
  ⟨one_running, one_inv, by decide⟩
theorem witness_chrRefusals_row : Running (ready tiny 11 32759 1) ∧ BlockInv (ready tiny 11 32759 1) ∧
    tiny.wrapLimit < (11 : Half).toInt + 6 * (1 : Byte).toNat ∧ 32767 < (32759 : Half).toInt + 9 * (1 : Byte).toNat :=
  ⟨running_ready .., inv_ready (by decide) (by decide) (by decide) (by decide), by decide⟩
theorem witness_chrRefusals_columnAfterWrap : Running (ready farGap 0 2 1) ∧ BlockInv (ready farGap 0 2 1) ∧
    farGap.wrapLimit < (0 : Half).toInt + 6 * (1 : Byte).toNat ∧ (2 : Half).toInt + 9 * (1 : Byte).toNat ≤ 32767 ∧
    32767 < (farGap.gap : Int) + 6 * (1 : Byte).toNat :=
  ⟨running_ready .., inv_ready (by decide) (by decide) (by decide) (by decide), by decide⟩
theorem witness_chrRefusals_column : Running (ready farLimit 32762 2 1) ∧ BlockInv (ready farLimit 32762 2 1) ∧
    (32762 : Half).toInt + 6 * (1 : Byte).toNat ≤ farLimit.wrapLimit ∧ 32767 < (32762 : Half).toInt + 6 * (1 : Byte).toNat :=
  ⟨running_ready .., inv_ready (by decide) (by decide) (by decide) (by decide), by decide⟩
theorem witness_strIsTheChrSequence : Running one := one_running
theorem witness_strDrawsItsText : Running one ∧ BlockInv one ∧
    (∀ a ∈ ([0x20, 0x7F] : List Byte), 0x20 ≤ a.toNat ∧ a.toNat ≤ 0x7F) ∧ one.cfg.wrapLimit ≤ 32767 ∧
    (one.cfg.gap : Int) + 6 * one.size.toNat ≤ 32767 ∧
    one.row.toInt + 9 * one.size.toNat * ([0x20, 0x7F] : List Byte).length ≤ 32767 := ⟨one_running, one_inv, by decide⟩
theorem witness_intIsStrOfItsDecimal : Running one := one_running
theorem witness_intDrawsItsDecimal : Running one ∧ BlockInv one ∧ one.cfg.wrapLimit ≤ 32767 ∧
    (one.cfg.gap : Int) + 6 * one.size.toNat ≤ 32767 ∧
    one.row.toInt + 9 * one.size.toNat * (dec (-32768)).length ≤ 32767 := ⟨one_running, one_inv, by decide⟩
theorem witness_aLineHoldsThatManyCharacters : Running one ∧ BlockInv one ∧
    (∀ a ∈ ([0x20, 0x7F, 0x41] : List Byte), 0x20 ≤ a.toNat ∧ a.toNat ≤ 0x7F) ∧ one.cfg.wrapLimit ≤ 32767 ∧
    (one.cfg.gap : Int) + 6 * one.size.toNat ≤ 32767 ∧ one.row.toInt + 9 * one.size.toNat ≤ 32767 ∧
    one.col.toInt = one.cfg.gap ∧
    ([0x20, 0x7F, 0x41] : List Byte).length = (one.cfg.wrapLimit - one.cfg.gap).toNat / (6 * one.size.toNat) + 1 :=
  ⟨one_running, one_inv, by decide⟩
theorem witness_eraFloodsWithBackground : Running one ∧ BlockInv one ∧ 1 ≤ (1 : Byte).toNat ∧
    6 * one.size.toNat * (255 : Byte).toNat ≤ 32767 := ⟨one_running, one_inv, by decide⟩
theorem witness_eraRefusals : Running (ready tiny 1 2 22) ∧ BlockInv (ready tiny 1 2 22) ∧
    32767 < 6 * (ready tiny 1 2 22).size.toNat * (255 : Byte).toNat ∧ (0 : Byte) = 0 :=
  ⟨running_ready .., inv_ready (by decide) (by decide) (by decide) (by decide), by decide⟩
theorem witness_nlStartsANewLine : Running (ready tiny 1 32758 1) ∧ tiny.wf = true ∧
    (32758 : Half).toInt + 9 * (1 : Byte).toNat ≤ 32767 ∧ Running (ready tiny 1 32759 1) ∧
    32767 < (32759 : Half).toInt + 9 * (1 : Byte).toNat := ⟨running_ready .., by decide, by decide, running_ready .., by decide⟩
theorem witness_sizSetsTheSize : Running one ∧ (255 : Byte) ≠ 0 := ⟨one_running, by decide⟩
theorem witness_colorCommandsSetTheirField : Running one := one_running
theorem witness_stutteringIsInvisible : observed Pins.unset [.set .rs .low, .set .rs .low] = observed Pins.unset [.set .rs .low] := by
  decide
theorem witness_panelResetLine : Panel.powerUp.inReset = false ∧ ({ Panel.powerUp with inReset := true } : Panel).inReset = true := by
  decide
theorem witness_panelIgnores : Panel.powerUp.undef = true ∧
    ({ tiny with panelCsActive := some .low } : Cfg).panelCsActive = some .low ∧ (Latch.x : Latch Level) ≠ .is .low ∧
    (({ Panel.powerUp with inReset := true } : Panel).accept tiny .x (.rstLevel tiny.rstALevel)).undef = false := by decide
theorem witness_panelTakesAnOpcode : tiny.wf = true ∧ one.panel.listening tiny one.pins.cs = true ∧
    (0x2C : Byte) = tiny.opRamwr ∧ tiny.initSeq[4]? = some ⟨0x29, []⟩ ∧ tiny.initSeq[0]? = some ⟨0xF7, [0x20]⟩ ∧
    (0x28 : Byte) ∉ tiny.panelOpcodes ∧
    ({ one.panel with mode := .args 0x2A [0x00] } : Panel).listening tiny one.pins.cs = true := by decide
theorem witness_addressRangeBytes : tiny.wf = true ∧
    ({ one.panel with mode := .args 0x2A [0, 1, 0] } : Panel).listening tiny one.pins.cs = true ∧ (0x2A : Byte) = tiny.opCaset ∧
    (0x2B : Byte) = tiny.opPaset ∧ ([0, 1] : List Byte).length < 3 := by decide
theorem witness_initArgumentBytes : tiny.wf = true ∧ tiny.initSeq[0]? = some ⟨0xF7, [0x20]⟩ ∧
    ({ one.panel with mode := .args 0xF7 [] } : Panel).listening tiny one.pins.cs = true ∧ [] ++ [0x20] = ([0x20] : List Byte) ∧
    ¬[] ++ [0x21] <+: ([0x20] : List Byte) ∧
    ({ tiny with initSeq := [⟨0xF7, [1, 2]⟩, ⟨1, []⟩, ⟨2, []⟩, ⟨3, []⟩, ⟨4, []⟩] } : Cfg).wf = true ∧
    [] ++ [1] <+: ([1, 2] : List Byte) := by decide
theorem witness_pixelBytes : one.panel.listening tiny one.pins.cs = true ∧ one.panel.mode = .memWrite ∧
    one.panel.cfgDone = [true, true, true, true, true] ∧ one.panel.half = none ∧
    one.panel.c0 = .is 0 ∧ one.panel.c1 = .is 15 ∧ one.panel.r0 = .is 0 ∧ one.panel.r1 = .is 19 ∧
    (0 : Half).toNat ≤ (15 : Half).toNat ∧ (0 : Half).toNat ≤ (19 : Half).toNat ∧ (15 : Half).toNat < tiny.screenW ∧
    (19 : Half).toNat < tiny.screenH ∧
    ({ one.panel with half := some 0xAB, x := .is 15, y := .is 19 } : Panel).listening tiny one.pins.cs = true ∧
    ({ one.panel with cfgDone := [true, true, true, true, false] } : Panel).listening tiny one.pins.cs = true := by decide
theorem witness_initLeavesAClearedScreen : BlockInv (State.resetOf tiny) ∧ (State.resetOf tiny).fault = false ∧
    (State.resetOf tiny).cfg.panelCsActive = none := ⟨inv_reset (by decide) (by decide) (by decide), rfl, rfl⟩
theorem witness_clrPaintsTheScreen : Running one ∧ BlockInv one ∧ PanelReady one.cfg one.pins.cs one.panel ∧
    onScreen one.cfg 15 19 := ⟨one_running, one_inv, one_panel, by unfold onScreen; decide⟩
theorem witness_clrTwiceIsClrOnce : Running one ∧ BlockInv one ∧ PanelReady one.cfg one.pins.cs one.panel :=
  ⟨one_running, one_inv, one_panel⟩
theorem witness_rectFillsItsRectangle : Running one ∧ BlockInv one ∧ PanelReady one.cfg one.pins.cs one.panel ∧
    0 < (1 : Half).toInt ∧ (15 : Half).toNat + (1 : Half).toNat ≤ one.cfg.screenW ∧
    (19 : Half).toNat + (1 : Half).toNat ≤ one.cfg.screenH ∧ onScreen one.cfg 15 19 ∧ inRect 15 19 1 1 15 19 ∧
    ¬inRect 15 19 1 1 14 19 := ⟨one_running, one_inv, one_panel, by unfold onScreen inRect; decide⟩
theorem witness_offScreenRectUndefinesThePanel : Running one ∧ BlockInv one ∧ PanelReady one.cfg one.pins.cs one.panel ∧
    0 ≤ (15 : Half).toInt ∧ 0 < (2 : Half).toInt ∧ one.cfg.screenW < (15 : Half).toNat + (2 : Half).toNat :=
  ⟨one_running, one_inv, one_panel, by decide⟩
theorem witness_chrLandsInItsCell : Running (ready tiny 10 12 1) ∧ BlockInv (ready tiny 10 12 1) ∧
    PanelReady tiny (ready tiny 10 12 1).pins.cs (ready tiny 10 12 1).panel ∧
    (10 : Half).toInt + 6 * (1 : Byte).toNat ≤ tiny.wrapLimit ∧ (10 : Half).toNat + 6 * (1 : Byte).toNat ≤ tiny.screenW ∧
    (12 : Half).toNat + 8 * (1 : Byte).toNat ≤ tiny.screenH ∧ onScreen tiny 0 0 ∧ ¬inRect 10 12 6 8 0 0 :=
  ⟨running_ready .., inv_ready (by decide) (by decide) (by decide) (by decide), panel_ready .., by unfold onScreen inRect; decide⟩
theorem witness_chrIsUprightUnderRowOrder : Running (ready tinyRow 10 12 1) ∧ BlockInv (ready tinyRow 10 12 1) ∧
    PanelReady tinyRow (ready tinyRow 10 12 1).pins.cs (ready tinyRow 10 12 1).panel ∧ tinyRow.panelFastAxis = .row ∧
    (10 : Half).toInt + 6 * (1 : Byte).toNat ≤ tinyRow.wrapLimit ∧ (10 : Half).toNat + 6 * (1 : Byte).toNat ≤ tinyRow.screenW ∧
    (12 : Half).toNat + 8 * (1 : Byte).toNat ≤ tinyRow.screenH :=
  ⟨running_ready .., inv_ready (by decide) (by decide) (by decide) (by decide), ⟨rfl, rfl, .inr rfl⟩, by decide⟩
theorem witness_noPixelIsStoredBy : BlockInv one ∧ (∃ t, exec (.win 0 0 1 1) one = .next t) ∧
    (Instr.win 0 0 1 1).mnemonic ∈ [Mnemonic.selc, .seld, .rdb, .cmd, .win, .nl, .siz, .fgc, .bgc] :=
  ⟨one_inv, ⟨_, rfl⟩, by decide⟩
theorem witness_oneByteStoresAtThePointer : BlockInv one ∧ (∃ t, exec (.dat 0) one = .next t) ∧
    (Instr.dat 0).mnemonic ∈ [Mnemonic.wrb, .dat] ∧ ¬(one.panel.x = .is 1 ∧ one.panel.y = .is 0) := ⟨one_inv, ⟨_, rfl⟩, by decide⟩
theorem witness_windowedCommandsStoreInTheirWindow : Running one ∧ BlockInv one ∧ (∃ t, exec (.rect 0 0 1 1 0) one = .next t) ∧
    (∃ t, exec (.era 1) one = .next t) ∧ (∃ t, exec (.chr 0x41) one = .next t) ∧ ¬inRect 0 0 1 1 1 0 :=
  ⟨one_running, one_inv, ⟨_, rfl⟩, ⟨_, rfl⟩, ⟨_, rfl⟩, by unfold inRect; decide⟩
theorem witness_onlyTheseCommandsWrite : ∃ t, exec .nl one = .next t := ⟨_, rfl⟩
theorem witness_faultsArePrecise : (∃ t, one.fault = false ∧ exec (.siz 0) one = .next t ∧ t.fault = true) ∧
    ∃ t, Running one ∧ exec (.str [0x41, 0x1F]) one = .next t ∧ t.fault = true := by
  refine ⟨⟨_, rfl, rfl, rfl⟩, _, one_running, rfl, ?_⟩
  decide
theorem witness_invariantsHoldAtReset : tiny.wf = true ∧ (pending [0x34]).cfg.wf = true ∧
    PanelInv (pending [0x34]).cfg (pending [0x34]).panel ∧ ∃ t, step (pending [0x34]) = .next t :=
  ⟨by decide, by decide, ⟨rfl, rfl, fun _ h => absurd rfl h,
    fun _ _ => ⟨0, 0, rfl, rfl, fun w hw _ => by cases hw; simp⟩⟩, _, rfl⟩
theorem witness_stepKeepsBlockInv : BlockInv (pending [0x34]) ∧ ∃ t, step (pending [0x34]) = .next t :=
  ⟨pending_inv _, _, rfl⟩
theorem witness_stepKeepsTraceExplains : TraceExplains Panel.powerUp ({ State.resetOf tiny with cmdIn := [0x10] }) ∧
    ∃ t, step { State.resetOf tiny with cmdIn := [0x10] } = .next t := ⟨⟨rfl, rfl, rfl⟩, _, rfl⟩
theorem witness_stepKeepsPanelInv : tiny.wf = true ∧
    PanelInv tiny ({ State.resetOf tiny with cmdIn := [0x10] } : State).panel ∧
    ∃ t, step { State.resetOf tiny with cmdIn := [0x10] } = .next t :=
  ⟨by decide, ⟨rfl, rfl, fun _ h => absurd rfl h, fun h => by cases h⟩, _, rfl⟩
end Sys2Proof.Tests
end

section
/-! SUPPORT. The panel's answer to one item (20_memory.md rules R78 to R92): one equation per case of `acceptCmd`, `acceptArg` and
`acceptDat`, the write pointer's step inside a window, and from them O39 to O44. -/

namespace Sys2Proof.Machine

/-! ### Who listens -/

theorem Panel.defined_of_listening {c : Cfg} {cs : Latch Level} {P : Panel} (hl : P.listening c cs = true) : P.undef = false := by
  simp only [Panel.listening, Bool.and_eq_true, Bool.not_eq_true'] at hl
  exact hl.1.2

theorem Panel.deaf_of_inReset (c : Cfg) (cs : Latch Level) {P : Panel} (h : P.inReset = true) : P.listening c cs = false := by
  simp [Panel.listening, h]

theorem Panel.deaf_of_undef (c : Cfg) (cs : Latch Level) {P : Panel} (h : P.undef = true) : P.listening c cs = false := by
  simp [Panel.listening, h]

theorem Panel.deaf_of_deselected {c : Cfg} {cs : Latch Level} (P : Panel) {l : Level} (ha : c.panelCsActive = some l)
    (hcs : cs ≠ .is l) : P.listening c cs = false := by
  simp [Panel.listening, ha, hcs]

theorem accept_cmd_of_listening {c : Cfg} {cs : Latch Level} {P : Panel} (hl : P.listening c cs = true) (b : Byte) :
    P.accept c cs (.cmd b) = P.acceptCmd c b := if_pos hl

theorem accept_dat_of_listening {c : Cfg} {cs : Latch Level} {P : Panel} (hl : P.listening c cs = true) (b : Byte) :
    P.accept c cs (.dat b) = P.acceptDat c b := if_pos hl

/-- `deaf_ignores` for one item, and for reads (R78, R79, R89). -/
theorem accept_of_deaf {c : Cfg} {cs : Latch Level} {P : Panel} (h : P.listening c cs = false) (b : Byte) :
    P.accept c cs (.cmd b) = P ∧ P.accept c cs (.dat b) = P ∧ P.accept c cs (.rd b) = P := by
  simp [Panel.accept, h]

/-! ### The reset line -/

theorem Level.other_ne (l : Level) : l.other ≠ l := by
  cases l <;> decide

theorem accept_rstLevel_of_ne {c : Cfg} {l : Level} (h : l ≠ c.rstALevel) (cs : Latch Level) (P : Panel) :
    P.accept c cs (.rstLevel l) = { P with inReset := true } := if_neg h

theorem accept_rstALevel (c : Cfg) (cs : Latch Level) (P : Panel) :
    P.accept c cs (.rstLevel c.rstALevel) = if P.inReset then P.leaveReset else P := if_pos rfl

/-- Settles O39: each level of the reset line by its own equation; in reset the panel does not listen. -/
theorem panelResetLine : Obligations.PanelResetLine := by
  intro c cs P
  refine ⟨accept_rstLevel_of_ne (Level.other_ne _) cs P, fun h => ?_, fun h => ?_,
    fun h => accept_of_deaf (Panel.deaf_of_inReset c cs h)⟩
  · simp [accept_rstALevel, h]
  · exact ⟨P.leaveReset, by simp [accept_rstALevel, h], rfl, rfl, rfl, rfl, rfl, rfl, rfl, rfl, rfl, fun _ _ => rfl⟩

/-- Only the end of its reset makes an undefined panel defined (R78, R89). -/
theorem defined_only_by_reset {c : Cfg} {cs : Latch Level} {P : Panel} {t : Transaction} (hu : P.undef = true)
    (hd : (P.accept c cs t).undef = false) : P.inReset = true ∧ t = .rstLevel c.rstALevel := by
  have deaf := accept_of_deaf (Panel.deaf_of_undef c cs hu)
  have still : P.accept c cs t ≠ P := fun h => by simp [h, hu] at hd
  cases t with
  | cmd b => exact absurd (deaf b).1 still
  | dat b => exact absurd (deaf b).2.1 still
  | rd b => exact absurd (deaf b).2.2 still
  | csLevel l => exact absurd rfl still
  | wait n => exact absurd rfl still
  | rstLevel l =>
    by_cases hl : l = c.rstALevel
    · subst hl
      cases hr : P.inReset with
      | true => exact ⟨rfl, rfl⟩
      | false => exact absurd (by simp [accept_rstALevel, hr]) still
    · simp [accept_rstLevel_of_ne hl, hu] at hd

/-- Settles O40: an undefined or deselected panel does not listen, and only `leaveReset` clears `undef`. -/
theorem panelIgnores : Obligations.PanelIgnores := by
  intro c cs P
  refine ⟨?_, fun _ => rfl, fun _ => rfl, fun _ => defined_only_by_reset⟩
  rintro (hu | ⟨l, ha, hcs⟩)
  · exact accept_of_deaf (Panel.deaf_of_undef c cs hu)
  · exact accept_of_deaf (P.deaf_of_deselected ha hcs)

/-! ### A command opcode -/

theorem acceptCmd_incomplete {c : Cfg} {P : Panel} {op : Byte} {got : List Byte} (hm : P.mode = .args op got)
    (h : argsComplete c op got = false) (b : Byte) : P.acceptCmd c b = { P with undef := true } := by
  simp [Panel.acceptCmd, hm, h]

section
variable {c : Cfg} {P : Panel} {b : Byte} (h : ∀ op got, P.mode = .args op got → argsComplete c op got = true)
include h

/-! Outside an incomplete argument list the value of the opcode decides alone (R80). -/

theorem acceptCmd_range (hb : b = c.opCaset ∨ b = c.opPaset) :
    P.acceptCmd c b = { P with half := none, mode := .args b [] } := by
  cases hm : P.mode <;> simp [Panel.acceptCmd, hm, h, hb]

theorem acceptCmd_ramwr (h1 : c.opRamwr ≠ c.opCaset) (h2 : c.opRamwr ≠ c.opPaset) : P.acceptCmd c c.opRamwr = { P with
    half := none, mode := .memWrite, x := P.c0, y := P.r0, undef := P.undef || decide (P.c0 = .x ∨ P.r0 = .x) } := by
  cases hm : P.mode <;> simp [Panel.acceptCmd, hm, h, h1, h2]

theorem acceptCmd_entry (hc : c.wf = true) {i : Nat} {e : PanelCommand} (he : c.initSeq[i]? = some e) :
    P.acceptCmd c e.op = if e.data = [] then { P with half := none, cfgDone := P.cfgDone.set i true, mode := .idle }
      else { P with half := none, mode := .args e.op [] } := by
  obtain ⟨hidx, hdata, h1, h2, h3⟩ := initIndex_entry hc he
  cases hm : P.mode <;> simp [Panel.acceptCmd, hm, h, h1, h2, h3, hidx, hdata]

theorem acceptCmd_unknown (hb : b ∉ c.panelOpcodes) : P.acceptCmd c b = { P with half := none, undef := true } := by
  simp only [Cfg.panelOpcodes, List.mem_append, List.mem_cons, List.not_mem_nil, or_false, List.mem_map, not_or] at hb
  obtain ⟨⟨h1, h2, h3⟩, hseq⟩ := hb
  have hidx : initIndex? c b = none := initIndex_none.2 fun e he hop => hseq ⟨e, he, hop⟩
  cases hm : P.mode <;> simp [Panel.acceptCmd, hm, h, h1, h2, h3, hidx]

end

/-- Settles O41: `argsComplete_iff` says which list is complete; past an incomplete one, one equation per kind of opcode. -/
theorem panelTakesAnOpcode : Obligations.PanelTakesAnOpcode := by
  intro c cs P b hc hl complete
  rw [accept_cmd_of_listening hl]
  refine ⟨fun op got hm hn => ?_, fun hall => ?_⟩
  · exact acceptCmd_incomplete hm (by rwa [← Bool.not_eq_true, argsComplete_iff hc]) b
  have h : ∀ op got, P.mode = .args op got → argsComplete c op got = true := fun op got hm =>
    (argsComplete_iff hc op got).2 (hall op got hm)
  refine ⟨acceptCmd_range h, ?_, ?_, acceptCmd_unknown h⟩
  · rintro rfl
    obtain ⟨-, h1, h2⟩ := Cfg.wf_opcodes hc
    simp [acceptCmd_ramwr h h1.symm h2.symm, Panel.defined_of_listening hl]
  · rintro i e he rfl
    exact ⟨fun hd => by simp [acceptCmd_entry h hc he, hd], fun hd => by simp [acceptCmd_entry h hc he, hd]⟩

/-! ### A data byte of an argument list -/

theorem acceptDat_args {P : Panel} {op : Byte} {got : List Byte} (hm : P.mode = .args op got) (c : Cfg) (b : Byte) :
    P.acceptDat c b = P.acceptArg c op (got ++ [b]) := by
  simp [Panel.acceptDat, hm]

theorem acceptArg_range_short {c : Cfg} {op : Byte} (hop : op = c.opCaset ∨ op = c.opPaset) {got : List Byte}
    (hlen : got.length < 4) (P : Panel) : P.acceptArg c op got = { P with mode := .args op got } := by
  simp only [Panel.acceptArg]
  split
  · split
    · simp at hlen
    · rfl
  · split
    · split
      · simp at hlen
      · rfl
    · tauto

theorem acceptArg_caset (c : Cfg) (P : Panel) (a0 a1 a2 a3 : Byte) : P.acceptArg c c.opCaset [a0, a1, a2, a3] =
    { P with c0 := .is (cat16 a0 a1), c1 := .is (cat16 a2 a3), mode := .idle } := by
  simp [Panel.acceptArg]

theorem acceptArg_paset {c : Cfg} (hne : c.opPaset ≠ c.opCaset) (P : Panel) (a0 a1 a2 a3 : Byte) :
    P.acceptArg c c.opPaset [a0, a1, a2, a3] =
      { P with r0 := .is (cat16 a0 a1), r1 := .is (cat16 a2 a3), mode := .idle } := by
  simp [Panel.acceptArg, hne]

theorem acceptArg_entry {c : Cfg} (hc : c.wf = true) {i : Nat} {e : PanelCommand} (he : c.initSeq[i]? = some e) (P : Panel)
    (got : List Byte) : P.acceptArg c e.op got =
      if got = e.data then { P with cfgDone := P.cfgDone.set i true, mode := .idle }
      else if got <+: e.data then { P with mode := .args e.op got }
      else { P with mode := .args e.op got, undef := true } := by
  obtain ⟨hidx, hdata, h1, h2, -⟩ := initIndex_entry hc he
  simp [Panel.acceptArg, h1, h2, hidx, hdata]

/-- Settles O42: by the equations of a short and of a full address range. -/
theorem addressRangeBytes : Obligations.AddressRangeBytes := by
  intro c cs P op b a0 a1 a2 got hc hl hop
  rw [accept_dat_of_listening hl]
  refine ⟨fun hm hlen => ?_, ?_, ?_⟩
  · rw [acceptDat_args hm, acceptArg_range_short hop (by simp; omega)]
  · rintro hm rfl
    rw [acceptDat_args hm]
    exact acceptArg_caset c P a0 a1 a2 b
  · rintro hm rfl
    rw [acceptDat_args hm]
    exact acceptArg_paset (Cfg.wf_opcodes hc).1.symm P a0 a1 a2 b

/-- Settles O43: the three cases of `acceptArg_entry`. -/
theorem initArgumentBytes : Obligations.InitArgumentBytes := by
  intro c cs P b hc hl
  rw [accept_dat_of_listening hl]
  refine ⟨fun i e got he hm => ?_, fun hm => by simp [Panel.acceptDat, hm]⟩
  rw [acceptDat_args hm, acceptArg_entry hc he]
  refine ⟨fun hd => by simp [hd], fun hd hp => by simp [hd, hp], fun hp => ?_⟩
  have hd : got ++ [b] ≠ e.data := fun hd => hp (hd ▸ List.prefix_rfl)
  simp [hd, hp]

/-! ### A data byte of a stream -/

theorem Panel.configured_iff {P : Panel} : P.configured = true ↔ P.cfgDone = [true, true, true, true, true] := by
  simp [Panel.configured, List.replicate]

theorem Panel.window?_eq_some {P : Panel} {w : Window} :
    P.window? = some w ↔ P.c0 = .is w.c0 ∧ P.c1 = .is w.c1 ∧ P.r0 = .is w.r0 ∧ P.r1 = .is w.r1 := by
  obtain ⟨c0, c1, r0, r1⟩ := w
  cases h0 : P.c0 <;> cases h1 : P.c1 <;> cases h2 : P.r0 <;> cases h3 : P.r1 <;> simp [Panel.window?, h0, h1, h2, h3]

theorem Window.valid_iff {c : Cfg} {w : Window} : w.valid c = true ↔
    w.c0.toNat ≤ w.c1.toNat ∧ w.r0.toNat ≤ w.r1.toNat ∧ w.c1.toNat < c.screenW ∧ w.r1.toNat < c.screenH := by
  simp [Window.valid, and_assoc]

/-- In memory-write mode, when a configured panel has a valid window (R83, R84). -/
theorem acceptDat_armed {c : Cfg} {P : Panel} {w : Window} (hm : P.mode = .memWrite) (hcf : P.configured = true)
    (hw : P.window? = some w) (hv : w.valid c = true) (b : Byte) : P.acceptDat c b =
      P.half.elim { P with half := some b } fun h => P.storePixel c w (cat16 h b) := by
  cases hh : P.half <;> simp [Panel.acceptDat, hm, hcf, hw, hv, hh]

/-- In memory-write mode, when the panel is not configured or has no valid window (R84). -/
theorem acceptDat_unarmed {c : Cfg} {P : Panel} (hm : P.mode = .memWrite)
    (h : P.configured = true → ∀ w, P.window? = some w → w.valid c = false) (b : Byte) :
    P.acceptDat c b = { P with undef := true } := by
  simp only [Panel.acceptDat, hm]
  split
  · rename_i w hcf hw
    simp [h hcf w hw]
  · rfl

/-- R85 inside a window: the fast index runs, and the slow one moves when the fast one wraps. -/
theorem advancePair_of_le {f f0 f1 s s0 s1 : Half} (hf : f.toNat ≤ f1.toNat) (hs : s.toNat ≤ s1.toNat) :
    BitVec.ofNat 16 (advancePair f.toNat f0.toNat f1.toNat s.toNat s0.toNat s1.toNat).1 = (if f = f1 then f0 else f + 1) ∧
    BitVec.ofNat 16 (advancePair f.toNat f0.toNat f1.toNat s.toNat s0.toNat s1.toNat).2 =
      (if f = f1 then (if s = s1 then s0 else s + 1) else s) := by
  have last : ∀ {a b : Half}, a.toNat ≤ b.toNat → (b.toNat < a.toNat + 1 ↔ a = b) := fun hab => by
    rw [← BitVec.toNat_inj]; omega
  have succ : ∀ a : Half, BitVec.ofNat 16 (a.toNat + 1) = a + 1 := fun a => by
    rw [BitVec.ofNat_add, BitVec.ofNat_toNat, BitVec.setWidth_eq]; rfl
  have inside : ¬s1.toNat < s.toNat := by omega
  simp only [advancePair, last hf]
  by_cases hfl : f = f1
  · by_cases hsl : s = s1 <;> simp [hfl, hsl, last hs, succ]
  · simp [hfl, inside, succ]

theorem Window.next_col {c : Cfg} (ha : c.panelFastAxis = .col) {w : Window} {x y : Half} (hx : x.toNat ≤ w.c1.toNat)
    (hy : y.toNat ≤ w.r1.toNat) : w.next c x y =
      (if x = w.c1 then w.c0 else x + 1, if x = w.c1 then (if y = w.r1 then w.r0 else y + 1) else y) := by
  obtain ⟨h1, h2⟩ := advancePair_of_le (f0 := w.c0) (s0 := w.r0) hx hy
  simp only [Window.next, ha, h1, h2]

theorem Window.next_row {c : Cfg} (ha : c.panelFastAxis = .row) {w : Window} {x y : Half} (hx : x.toNat ≤ w.c1.toNat)
    (hy : y.toNat ≤ w.r1.toNat) : w.next c x y =
      (if y = w.r1 then (if x = w.c1 then w.c0 else x + 1) else x, if y = w.r1 then w.r0 else y + 1) := by
  obtain ⟨h1, h2⟩ := advancePair_of_le (f0 := w.r0) (s0 := w.c0) hy hx
  simp only [Window.next, ha, h1, h2]

theorem Panel.storePixel_of_pointer {P : Panel} {x y : Half} (hx : P.x = .is x) (hy : P.y = .is y) (c : Cfg) (w : Window)
    (v : Half) : P.storePixel c w v = { P with
      gram := P.gram.write (pixelKey x y) v, half := none, x := .is (w.next c x y).1, y := .is (w.next c x y).2 } := by
  simp [Panel.storePixel, hx, hy]

/-- Settles O44: an armed panel keeps the first byte of a pixel; the second stores the pixel, and `next_col` and `next_row` move
the pointer. -/
theorem pixelBytes : Obligations.PixelBytes := by
  intro c cs P b hl hm valid
  rw [accept_dat_of_listening hl]
  have armed : ∀ {c0 c1 r0 r1}, P.cfgDone = [true, true, true, true, true] → valid c0 c1 r0 r1 → P.acceptDat c b =
      P.half.elim { P with half := some b } fun h => P.storePixel c ⟨c0, c1, r0, r1⟩ (cat16 h b) := by
    rintro c0 c1 r0 r1 hcf ⟨e0, e1, e2, e3, hv⟩
    exact acceptDat_armed hm (Panel.configured_iff.2 hcf) (Panel.window?_eq_some.2 ⟨e0, e1, e2, e3⟩) (Window.valid_iff.2 hv) b
  refine ⟨fun hbad => acceptDat_unarmed hm (fun hcf w hw => ?_) b, ?_, ?_⟩
  · obtain hn | hn := hbad
    · exact absurd (Panel.configured_iff.1 hcf) hn
    · obtain ⟨e0, e1, e2, e3⟩ := Panel.window?_eq_some.1 hw
      exact Bool.eq_false_iff.2 fun hv => hn ⟨w.c0, w.c1, w.r0, w.r1, e0, e1, e2, e3, Window.valid_iff.1 hv⟩
  · intro c0 c1 r0 r1 hcf hv hh
    rw [armed hcf hv, hh]
    rfl
  · intro c0 c1 r0 r1 h x y hcf hv hh hx hy _ hx1 _ hy1
    have stored := armed hcf hv
    rw [hh, Option.elim_some, Panel.storePixel_of_pointer hx hy] at stored
    refine ⟨_, _, _, stored, Memory.read_write_same .., fun u v huv => ?_, fun ha => ?_, fun ha => ?_⟩
    · exact Memory.read_write_other _ _ fun hk => huv (Prod.ext_iff.2 (pixelKey_inj.1 hk))
    · simp [Window.next_col ha (w := ⟨c0, c1, r0, r1⟩) hx1 hy1]
    · simp [Window.next_row ha (w := ⟨c0, c1, r0, r1⟩) hx1 hy1]

end Sys2Proof.Machine
end

section
/-! SUPPORT. A command cut short (30_encoding.md rule R118): for each operand format of R111 when the decoder runs out of bytes,
from these when it does for a command, and from that O5. -/

namespace Sys2Proof

/-! ### When the operands of a format are cut short -/

theorem decodeB_short (mk : Byte → Instr) {q : List Byte} (h : q.length < 1) : decodeB mk q = .truncated := by
  obtain rfl := List.length_eq_zero_iff.1 (Nat.lt_one_iff.1 h)
  rfl

theorem decodeH_short (mk : Half → Instr) {q : List Byte} (h : q.length < 2) : decodeH mk q = .truncated := by
  unfold decodeH
  split
  · simp only [List.length_cons] at h; omega
  · rfl

theorem decodeW_short (mk : Half → Half → Half → Half → Instr) {q : List Byte} (h : q.length < 8) :
    decodeW mk q = .truncated := by
  unfold decodeW
  split
  · simp only [List.length_cons] at h; omega
  · rfl

theorem decodeR_short (mk : Half → Half → Half → Half → Half → Instr) {q : List Byte} (h : q.length < 10) :
    decodeR mk q = .truncated := by
  unfold decodeR
  split
  · simp only [List.length_cons] at h; omega
  · rfl

theorem decodeS_nil (mk : List Byte → Instr) : decodeS mk [] = .truncated := rfl

theorem decodeS_short (mk : List Byte → Instr) {len : Byte} {q : List Byte} (h : q.length < len.toNat) :
    decodeS mk (len :: q) = .truncated := if_neg (Nat.not_le.2 h)

/-! ### When a command is cut short -/

@[simp] theorem mnemonicOf?_opcode (m : Mnemonic) : mnemonicOf? m.opcode = some m := by
  cases m <;> rfl

theorem decode_opcode_cons (m : Mnemonic) (q : List Byte) : decode (m.opcode :: q) = decodeOperands m q := by
  simp [decode]

/-- For every command but STR the number of bytes alone decides; STR's length byte, once it is there, is the command's own. -/
theorem decodeOperands_of_cut {i : Instr} (hw : i.wf = true) {q : List Byte} (hq : q <+: i.operandBytes)
    (hlt : q.length < i.operandBytes.length) : decodeOperands i.mnemonic q = .truncated := by
  cases i with
  | selc | seld | rdb | init | nl => exact absurd hlt (Nat.not_lt_zero _)
  | wrb | cmd | dat | clr | chr | era | siz => exact decodeB_short _ hlt
  | int | fgc | bgc => exact decodeH_short _ hlt
  | win => exact decodeW_short _ hlt
  | rect => exact decodeR_short _ hlt
  | str syms =>
    cases q with
    | nil => exact decodeS_nil .str
    | cons len q =>
      obtain ⟨rfl, -⟩ := List.cons_prefix_cons.1 hq
      have hsyms : syms.length ≤ 255 := of_decide_eq_true hw
      have hlen : (BitVec.ofNat 8 syms.length).toNat = syms.length := Nat.mod_eq_of_lt (by omega)
      exact decodeS_short .str (by rw [hlen]; exact Nat.lt_of_succ_lt_succ hlt)

theorem decode_of_cut {i : Instr} (hw : i.wf = true) {p : List Byte} (hne : p ≠ []) (hp : p <+: encode i)
    (hcut : p ≠ encode i) : decode p = .truncated := by
  cases p with
  | nil => exact absurd rfl hne
  | cons b q =>
    obtain ⟨rfl, hq⟩ := List.cons_prefix_cons.1 hp
    have hlt : q.length < i.operandBytes.length :=
      Nat.lt_of_le_of_ne hq.length_le fun hl => hcut (congrArg _ (hq.eq_of_length hl))
    rw [decode_opcode_cons, decodeOperands_of_cut hw hq hlt]

namespace Machine

theorem step_of_truncated {s : State} (hc : s.cfg.wf = true) (hd : decode s.cmdIn = .truncated) :
    step s = .fault .truncatedCommand := by
  simp [step, hc, hd]

/-- Settles O5: the decoder finds the command cut short, whatever its format. -/
theorem truncatedCommandIsStuck : Obligations.TruncatedCommandIsStuck := by
  intro i p hw hne hp hcut s hc hs
  exact step_of_truncated hc (hs ▸ decode_of_cut hw hne hp hcut)

end Machine
end Sys2Proof
end

section
/-! SUPPORT. The bus primitives of 40_bus_interface.md as commands: what one driven byte and one register-select event put on the
wires (rules R140 to R142), and from these O11 and O12. -/

namespace Sys2Proof.Machine

/-- On a running block the template adds nothing to a command's own rule but the step of `cp` (R121). -/
theorem exec_running (i : Instr) {s : State} (h : Running s) : exec i s = .next (commandRule i s).advance := by
  rw [exec_eq, runCommand_running h]

/-! ### One driven byte -/

/-- The strobe's rising edge is one item, a command or a data byte by the level of RS (R77, R140). -/
theorem transactions_writeByte {p : Pins} (hd : p.ddir = .is .out) (hr : p.rs ≠ .x) (v : Byte) :
    transactions p (writeByte v) = [if p.rs = .is .low then .cmd v else .dat v] := by
  cases hrs : p.rs with
  | x => exact absurd hrs hr
  | is l => cases l <;> simp [writeByte, transactions, transactionOf, Pins.apply, hd, hrs]

/-- The strobe returns to the level it stood at, so only the data latch moves (R140). -/
theorem pinsAfter_writeByte {p : Pins} (hw : p.wr = .is .high) (v : Byte) :
    pinsAfter p (writeByte v) = { p with dout := .is v } := by
  simp [pinsAfter, writeByte, Pins.apply, ← hw]

theorem panelAfter_writeByte (c : Cfg) {p : Pins} (hd : p.ddir = .is .out) (hr : p.rs ≠ .x) (P : Panel) (v : Byte) :
    panelAfter c p P (writeByte v) = P.accept c p.cs (if p.rs = .is .low then .cmd v else .dat v) := by
  have noCs : ∀ l, PinEvent.set .cs l ∉ writeByte v := by simp [writeByte]
  rw [panelAfter_eq_foldl c noCs, transactions_writeByte hd hr]
  rfl

/-- Settles O11: WRB emits R140's events; their pins and their one item are those of `writeByte`. -/
theorem wrbWritesOneByte : Obligations.WrbWritesOneByte := by
  intro a s hs hp
  have hpins := pinsAfter_writeByte hp.wr a
  have hpanel := panelAfter_writeByte s.cfg hp.ddir hp.rs s.panel a
  rw [exec_running _ hs, ← hpins, ← hpanel]
  rfl

/-! ### The register-select line -/

/-- An RS event moves its latch, joins the trace and produces no item, so the panel does not see it (R77, R141, R142). -/
theorem emits_setRs (s : State) (l : Level) : s.emits [.set .rs l] =
    { s with pins := { s.pins with rs := .is l }, history := .set .rs l :: s.history } := rfl

theorem transactions_setRs (p : Pins) (l : Level) : transactions p [.set .rs l] = [] := rfl

theorem stutters_setRs (p : Pins) (l : Level) : stutters p (.set .rs l) = true ↔ p.rs = .is l := beq_iff_eq

/-- Settles O12: SELC and SELD are one RS event each, and their opcode byte is the whole command. -/
theorem selectSetsRegisterSelect : Obligations.SelectSetsRegisterSelect := by
  intro s hs
  have selects (l : Level) {i : Instr} (hi : commandRule i s = s.emits [.set .rs l]) : exec i s = .next
      { s with pins := { s.pins with rs := .is l }, history := .set .rs l :: s.history, cp := s.cp + 1 } := by
    rw [exec_running i hs, hi, emits_setRs]
    rfl
  exact ⟨selects .low rfl, selects .high rfl, transactions_setRs _ _, transactions_setRs _ _, stutters_setRs _ _,
    stutters_setRs _ _, decode_opcode_cons .selc, decode_opcode_cons .seld⟩

end Sys2Proof.Machine
end

section
/-! SUPPORT. CMD, DAT, WIN and the window check of 41_controller_session.md: a command whose own rule is a list of writes, a
command whose own rule is a fault, what `checkWindow` answers case by case (rule R169), and from these O15 to O17. -/

namespace Sys2Proof.Machine

/-- A running command whose own rule is a list of writes ends in the state those writes make (R121, R148). -/
theorem exec_of_sends {i : Instr} {s : State} {evs : List PinEvent} {items : List Transaction} {rs : Level} {d : Byte}
    (hs : Running s) (hp : PinsIdle s.cfg s.pins) (hi : commandRule i s = s.emits evs) (h : Sends evs items rs d) :
    exec i s = .next (driven s evs items rs d) := by
  rw [exec_running i hs, hi, State.emits_of_sends h hp.ddir hp.wr]

/-- A running command whose own rule is a fault has no other effect (R232, R235). -/
theorem exec_of_raise {i : Instr} {s : State} {k : Cause} {info : Half} (hs : Running s)
    (hi : commandRule i s = s.raise k info) : exec i s = .next (faulted s k.code info) := by
  rw [exec_running i hs, hi]
  rfl

/-- Settles O15: one `writeCommand` and one `writeData`. -/
theorem cmdAndDatIssueOneByte : Obligations.CmdAndDatIssueOneByte := by
  intro a s hs hp
  exact ⟨exec_of_sends hs hp rfl (sends_writeCommand a), exec_of_sends hs hp rfl (sends_writeData a),
    (sends_writeCommand a).items s.pins hp.ddir, (sends_writeData a).items s.pins hp.ddir⟩

/-! ### A window that passes -/

/-- An operand that is not negative reads the same as `i16` and as `u16` (R114). -/
theorem toInt_eq_toNat_of_nonneg {v : Half} (h : 0 ≤ v.toInt) : v.toInt = v.toNat :=
  BitVec.toInt_eq_toNat_of_lt (Nat.not_le.1 fun hle => Int.not_lt.2 h (BitVec.toInt_neg_iff.2 hle))

theorem toNat_le_of_nonneg {v : Half} (h : 0 ≤ v.toInt) : v.toNat ≤ 32767 := by
  have hle := (toInt_bounds v).2
  rw [toInt_eq_toNat_of_nonneg h] at hle
  exact_mod_cast hle

theorem toNat_ne_zero_of_pos {v : Half} (h : 0 < v.toInt) : v.toNat ≠ 0 := by
  rw [toInt_eq_toNat_of_nonneg h.le] at h
  omega

/-- `setWindow` on operands that pass `checkWindow` (R163, R169). -/
theorem sends_setWindow_of_checked (c : Cfg) {col row width height : Half} (hc : 0 ≤ col.toInt) (hr : 0 ≤ row.toInt)
    (hw : 0 < width.toInt) (hh : 0 < height.toInt) :
    Sends (setWindow c col.toInt row.toInt width.toInt height.toInt)
      (windowItems c col.toNat (col.toNat + width.toNat - 1) row.toNat (row.toNat + height.toNat - 1)) .low c.opRamwr := by
  rw [toInt_eq_toNat_of_nonneg hc, toInt_eq_toNat_of_nonneg hr, toInt_eq_toNat_of_nonneg hw.le,
    toInt_eq_toNat_of_nonneg hh.le]
  exact sends_setWindow c _ _ _ _ (toNat_ne_zero_of_pos hw) (toNat_ne_zero_of_pos hh)

theorem windowed_nil_of_checked {col row w h : Int} (hk : checkWindow col row w h = none) (s : State) :
    windowed col row w h [] s = s.emits (setWindow s.cfg col row w h) := by
  rw [windowed_sent hk]
  exact congrArg s.emits (List.append_nil _)

/-- Settles O16: WIN is `setWindow` alone; an end is at most 32767 + 32767 - 1. -/
theorem winSendsElevenItems : Obligations.WinSendsElevenItems := by
  intro col row width height s hs hp hc hr hw hh items
  have sends := sends_setWindow_of_checked s.cfg hc hr hw hh
  have rule : commandRule (.win col row width height) s = _ :=
    windowed_nil_of_checked (checkWindow_none.2 ⟨hc, hr, hw, hh⟩) s
  have lastCol := Nat.add_le_add (toNat_le_of_nonneg hc) (toNat_le_of_nonneg hw.le)
  have lastRow := Nat.add_le_add (toNat_le_of_nonneg hr) (toNat_le_of_nonneg hh.le)
  exact ⟨_, sends.items s.pins hp.ddir, exec_of_sends hs hp rule sends, Nat.sub_le_sub_right lastCol 1,
    Nat.sub_le_sub_right lastRow 1⟩

/-! ### A window that is refused -/

theorem checkWindow_of_col {col row w h : Int} (hc : col < 0) : checkWindow col row w h = some 0 := if_pos hc

theorem checkWindow_of_row {col row w h : Int} (hc : 0 ≤ col) (hr : row < 0) : checkWindow col row w h = some 1 := by
  simp [checkWindow, hc.not_gt, hr]

theorem checkWindow_of_width {col row w h : Int} (hc : 0 ≤ col) (hr : 0 ≤ row) (hw : w ≤ 0) :
    checkWindow col row w h = some 2 := by
  simp [checkWindow, hc.not_gt, hr.not_gt, hw]

theorem checkWindow_of_height {col row w h : Int} (hc : 0 ≤ col) (hr : 0 ≤ row) (hw : 0 < w) (hh : h ≤ 0) :
    checkWindow col row w h = some 3 := by
  simp [checkWindow, hc.not_gt, hr.not_gt, hw.not_ge, hh]

/-- Settles O17: WIN and RECT raise what `checkWindow` answers; where it answers nothing they only write to the bus. -/
theorem badWindowIsRefused : Obligations.BadWindowIsRefused := by
  intro col row width height color s hs bad
  have refused {k : Half} (hk : checkWindow col.toInt row.toInt width.toInt height.toInt = some k) : bad k :=
    ⟨exec_of_raise (i := .win ..) hs (windowed_refused hk), exec_of_raise (i := .rect ..) hs (windowed_refused hk)⟩
  refine ⟨fun hc => refused (checkWindow_of_col hc), fun hc hr => refused (checkWindow_of_row hc hr),
    fun hc hr hw => refused (checkWindow_of_width hc hr hw),
    fun hc hr hw hh => refused (checkWindow_of_height hc hr hw hh), fun hc hr hw hh => ?_⟩
  have sent (ps : List Half) : (windowed col.toInt row.toInt width.toInt height.toInt ps s).advance.fault = false := by
    rw [windowed_sent (checkWindow_none.2 ⟨hc, hr, hw, hh⟩)]
    exact hs.2
  exact ⟨_, _, exec_running _ hs, sent _, exec_running _ hs, sent _⟩

end Sys2Proof.Machine
end

section
/-! SUPPORT. The rasterizer of 43_text_layout.md (rules R190 to R192): its nested repetitions as one list indexed by the closed
form of R191, its blank end, how many of its colours are foreground, and from these O22. -/

namespace Sys2Proof.Machine

variable (c : Cfg) (sym : Byte)

/-- A column byte is the column of glyph bits, and the spacer is a column of 0 bits (R190, R63). -/
theorem glyphColumn_getLsbD (col r : Nat) : (glyphColumn c sym col).getLsbD r = glyphBit c sym col r := by
  by_cases h : col < 5
  · have hdiv : ((sym.toNat - 0x20) * 5 + col) / 5 = sym.toNat - 0x20 := by omega
    have hmod : ((sym.toNat - 0x20) * 5 + col) % 5 = col := by omega
    simp [glyphColumn, glyphBit, romRead, h, Nat.le_of_lt_succ h, hdiv, hmod]
  · simp [glyphColumn, glyphBit, h, show ¬col ≤ 4 by omega]

theorem glyphBit_spacer {col : Nat} (h : 5 ≤ col) (r : Nat) : glyphBit c sym col r = false := by
  simp [glyphBit, h.not_gt]

/-! ### The closed form -/

/-- Two nested loops of `m` and `n` rounds are one loop of `m * n` rounds, whose counter holds both. -/
theorem flatMap_range_map {α : Type} (m n : Nat) (f : Nat → Nat → α) :
    (List.range m).flatMap (fun i => (List.range n).map (f i)) = (List.range (m * n)).map fun k => f (k / n) (k % n) := by
  induction m with
  | zero => simp
  | succ m ih =>
    have last : (List.range n).map (f m) = (List.range n).map fun j => f ((m * n + j) / n) ((m * n + j) % n) := by
      refine List.map_congr_left fun j hj => ?_
      have hj := List.mem_range.1 hj
      rw [Nat.mul_add_mod_of_lt hj, Nat.mul_comm m n, Nat.mul_add_div (by omega), Nat.div_eq_of_lt hj, Nat.add_zero]
    rw [List.range_succ, List.flatMap_append, ih, Nat.succ_mul, List.range_add, List.map_append, List.flatMap_singleton,
      List.map_map, last]
    rfl

theorem replicate_eq_map_range {α : Type} (n : Nat) (a : α) : List.replicate n a = (List.range n).map fun _ => a := by
  rw [List.map_const', List.length_range]

/-- Colour `j` of a run shows the bit of row `j / n`. -/
theorem rasterRun_eq_map (g : Byte) (n : Nat) (fg bg : Half) :
    rasterRun g n fg bg = (List.range (8 * n)).map fun j => pick (g.getLsbD (j / n)) fg bg := by
  simp only [rasterRun, replicate_eq_map_range]
  exact flatMap_range_map 8 n fun r _ => pick (g.getLsbD r) fg bg

/-- The `n` equal runs of a column: each starts again at row 0. -/
theorem rasterColumn_eq_map (g : Byte) (n : Nat) (fg bg : Half) :
    (List.replicate n (rasterRun g n fg bg)).flatten =
      (List.range (8 * n * n)).map fun j => pick (g.getLsbD (j / n % 8)) fg bg := by
  rw [replicate_eq_map_range, ← List.flatMap_def, rasterRun_eq_map,
    flatMap_range_map n (8 * n) fun _ j => pick (g.getLsbD (j / n)) fg bg]
  simp only [Nat.mod_mul_left_div_self, Nat.mul_comm n]

/-- The rasterizer is the closed form of R191. -/
theorem rasterStream_eq_glyphPixels (n : Nat) (fg bg : Half) :
    rasterStream c sym n fg bg = glyphPixels c sym n fg bg := by
  have row (k : Nat) : k % (8 * n * n) / n % 8 = k / n % 8 := by
    rw [Nat.mod_mul_left_div_self, Nat.mod_mod_of_dvd _ (Nat.dvd_mul_right 8 n)]
  simp only [rasterStream, rasterColumn_eq_map, glyphColumn_getLsbD]
  rw [flatMap_range_map 6 (8 * n * n) fun col j => pick (glyphBit c sym col (j / n % 8)) fg bg]
  simp only [row, ← Nat.mul_assoc]
  rfl

theorem rasterStream_getElem? {n k : Nat} (hk : k < 48 * n * n) (fg bg : Half) :
    (rasterStream c sym n fg bg)[k]? = some (glyphPixel c sym n fg bg k) := by
  rw [rasterStream_eq_glyphPixels, glyphPixels, List.getElem?_map, List.getElem?_range hk]
  rfl

/-! ### The blank end -/

theorem glyphPixel_spacer {n k : Nat} (hn : 1 ≤ n) (hk : 40 * n * n ≤ k) (fg bg : Half) : glyphPixel c sym n fg bg k = bg := by
  have hcol : 5 ≤ k / (8 * n * n) := (Nat.le_div_iff_mul_le (by positivity)).2 (by linarith)
  simp [glyphPixel, glyphBit_spacer c sym hcol]

theorem rasterStream_drop_glyph {n : Nat} (hn : 1 ≤ n) (fg bg : Half) :
    (rasterStream c sym n fg bg).drop (40 * n * n) = List.replicate (8 * n * n) bg := by
  have hlen : 48 * n * n = 40 * n * n + 8 * n * n := by ring
  rw [rasterStream_eq_glyphPixels, glyphPixels, hlen, List.range_add, List.map_append, List.drop_left' (by simp), List.map_map,
    replicate_eq_map_range]
  exact List.map_congr_left fun j _ => glyphPixel_spacer c sym hn (Nat.le_add_right ..) fg bg

/-! ### The number of foreground colours -/

section
variable {fg bg : Half} (hne : fg ≠ bg)
include hne

theorem count_rasterRun (g : Byte) (n : Nat) :
    (rasterRun g n fg bg).count fg = n * (List.range 8).countP g.getLsbD := by
  rw [rasterRun]
  induction List.range 8 with
  | nil => rfl
  | cons r rs ih =>
    rw [List.flatMap_cons, List.count_append, ih, List.countP_cons, List.count_replicate]
    cases g.getLsbD r
    · simp [pick, hne.symm]
    · simp [pick, Nat.mul_add, Nat.add_comm]

theorem count_rasterColumn (col n : Nat) : ((List.replicate n (rasterRun (glyphColumn c sym col) n fg bg)).flatten).count fg =
    n * n * (List.range 8).countP (glyphBit c sym col) := by
  have hbits : (glyphColumn c sym col).getLsbD = glyphBit c sym col := funext (glyphColumn_getLsbD c sym col)
  rw [List.count_flatten, List.map_replicate, List.sum_replicate, count_rasterRun hne, hbits, smul_eq_mul, Nat.mul_assoc]

/-- The spacer adds none. -/
theorem count_rasterStream (n : Nat) : (rasterStream c sym n fg bg).count fg =
    n * n * ((List.range 5).map (fun col => (List.range 8).countP (glyphBit c sym col))).sum := by
  have spacer : (List.range 8).countP (glyphBit c sym 5) = 0 :=
    List.countP_eq_zero.2 fun r _ => by simp [glyphBit_spacer]
  rw [rasterStream, List.count_flatMap, List.range_succ, List.map_append, List.sum_append]
  simp only [Function.comp_def, count_rasterColumn c sym hne, List.sum_map_mul_left]
  simp [spacer]

end

/-- Settles O22: the nested repetitions of R191 are its closed form, of which the fourth clause counts column by column. -/
theorem rasterIsTheClosedForm : Obligations.RasterIsTheClosedForm := by
  intro c sym n fg bg _ _ _ hn
  exact ⟨rasterStream_length c sym n fg bg, fun k hk => rasterStream_getElem? c sym hk fg bg,
    rasterStream_drop_glyph c sym hn fg bg, fun hne => count_rasterStream c sym hne n⟩

end Sys2Proof.Machine
end

section
/-! SUPPORT. Decimal formatting of 43_text_layout.md (rule R198): `digits` satisfies the recursion of the rule whatever the fuel,
its length is the base-10 logarithm and one, and from these O23. -/

namespace Sys2Proof.Machine

/-! ### The recursion -/

/-- Fuel that reaches the number is enough: more of it changes nothing. -/
theorem digitsFuel_eq_of_le {f g m : Nat} (hf : m ≤ f) (hg : m ≤ g) : digitsFuel f m = digitsFuel g m := by
  have base (g : Nat) : digitsFuel g 0 = [0x30] := by cases g <;> rfl
  induction f generalizing m g with
  | zero => rw [Nat.le_zero.1 hf, base, base]
  | succ f ih =>
    cases g with
    | zero => rw [Nat.le_zero.1 hg, base, base]
    | succ g => rw [digitsFuel, digitsFuel, ih (m := m / 10) (g := g) (by omega) (by omega)]

theorem digits_of_lt {m : Nat} (h : m < 10) : digits m = [BitVec.ofNat 8 (0x30 + m)] := by
  cases m with
  | zero => rfl
  | succ m => rw [digits, digitsFuel, if_pos h]

theorem digits_of_ge {m : Nat} (h : 10 ≤ m) : digits m = digits (m / 10) ++ [BitVec.ofNat 8 (0x30 + m % 10)] := by
  cases m with
  | zero => omega
  | succ m => rw [digits, digitsFuel, if_neg h.not_gt, digits, digitsFuel_eq_of_le (f := m) (by omega) le_rfl]

theorem dec_of_nonneg {n : Int} (h : 0 ≤ n) : dec n = digits n.toNat := if_neg h.not_gt

theorem dec_of_neg {n : Int} (h : n < 0) : dec n = 0x2D :: digits (-n).toNat := if_pos h

/-! ### Lengths -/

theorem digits_length (m : Nat) : (digits m).length = Nat.log 10 m + 1 := by
  induction m using Nat.strongRec with
  | ind m ih =>
    rcases Nat.lt_or_ge m 10 with h | h
    · rw [digits_of_lt h, Nat.log_of_lt h, List.length_singleton]
    · rw [digits_of_ge h, List.length_append, ih (m / 10) (by omega), List.length_singleton,
        Nat.log_of_one_lt_of_le (by decide) h]

theorem dec_length_of_nonneg {n : Int} (h : 0 ≤ n) : (dec n).length = Nat.log 10 n.toNat + 1 := by
  rw [dec_of_nonneg h, digits_length]

theorem dec_length_of_neg {n : Int} (h : n < 0) : (dec n).length = Nat.log 10 (-n).toNat + 2 := by
  rw [dec_of_neg h, List.length_cons, digits_length]

theorem log_le_four {m : Nat} (h : m ≤ 32768) : Nat.log 10 m ≤ 4 :=
  Nat.le_of_lt_succ (Nat.log_lt_of_lt_pow' (by decide) (by omega))

/-- Settles O23: the equations of R198, and its lengths read off the logarithm of the magnitude. -/
theorem decimalIsTheRecursion : Obligations.DecimalIsTheRecursion := by
  have equation (m : Nat) : digits m =
      if m < 10 then [BitVec.ofNat 8 (0x30 + m)] else digits (m / 10) ++ [BitVec.ofNat 8 (0x30 + m % 10)] := by
    split <;> rename_i h
    · exact digits_of_lt h
    · exact digits_of_ge (Nat.not_lt.1 h)
  have short {n : Int} (h0 : 0 ≤ n) (h : n ≤ 32767) : (dec n).length ≤ 5 := by
    rw [dec_length_of_nonneg h0]
    exact Nat.succ_le_succ (log_le_four (by omega))
  refine ⟨fun _ => rfl, equation, fun n h0 h9 => ?_, fun n => short, fun n hlo hhi => ?_, ?_, ?_⟩
  · rw [dec_length_of_nonneg h0, Nat.log_of_lt (by omega)]
  · rcases Int.lt_or_le n 0 with h | h
    · rw [dec_length_of_neg h]
      exact Nat.add_le_add_right (log_le_four (by omega)) 2
    · exact (short h hhi).trans (by decide)
  · rw [dec_length_of_nonneg (by decide), Nat.log_eq_of_pow_le_of_lt_pow (m := 4) (by decide) (by decide)]
  · rw [dec_length_of_neg (by decide), Nat.log_eq_of_pow_le_of_lt_pow (m := 4) (by decide) (by decide)]

end Sys2Proof.Machine
end

section
/-! SUPPORT. NL of 43_text_layout.md (rules R194 and R200), and from it O35. -/

namespace Sys2Proof.Machine

/-- Settles O35: the row decides between the two outcomes of `newLineStep`. -/
theorem nlStartsANewLine : Obligations.NlStartsANewLine := by
  intro s hs _
  rcases newLineStep_cases s with ⟨fits, moves⟩ | ⟨leaves, refuses⟩
  · refine ⟨fun _ => ?_, fun h => absurd fits h.not_ge⟩
    rw [exec_running .nl hs, commandRule, moves, u16Of_natCast]
    rfl
  · exact ⟨fun h => absurd leaves h.not_gt, fun _ => exec_of_raise (i := .nl) hs refuses⟩

end Sys2Proof.Machine
end

section
/-! SUPPORT. SIZ of 44_font_config.md (rule R220), and from it O36. -/

namespace Sys2Proof.Machine

/-- Everything SIZ can do (R220). -/
theorem commandRule_siz_cases (a : Byte) (s : State) :
    (a ≠ 0 ∧ commandRule (.siz a) s = { s with size := a }) ∨
    (a = 0 ∧ commandRule (.siz a) s = s.raise .badSize 0) := by
  by_cases h : a = 0
  · exact .inr ⟨h, if_pos h⟩
  · exact .inl ⟨h, if_neg h⟩

/-- Settles O36: the operand decides between the two outcomes of the command's own rule. -/
theorem sizSetsTheSize : Obligations.SizSetsTheSize := by
  intro a s hs
  rcases commandRule_siz_cases a s with ⟨nonzero, sets⟩ | ⟨zero, refuses⟩
  · refine ⟨fun _ => ?_, fun h => absurd h nonzero⟩
    rw [exec_running _ hs, sets]
    rfl
  · exact ⟨fun h => absurd zero h, fun _ => exec_of_raise hs refuses⟩

end Sys2Proof.Machine
end

section
/-! SUPPORT. The halted block of 60_exceptions.md (rule R233): what a command, an illegal byte and a step do to it, and from these
O9. -/

namespace Sys2Proof.Machine

theorem exec_halted (i : Instr) {s : State} (hf : s.fault = true) : exec i s = .next s.advance := by
  rw [exec_eq, runCommand_halted hf]

theorem illegalOpcode_halted (b : Byte) {s : State} (hf : s.fault = true) : illegalOpcode b s = s.advance :=
  if_pos hf

/-- A step of a halted block only takes its bytes from the stream, whatever they are. -/
theorem step_halted {s t : State} (hf : s.fault = true) (h : step s = .next t) :
    ∃ rest, t = State.advance { s with cmdIn := rest } := by
  obtain ⟨-, ⟨i, rest, -, ht⟩ | ⟨b, rest, -, rfl⟩⟩ := step_cases h
  · exact ⟨rest, Host.Outcome.next.inj (ht.symm.trans (exec_halted i hf))⟩
  · exact ⟨rest, illegalOpcode_halted b hf⟩

/-- Settles O9: on a halted block the template is `State.advance` alone, and the reset state has no fault. -/
theorem haltedBlockIgnoresEveryCommand : Obligations.HaltedBlockIgnoresEveryCommand := by
  refine ⟨fun i _ hf => exec_halted i hf, fun s t hf h => ?_, fun _ => hardwareReset_fault _⟩
  obtain ⟨rest, rfl⟩ := step_halted hf h
  rfl

end Sys2Proof.Machine
end

section
/-! SUPPORT. The cursor a hardware reset leaves, as signed values (10_state.md rule R35, 70_reset_and_hazards.md
rule R261), and from it O8. -/

namespace Sys2Proof.Machine

/-- R8 bounds GAP by 32767, so the reset column reads back as GAP and not as a negative number. -/
theorem hardwareReset_col_toInt {s : State} (hc : s.cfg.wf = true) : (hardwareReset s).col.toInt = s.cfg.gap := by
  obtain ⟨-, -, -, -, -, gapFits⟩ := Cfg.wf_screen hc
  rw [hardwareReset_col, ← u16Of_natCast]
  exact toInt_u16Of (by omega) (by omega)

theorem hardwareReset_row_toInt (s : State) : (hardwareReset s).row.toInt = 2 := by
  rw [hardwareReset_row]
  decide

/-- Settles O8: GAP fits int16, and every other field is read off the reset state. -/
theorem hardwareResetState : Obligations.HardwareResetState := by
  intro s hc
  refine ⟨hardwareReset_cfg s, hardwareReset_col_toInt hc, hardwareReset_row_toInt s, ?_⟩
  simp [Pins.unset, Panel.afterHardwareReset_eq]

end Sys2Proof.Machine
end

section
/-! SUPPORT. Decoder and encoder as inverses (30_encoding.md rules R111, R113, R115): one pair of lemmas per operand format,
which opcode bytes select no command (R116), what `step` makes of each, and from these O1 to O4, O6 and O7. -/

namespace Sys2Proof

open Sys2Proof.Machine

/-! ### The operands of a format, encoded -/

theorem decodeH_halfBytes (mk : Half → Instr) (h : Half) (rest : List Byte) :
    decodeH mk (halfBytes h ++ rest) = .command (mk h) rest := by
  simp [halfBytes, decodeH, cat16_hi8_lo8]

theorem decodeW_halfBytes (mk : Half → Half → Half → Half → Instr) (a b c d : Half) (rest : List Byte) :
    decodeW mk (halfBytes a ++ halfBytes b ++ halfBytes c ++ halfBytes d ++ rest) = .command (mk a b c d) rest := by
  simp [halfBytes, decodeW, cat16_hi8_lo8]

theorem decodeR_halfBytes (mk : Half → Half → Half → Half → Half → Instr) (a b c d e : Half) (rest : List Byte) :
    decodeR mk (halfBytes a ++ halfBytes b ++ halfBytes c ++ halfBytes d ++ halfBytes e ++ rest) =
      .command (mk a b c d e) rest := by
  simp [halfBytes, decodeR, cat16_hi8_lo8]

theorem decodeS_symbols (mk : List Byte → Instr) {syms : List Byte} (h : syms.length ≤ 255) (rest : List Byte) :
    decodeS mk (BitVec.ofNat 8 syms.length :: syms ++ rest) = .command (mk syms) rest := by
  have hlen : (BitVec.ofNat 8 syms.length).toNat = syms.length := Nat.mod_eq_of_lt (by omega)
  simp only [decodeS, List.cons_append, hlen]
  simp

theorem decodeOperands_operandBytes {i : Instr} (hw : i.wf = true) (rest : List Byte) :
    decodeOperands i.mnemonic (i.operandBytes ++ rest) = .command i rest := by
  cases i with
  | selc | seld | rdb | init | nl => rfl
  | wrb | cmd | dat | clr | chr | era | siz => rfl
  | int | fgc | bgc => exact decodeH_halfBytes _ _ rest
  | win => exact decodeW_halfBytes _ _ _ _ _ rest
  | rect => exact decodeR_halfBytes _ _ _ _ _ _ rest
  | str syms => exact decodeS_symbols _ (of_decide_eq_true hw) rest

/-- Settles O2: the opcode selects the command, and its format's decoder reads the operands back. -/
theorem encodeThenDecode : Obligations.EncodeThenDecode := by
  intro i hw rest
  rw [encode, List.cons_append, decode_opcode_cons, decodeOperands_operandBytes hw]

/-! ### The operands of a format, decoded -/

theorem hi8_cat16 (h l : Byte) : hi8 (cat16 h l) = h := BitVec.extractLsb'_append_eq_left

theorem lo8_cat16 (h l : Byte) : lo8 (cat16 h l) = l := BitVec.extractLsb'_append_eq_right

theorem halfBytes_cat16 (h l : Byte) : halfBytes (cat16 h l) = [h, l] := by
  rw [halfBytes, hi8_cat16, lo8_cat16]

theorem decodeB_eq_command {mk : Byte → Instr} {bs rest : List Byte} {i : Instr} (h : decodeB mk bs = .command i rest) :
    ∃ a, i = mk a ∧ bs = a :: rest := by
  unfold decodeB at h
  split at h <;> cases h
  exact ⟨_, rfl, rfl⟩

theorem decodeH_eq_command {mk : Half → Instr} {bs rest : List Byte} {i : Instr} (h : decodeH mk bs = .command i rest) :
    ∃ v, i = mk v ∧ bs = halfBytes v ++ rest := by
  unfold decodeH at h
  split at h <;> cases h
  exact ⟨_, rfl, by simp [halfBytes_cat16]⟩

theorem decodeW_eq_command {mk : Half → Half → Half → Half → Instr} {bs rest : List Byte} {i : Instr}
    (h : decodeW mk bs = .command i rest) :
    ∃ a b c d, i = mk a b c d ∧ bs = halfBytes a ++ halfBytes b ++ halfBytes c ++ halfBytes d ++ rest := by
  unfold decodeW at h
  split at h <;> cases h
  exact ⟨_, _, _, _, rfl, by simp [halfBytes_cat16]⟩

theorem decodeR_eq_command {mk : Half → Half → Half → Half → Half → Instr} {bs rest : List Byte} {i : Instr}
    (h : decodeR mk bs = .command i rest) : ∃ a b c d e, i = mk a b c d e ∧
      bs = halfBytes a ++ halfBytes b ++ halfBytes c ++ halfBytes d ++ halfBytes e ++ rest := by
  unfold decodeR at h
  split at h <;> cases h
  exact ⟨_, _, _, _, _, rfl, by simp [halfBytes_cat16]⟩

theorem decodeS_eq_command {mk : List Byte → Instr} {bs rest : List Byte} {i : Instr} (h : decodeS mk bs = .command i rest) :
    ∃ syms, syms.length ≤ 255 ∧ i = mk syms ∧ bs = BitVec.ofNat 8 syms.length :: syms ++ rest := by
  unfold decodeS at h
  split at h
  · rename_i len tail
    have hlen := len.isLt
    split at h <;> cases h
    rename_i hle
    refine ⟨_, ?_, rfl, ?_⟩
    · rw [List.length_take_of_le hle]; omega
    · rw [List.length_take_of_le hle, BitVec.ofNat_toNat, BitVec.setWidth_eq, List.cons_append, List.take_append_drop]
  · cases h

/-- What a format's decoder reads is the operand bytes of the term it answers. -/
theorem decodeOperands_eq_command {m : Mnemonic} {bs rest : List Byte} {i : Instr}
    (h : decodeOperands m bs = .command i rest) : i.wf = true ∧ i.mnemonic = m ∧ bs = i.operandBytes ++ rest := by
  cases m with
  | selc | seld | rdb | init | nl => cases h; exact ⟨rfl, rfl, rfl⟩
  | wrb | cmd | dat | clr | chr | era | siz =>
    obtain ⟨a, rfl, rfl⟩ := decodeB_eq_command h
    exact ⟨rfl, rfl, rfl⟩
  | int | fgc | bgc =>
    obtain ⟨v, rfl, rfl⟩ := decodeH_eq_command h
    exact ⟨rfl, rfl, rfl⟩
  | win =>
    obtain ⟨a, b, c, d, rfl, rfl⟩ := decodeW_eq_command h
    exact ⟨rfl, rfl, rfl⟩
  | rect =>
    obtain ⟨a, b, c, d, e, rfl, rfl⟩ := decodeR_eq_command h
    exact ⟨rfl, rfl, rfl⟩
  | str =>
    obtain ⟨syms, hlen, rfl, rfl⟩ := decodeS_eq_command h
    exact ⟨decide_eq_true hlen, rfl, rfl⟩

theorem opcode_of_mnemonicOf? {b : Byte} {m : Mnemonic} (h : mnemonicOf? b = some m) : b = m.opcode :=
  (beq_iff_eq.1 (List.find?_some (p := fun m : Mnemonic => m.opcode == b) h)).symm

/-- Settles O3: the opcode byte is the mnemonic's, and the operands are those the format's decoder has read. -/
theorem decodeThenEncode : Obligations.DecodeThenEncode := by
  intro bs i rest h
  cases bs with
  | nil => cases h
  | cons b bs =>
    simp only [decode] at h
    split at h
    · rename_i m hm
      obtain ⟨hw, rfl, rfl⟩ := decodeOperands_eq_command h
      rw [opcode_of_mnemonicOf? hm]
      exact ⟨hw, rfl⟩
    · cases h

/-! ### Illegal opcodes -/

theorem decodeB_ne_illegal (mk : Byte → Instr) (bs : List Byte) (b : Byte) (rest : List Byte) :
    decodeB mk bs ≠ .illegal b rest := by
  unfold decodeB
  split <;> simp

theorem decodeH_ne_illegal (mk : Half → Instr) (bs : List Byte) (b : Byte) (rest : List Byte) :
    decodeH mk bs ≠ .illegal b rest := by
  unfold decodeH
  split <;> simp

theorem decodeOperands_ne_illegal (m : Mnemonic) (bs : List Byte) (b : Byte) (rest : List Byte) :
    decodeOperands m bs ≠ .illegal b rest := by
  cases m with
  | selc | seld | rdb | init | nl => simp [decodeOperands]
  | wrb | cmd | dat | clr | chr | era | siz => exact decodeB_ne_illegal _ bs b rest
  | int | fgc | bgc => exact decodeH_ne_illegal _ bs b rest
  | win => simp only [decodeOperands, decodeW]; split <;> simp
  | rect => simp only [decodeOperands, decodeR]; split <;> simp
  | str =>
    simp only [decodeOperands, decodeS]
    split
    · split <;> simp
    · simp

theorem decode_eq_illegal_iff (b : Byte) (rest : List Byte) :
    decode (b :: rest) = .illegal b rest ↔ mnemonicOf? b = none := by
  simp only [decode]
  cases h : mnemonicOf? b with
  | none => simp
  | some m => simp [decodeOperands_ne_illegal]

/-- R116: the bytes that are no opcode of R113. -/
theorem mnemonicOf?_eq_none_iff (b : Byte) : mnemonicOf? b = none ↔
    b.toNat = 0x00 ∨ (0x05 ≤ b.toNat ∧ b.toNat ≤ 0x0F) ∨ (0x15 ≤ b.toNat ∧ b.toNat ≤ 0x1F) ∨
      (0x21 ≤ b.toNat ∧ b.toNat ≤ 0x2F) ∨ (0x35 ≤ b.toNat ∧ b.toNat ≤ 0x3F) ∨ 0x43 ≤ b.toNat := by
  simp [mnemonicOf?, Mnemonic.all, Mnemonic.opcode, ← BitVec.toNat_inj]
  omega

namespace Machine

theorem step_of_illegal {s : State} {b : Byte} {rest : List Byte} (hc : s.cfg.wf = true)
    (hd : decode s.cmdIn = .illegal b rest) : step s = .next (illegalOpcode b { s with cmdIn := rest }) := by
  simp [step, hc, hd]

theorem illegalOpcode_of_noFault (b : Byte) {s : State} (hf : s.fault = false) :
    illegalOpcode b s = (s.raise .illegalOpcode (zext16 b)).advance := by
  simp [illegalOpcode, hf]

/-- Settles O4: an opcode byte is illegal when no mnemonic has it, and then the step is `illegalOpcode`. -/
theorem illegalOpcodeFaults : Obligations.IllegalOpcodeFaults := by
  intro b rest
  refine ⟨(decode_eq_illegal_iff b rest).trans (mnemonicOf?_eq_none_iff b), fun s hc hf hs hd => ?_⟩
  rw [step_of_illegal hc (hs ▸ hd), illegalOpcode_of_noFault b (s := { s with cmdIn := rest }) hf]
  rfl

/-! ### Commands -/

/-- Settles O1: each string runs through the decoder of its format. -/
theorem specWordsDecode : Obligations.SpecWordsDecode :=
  ⟨rfl, rfl, rfl, rfl, rfl, rfl, rfl, rfl⟩

/-- Settles O6: the two tests of `step` are the two hypotheses. -/
theorem stepRunsTheDecodedCommand : Obligations.StepRunsTheDecodedCommand := by
  intro s i rest hc hd
  simp [step, hc, hd]

/-- The numeric bounds and the distinctness of R8 are part of `Cfg.wf`. -/
theorem Cfg.wf_bounds {c : Cfg} (h : c.wf = true) :
    1 ≤ c.screenW ∧ c.screenW ≤ 32767 ∧ 1 ≤ c.screenH ∧ c.screenH ≤ 32767 ∧ c.gap < c.screenW ∧ c.gap ≤ 32767 ∧
      c.sizeReset ≠ 0 ∧ c.initSeq.length = 5 ∧ c.panelOpcodes.Nodup := by
  simp only [Cfg.wf, Bool.and_eq_true, decide_eq_true_eq] at h
  tauto

/-- Settles O7: a configuration that breaks a bound is not well formed, and an empty stream decodes to nothing. -/
theorem noStepWithoutConfigurationOrCommand : Obligations.NoStepWithoutConfigurationOrCommand := by
  refine ⟨fun s hbad => ?_, fun s hc hs => by simp [step, hc, hs, decode]⟩
  have hc : ¬s.cfg.wf = true := fun hc => by
    obtain ⟨h1, h2, h3, h4, h5, h6, h7, h8, h9⟩ := Cfg.wf_bounds hc
    have size : 1 ≤ s.cfg.sizeReset.toNat := Nat.one_le_iff_ne_zero.2 fun h => h7 (BitVec.eq_of_toNat_eq h)
    exact hbad ⟨h1, h2, h3, h4, h5, h6, size, h8, h9⟩
  exact if_neg hc

end Machine
end Sys2Proof
end

section
/-! SUPPORT. What the command template lets through (10_state.md rule R37, 30_encoding.md rule R121, 60_exceptions.md rules
R232 and R235): NOT_READY, the write columns of every command, where a fault can fall, the trace, and from these O10, O37,
O55, O56 and O59. -/

namespace Sys2Proof.Machine

/-! ### Single commands -/

theorem Instr.mnemonic_ne_init {i : Instr} (h : i ≠ .init) : i.mnemonic ≠ .init := by
  cases i with
  | init => exact absurd rfl h
  | _ => exact Mnemonic.noConfusion

/-- Settles O10: the template raises NOT_READY with the opcode, the first byte of the encoding. -/
theorem notReadyRefusesAllButInit : Obligations.NotReadyRefusesAllButInit := by
  intro i s hi hr hf
  rw [exec_eq, runCommand_notReady (Instr.mnemonic_ne_init hi) hr hf]
  rfl

/-- Settles O37: the own rules of FGC and BGC are one field each. -/
theorem colorCommandsSetTheirField : Obligations.ColorCommandsSetTheirField := by
  intro h s hs
  exact ⟨exec_running (.fgc h) hs, exec_running (.bgc h) hs⟩

/-! ### The write columns of R37 -/

/-- The commands that write to the bus through `writeCommand` and `writeData`. -/
def busWriters : List Mnemonic := [.init, .cmd, .dat, .win, .rect, .clr, .chr, .str, .int, .era]

/-- `t` differs from `s` at most in the fault fields, the trace, the panel, and what R37 lets command `m` write. -/
structure WritesOnly (m : Mnemonic) (s t : State) : Prop where
  cfg : t.cfg = s.cfg
  cmdIn : t.cmdIn = s.cmdIn
  cp : t.cp = s.cp
  cursor : m ∉ [Mnemonic.init, .clr, .chr, .str, .int, .nl] → t.col = s.col ∧ t.row = s.row
  size : m ≠ .siz → t.size = s.size
  fg : m ≠ .fgc → t.fg = s.fg
  bg : m ≠ .bgc → t.bg = s.bg
  rs : m ∉ .selc :: .seld :: .rdb :: busWriters → t.pins.rs = s.pins.rs
  written : m ∉ .wrb :: busWriters → t.pins.wr = s.pins.wr ∧ t.pins.dout = s.pins.dout
  read : m ∉ [Mnemonic.rdb, .init] → t.pins.rd = s.pins.rd ∧ t.pins.ddir = s.pins.ddir
  lines : m ≠ .init → t.pins.rst = s.pins.rst ∧ t.pins.cs = s.pins.cs ∧ t.pins.ctlOut = s.pins.ctlOut ∧ t.ready = s.ready
  responses : m ≠ .rdb → t.respOut = s.respOut ∧ t.samples = s.samples

theorem writesOnly_raise (m : Mnemonic) (s : State) (k : Cause) (w : Half) : WritesOnly m s (s.raise k w) := by
  constructor <;> simp

theorem writesOnly_refl (m : Mnemonic) (s : State) : WritesOnly m s s := by
  constructor <;> simp

/-- A frame of `Laws/Frame.lean` leaves the cursor and the three write latches to be looked at. -/
theorem WriteFrame.writesOnly {m : Mnemonic} {s t : State} (h : WriteFrame s t)
    (cursor : m ∉ [Mnemonic.init, .clr, .chr, .str, .int, .nl] → t.col = s.col ∧ t.row = s.row)
    (rs : m ∉ .selc :: .seld :: .rdb :: busWriters → t.pins.rs = s.pins.rs)
    (written : m ∉ .wrb :: busWriters → t.pins.wr = s.pins.wr ∧ t.pins.dout = s.pins.dout) : WritesOnly m s t where
  cfg := h.cfg
  cmdIn := h.cmdIn
  cp := h.cp
  cursor := cursor
  size _ := h.size
  fg _ := h.fg
  bg _ := h.bg
  rs := rs
  written := written
  read _ := by rw [h.lines]; exact ⟨rfl, rfl⟩
  lines _ := by rw [h.lines]; exact ⟨rfl, rfl, rfl, h.ready⟩
  responses _ := ⟨h.respOut, h.samples⟩

/-- A bus writer may write all three latches. -/
theorem WriteFrame.writesOnly_of_busWriter {m : Mnemonic} {s t : State} (h : WriteFrame s t) (hm : m ∈ busWriters)
    (cursor : m ∉ [Mnemonic.init, .clr, .chr, .str, .int, .nl] → t.col = s.col ∧ t.row = s.row) : WritesOnly m s t :=
  h.writesOnly cursor (fun hn => absurd (by simp [hm]) hn) (fun hn => absurd (by simp [hm]) hn)

/-- R37: the own rule of every command writes only what its column lists. -/
theorem commandRule_writesOnly (i : Instr) (s : State) : WritesOnly i.mnemonic s (commandRule i s) := by
  cases i with
  | wrb a =>
    exact (writeFrame_emits rfl).writesOnly (m := .wrb) (fun _ => ⟨rfl, rfl⟩) (fun _ => rfl) fun h => absurd (by decide) h
  | selc =>
    exact (writeFrame_emits rfl).writesOnly (m := .selc) (fun _ => ⟨rfl, rfl⟩) (fun h => absurd (by decide) h)
      fun _ => ⟨rfl, rfl⟩
  | seld =>
    exact (writeFrame_emits rfl).writesOnly (m := .seld) (fun _ => ⟨rfl, rfl⟩) (fun h => absurd (by decide) h)
      fun _ => ⟨rfl, rfl⟩
  | rdb =>
    constructor <;> simp [Instr.mnemonic, commandRule, readByte, readByteEvents, pinsAfter, Pins.apply]
  | init => constructor <;> simp [Instr.mnemonic, commandRule, fastClear, busWriters]
  | cmd a => exact (writeFrame_emits rfl).writesOnly_of_busWriter (m := .cmd) (by decide) fun _ => ⟨rfl, rfl⟩
  | dat a => exact (writeFrame_emits rfl).writesOnly_of_busWriter (m := .dat) (by decide) fun _ => ⟨rfl, rfl⟩
  | win col row width height =>
    obtain ⟨frame, cursor⟩ := writeFrame_windowed col.toInt row.toInt width.toInt height.toInt [] s
    exact frame.writesOnly_of_busWriter (m := .win) (by decide) fun _ => cursor
  | rect col row width height color =>
    obtain ⟨frame, cursor⟩ := writeFrame_windowed col.toInt row.toInt width.toInt height.toInt
      (List.replicate (width.toInt.toNat * height.toInt.toNat) color) s
    exact frame.writesOnly_of_busWriter (m := .rect) (by decide) fun _ => cursor
  | clr a =>
    exact (writeFrame_fastClear a s).writesOnly_of_busWriter (m := .clr) (by decide) fun h => absurd (by decide) h
  | chr a =>
    exact (writeFrame_renderSymbol a s).writesOnly_of_busWriter (m := .chr) (by decide) fun h => absurd (by decide) h
  | str syms =>
    exact (writeFrame_renderSymbols syms s).writesOnly_of_busWriter (m := .str) (by decide) fun h => absurd (by decide) h
  | int h =>
    exact (writeFrame_renderChars _ s).writesOnly_of_busWriter (m := .int) (by decide) fun h => absurd (by decide) h
  | era a =>
    obtain ⟨frame, cursor⟩ := writeFrame_eraseCells a.toNat s
    exact frame.writesOnly_of_busWriter (m := .era) (by decide) fun _ => cursor
  | nl =>
    rcases newLineStep_cases s with ⟨-, moves⟩ | ⟨-, refuses⟩
    · rw [commandRule, moves]
      exact (writeFrame_setCursor ..).writesOnly (m := .nl) (fun h => absurd (by decide) h) (fun _ => rfl)
        fun _ => ⟨rfl, rfl⟩
    · rw [commandRule, refuses]
      exact writesOnly_raise ..
  | siz a =>
    rcases commandRule_siz_cases a s with ⟨-, sets⟩ | ⟨-, refuses⟩
    · rw [sets]
      constructor <;> simp [Instr.mnemonic]
    · rw [refuses]
      exact writesOnly_raise ..
  | fgc h => constructor <;> simp [Instr.mnemonic, commandRule]
  | bgc h => constructor <;> simp [Instr.mnemonic, commandRule]

/-- Settles O55: whatever the template lets through keeps R37's columns, and then `cp` moves on. -/
theorem onlyTheseCommandsWrite : Obligations.OnlyTheseCommandsWrite := by
  intro i s t h
  obtain ⟨u, hu, rfl⟩ : ∃ u, WritesOnly i.mnemonic s u ∧ t = u.advance := by
    rcases exec_cases h with ⟨-, rfl⟩ | ⟨-, -, -, rfl⟩ | ⟨-, -, rfl⟩
    · exact ⟨s, writesOnly_refl _ s, rfl⟩
    · exact ⟨_, writesOnly_raise .., rfl⟩
    · exact ⟨_, commandRule_writesOnly i s, rfl⟩
  exact ⟨hu.cfg, hu.cmdIn, congrArg Nat.succ hu.cp, hu.cursor, hu.size, hu.fg, hu.bg, hu.rs, hu.written, hu.read, hu.lines,
    hu.responses⟩

/-! ### Where a fault can fall -/

theorem Cause.code_bounds (k : Cause) : 1 ≤ k.code.toNat ∧ k.code.toNat ≤ 6 := by
  cases k <;> decide

/-- One operation that faults has only raised (R232, R234). -/
def FaultsFirst (s t : State) : Prop := t.fault = true → ∃ k info, t = s.raise k info

theorem faultsFirst_raise (s : State) (k : Cause) (info : Half) : FaultsFirst s (s.raise k info) := fun _ => ⟨k, info, rfl⟩

theorem faultsFirst_of_noFault {s t : State} (h : t.fault = false) : FaultsFirst s t := fun ht => by simp [h] at ht

theorem faultsFirst_windowed {s : State} (hf : s.fault = false) (col row w h : Int) (ps : List Half) :
    FaultsFirst s (windowed col row w h ps s) := by
  rcases windowed_cases col row w h ps s with ⟨k, -, e⟩ | ⟨-, e⟩ <;> rw [e]
  · exact faultsFirst_raise s _ _
  · exact faultsFirst_of_noFault hf

theorem faultsFirst_renderChar {s : State} (hf : s.fault = false) (sym : Byte) : FaultsFirst s (renderChar sym s) := by
  rcases renderChar_cases sym s with ⟨info, e⟩ | ⟨nc, nr, ac, -, e⟩ <;> rw [e]
  · exact faultsFirst_raise s _ _
  · exact faultsFirst_of_noFault hf

theorem renderSymbol_legal {sym : Byte} (h : symbolLegal sym = true) (s : State) :
    renderSymbol sym s = renderChar sym s := if_pos h

theorem renderSymbol_illegal {sym : Byte} (h : ¬symbolLegal sym = true) (s : State) :
    renderSymbol sym s = s.raise .badSymbol (zext16 sym) := if_neg h

theorem faultsFirst_renderSymbol {s : State} (hf : s.fault = false) (sym : Byte) : FaultsFirst s (renderSymbol sym s) := by
  by_cases h : symbolLegal sym = true
  · rw [renderSymbol_legal h]
    exact faultsFirst_renderChar hf sym
  · rw [renderSymbol_illegal h]
    exact faultsFirst_raise s _ _

/-- R235: of all commands only STR and INT can fault after an effect. -/
theorem faultsFirst_commandRule {i : Instr} {s : State} (hf : s.fault = false) (hstr : i.mnemonic ≠ .str)
    (hint : i.mnemonic ≠ .int) : FaultsFirst s (commandRule i s) := by
  cases i with
  | str => exact absurd rfl hstr
  | int => exact absurd rfl hint
  | wrb | selc | seld | cmd | dat | fgc | bgc => exact faultsFirst_of_noFault hf
  | rdb => exact faultsFirst_of_noFault (by simp [commandRule, readByte, hf])
  | init | clr => exact faultsFirst_of_noFault (by simp [commandRule, fastClear, hf])
  | win | rect => exact faultsFirst_windowed hf _ _ _ _ _
  | chr a => exact faultsFirst_renderSymbol hf a
  | era a =>
    rcases eraseCells_cases a.toNat s with ⟨-, e⟩ | ⟨-, e⟩ <;> rw [commandRule, e]
    · exact faultsFirst_raise s _ _
    · exact faultsFirst_windowed hf _ _ _ _ _
  | nl =>
    rcases newLineStep_cases s with ⟨-, e⟩ | ⟨-, e⟩ <;> rw [commandRule, e]
    · exact faultsFirst_of_noFault hf
    · exact faultsFirst_raise s _ _
  | siz a =>
    rcases commandRule_siz_cases a s with ⟨-, e⟩ | ⟨-, e⟩ <;> rw [e]
    · exact faultsFirst_of_noFault hf
    · exact faultsFirst_raise s _ _

theorem renderSymbols_cons_fault {sym : Byte} {s : State} (h : (renderSymbol sym s).fault = true) (syms : List Byte) :
    renderSymbols (sym :: syms) s = renderSymbol sym s := if_pos h

theorem renderSymbols_cons_noFault {sym : Byte} {s : State} (h : (renderSymbol sym s).fault = false) (syms : List Byte) :
    renderSymbols (sym :: syms) s = renderSymbols syms (renderSymbol sym s) := by
  simp [renderSymbols, h]

/-- R235: a text that faults has drawn the symbols before the faulting one, and then only raised. -/
theorem renderSymbols_fault {syms : List Byte} {s : State} (hf : s.fault = false) (h : (renderSymbols syms s).fault = true) :
    ∃ j < syms.length, (renderSymbols (syms.take j) s).fault = false ∧
      ∃ k info, renderSymbols syms s = (renderSymbols (syms.take j) s).raise k info := by
  induction syms generalizing s with
  | nil => simp [renderSymbols, hf] at h
  | cons sym syms ih =>
    cases hsym : (renderSymbol sym s).fault with
    | true =>
      rw [renderSymbols_cons_fault hsym]
      exact ⟨0, by simp, hf, faultsFirst_renderSymbol hf sym hsym⟩
    | false =>
      rw [renderSymbols_cons_noFault hsym] at h ⊢
      obtain ⟨j, hj, hfree, hraise⟩ := ih hsym h
      refine ⟨j + 1, by simpa using hj, ?_⟩
      rw [List.take_succ_cons, renderSymbols_cons_noFault hsym]
      exact ⟨hfree, hraise⟩

/-- Settles O56: every other command raises first, and STR is its symbols one by one. -/
theorem faultsArePrecise : Obligations.FaultsArePrecise := by
  refine ⟨fun i s t hf h ht hstr hint => ?_, fun syms s t hs h ht => ?_⟩
  · obtain ⟨k, info, rfl⟩ : ∃ k info, t = (s.raise k info).advance := by
      rcases exec_cases h with ⟨halted, -⟩ | ⟨-, -, -, rfl⟩ | ⟨-, -, rfl⟩
      · simp [hf] at halted
      · exact ⟨_, _, rfl⟩
      · obtain ⟨k, info, e⟩ := faultsFirst_commandRule hf hstr hint ht
        exact ⟨k, info, congrArg State.advance e⟩
    exact ⟨k.code, info, rfl, k.code_bounds⟩
  · rw [exec_running _ hs, Host.Outcome.next.injEq] at h
    subst h
    obtain ⟨j, hj, hfree, k, info, hraise⟩ := renderSymbols_fault hs.2 ht
    refine ⟨j, _, k.code, info, hj, exec_running _ hs, hfree, ?_⟩
    rw [commandRule, hraise]
    rfl

/-! ### The trace -/

/-- The trace of a longer run explains what the shorter one's did. -/
theorem TraceExplains.moves {P : Panel} {s t : State} {evs : List PinEvent} (h : TraceExplains P s) (hm : MovesBy s t evs) :
    TraceExplains P t where
  pins := by rw [hm.pins, hm.trace, pinsAfter_append, ← h.pins]
  panel := by rw [hm.panel, hm.trace, hm.cfg, panelAfter_append, ← h.pins, ← h.panel]
  responses := by rw [hm.responses, hm.trace, List.filterMap_append, ← h.responses]

/-- Settles O59: a step moves pins, panel, trace and responses by one list of events (`step_moves`). -/
theorem stepKeepsTraceExplains : Obligations.StepKeepsTraceExplains := by
  intro P s t h hst
  obtain ⟨evs, hm⟩ := step_moves hst
  exact ⟨h.moves hm, evs, hm.trace.symm⟩

end Sys2Proof.Machine
end

section
/-! SUPPORT. RDB of 40_bus_interface.md (rules R143 and R147): its pins, its one item, and from these O13 and O14. -/

namespace Sys2Proof.Machine

theorem transactions_readByte (p : Pins) (v : Byte) : transactions p (readByteEvents v) = [.rd v] := by
  simp [readByteEvents, transactions, transactionOf, Pins.apply]

/-- The bus turns back to output and the read strobe returns to the level it stood at, so only RS moves (R143). -/
theorem pinsAfter_readByte {p : Pins} (hd : p.ddir = .is .out) (hr : p.rd = .is .high) (v : Byte) :
    pinsAfter p (readByteEvents v) = { p with rs := .is .high } := by
  simp [pinsAfter, readByteEvents, Pins.apply, ← hd, ← hr]

theorem panelAfter_readByte (c : Cfg) (p : Pins) (P : Panel) (v : Byte) :
    panelAfter c p P (readByteEvents v) = P.accept c p.cs (.rd v) := by
  have noCs : ∀ l, PinEvent.set .cs l ∉ readByteEvents v := by simp [readByteEvents]
  rw [panelAfter_eq_foldl c noCs, transactions_readByte]
  rfl

/-- The host's port and the trace see a response, the wires do not (R10, R122). -/
theorem State.respond_eq (s : State) (v : Byte) :
    s.respond v = { s with history := .respond v :: s.history, respOut := s.respOut ++ [v] } := rfl

theorem commandRule_rdb (s : State) : commandRule .rdb s = State.respond
    { s.emits (readByteEvents (Config.readOracle s.samples)) with samples := s.samples + 1 }
    (Config.readOracle s.samples) := rfl

/-- Settles O13: RDB is `readByte`'s six events, whose one item is the read, and the response. -/
theorem rdbReturnsTheSampledByte : Obligations.RdbReturnsTheSampledByte := by
  intro s hs hp v
  have hpins := pinsAfter_readByte hp.ddir hp.rd v
  have hpanel := panelAfter_readByte s.cfg s.pins s.panel v
  rw [exec_running _ hs, commandRule_rdb, State.respond_eq, ← hpins, ← hpanel]
  rfl

/-- Settles O14: RDB's panel takes the read alone (O13), and a listening panel's mode decides what a read does to it. -/
theorem readInsideAStreamUndefinesThePanel : Obligations.ReadInsideAStreamUndefinesThePanel := by
  intro s hs hp hl
  refine ⟨_, rdbReturnsTheSampledByte s hs hp, hs.2, fun hm => ?_, fun hm => ?_⟩ <;> simp [Panel.accept, hl, hm]

end Sys2Proof.Machine
end

section
/-! SUPPORT. INIT of 41_controller_session.md (rule R164) as one list of pin events: its items from idle or from reset
levels, the levels it leaves, and from these O19. -/

namespace Sys2Proof.Machine

/-- The pin events of INIT: the bring-up, then the fast clear with the configured byte (R164). -/
def initEvents (c : Cfg) : List PinEvent := bringUpEvents c ++ fastClearEvents c c.initClearByte

theorem commandRule_init (s : State) : commandRule .init s =
    { (s.emits (initEvents s.cfg)).setCursor (u16Of s.cfg.gap) Config.cursorRow0 with ready := true } := by
  rw [initEvents, State.emits_append]
  rfl

/-- The state INIT leaves (R164). -/
theorem exec_init {s : State} (hf : s.fault = false) : exec .init s = .next { s with
    col := u16Of s.cfg.gap, row := Config.cursorRow0, pins := pinsAfter s.pins (initEvents s.cfg), ready := true
    history := (initEvents s.cfg).reverse ++ s.history, panel := panelAfter s.cfg s.pins s.panel (initEvents s.cfg)
    cp := s.cp + 1 } := by
  rw [exec_eq]
  refine (runCommand_init hf).trans ?_
  rw [commandRule_init]
  rfl

/-- The part of the reset pulse train that always makes items (R164, R266). -/
def pulseItems (c : Cfg) : List Transaction :=
  [.wait 10, .rstLevel c.rstALevel.other, .wait 20, .rstLevel c.rstALevel, .wait 20]

/-- The items of a fast clear (R180). -/
def clearItems (c : Cfg) (b : Byte) : List Transaction :=
  windowItems c 0 (c.screenW - 1) 0 (c.screenH - 1) ++ List.replicate (4 * (c.screenW * c.screenH / 2)) (.dat b)

/-- INIT's items after the reset pulse train (R164 steps 4 to 6). -/
def powerOnItems (c : Cfg) : List Transaction :=
  c.initSeq.flatMap entryItems ++ .wait c.tWake :: clearItems c c.initClearByte

/-- The items of the reset pulse train: a level item only where a line moves, and no byte, since no write strobe stands low. -/
theorem transactions_bringUpLines (c : Cfg) {p : Pins} (hw : p.wr ≠ .is .low) :
    transactions p (bringUpLines c) =
      (if p.rst = .is c.rstALevel then [] else [.rstLevel c.rstALevel]) ++ pulseItems c ++
        (if p.cs = .is c.csIdleLevel then [] else [.csLevel c.csIdleLevel]) := by
  have h1 : c.rstALevel ≠ c.rstALevel.other := (Level.other_ne _).symm
  have h2 := Level.other_ne c.rstALevel
  by_cases hr : p.rst = .is c.rstALevel <;> by_cases hcs : p.cs = .is c.csIdleLevel <;>
    simp [bringUpLines, pulseItems, transactions, transactionOf, Pins.apply, Config.tRst1, Config.tRst2, Config.tRst3, hr, hcs,
      h1, h2, hw]

/-- INIT's events after the reset pulse train, on an output bus. -/
theorem transactions_afterLines {c : Cfg} (hc : c.wf = true) {p : Pins} (hd : p.ddir = .is .out) :
    transactions p (c.initSeq.flatMap powerOnEntry ++ (.wait c.tWake :: fastClearEvents c c.initClearByte)) =
      powerOnItems c := by
  obtain ⟨hW, -, hH, -, -, -, -, hlen, -⟩ := Cfg.wf_bounds hc
  obtain ⟨rs, d, sends⟩ := sends_powerOn c.initSeq (by rw [← List.length_pos_iff]; omega)
  have clear := (sends_fastClear c (by omega) (by omega) c.initClearByte).items (p.sent rs d) hd
  rw [transactions_append, sends.items p hd, sends.pins p hd, transactions, Pins.apply, clear]
  rfl

theorem pinsAfter_initEvents {c : Cfg} (hc : c.wf = true) (p : Pins) : pinsAfter p (initEvents c) =
    ⟨.is c.rstALevel, .is c.csIdleLevel, .is .high, .is .high, .is .high, .is .out, .is c.initClearByte, true⟩ := by
  obtain ⟨hW, -, hH, -, -, -, -, hlen, -⟩ := Cfg.wf_bounds hc
  obtain ⟨rs, d, sends⟩ := sends_powerOn c.initSeq (by rw [← List.length_pos_iff]; omega)
  have clear := sends_fastClear c (by omega) (by omega) c.initClearByte
  rw [initEvents, bringUpEvents, pinsAfter_append, pinsAfter_append, pinsAfter_append, pins_bringUpLines, sends.pins _ rfl]
  exact clear.pins _ rfl

/-- Before INIT the lines are at `X`; after it they are idle (R35, R148). -/
theorem BlockInv.bringUp_levels {s : State} (h : BlockInv s) :
    s.pins.wr ≠ .is .low ∧ (s.pins.rst = .is s.cfg.rstALevel ↔ s.ready = true) ∧
      (s.pins.cs = .is s.cfg.csIdleLevel ↔ s.ready = true) := by
  cases hr : s.ready with
  | true => simp [(h.idle hr).wr, (h.idle hr).rst, (h.idle hr).cs]
  | false => simp [h.unset hr, Pins.unset]

theorem initEvents_eq (c : Cfg) : initEvents c =
    bringUpLines c ++ (c.initSeq.flatMap powerOnEntry ++ (.wait c.tWake :: fastClearEvents c c.initClearByte)) := by
  simp [initEvents, bringUpEvents]

/-- The transaction trace of INIT (R164, R263, R266, R267). -/
theorem BlockInv.init_items {s : State} (h : BlockInv s) : transactions s.pins (initEvents s.cfg) =
    (if s.ready then [] else [.rstLevel s.cfg.rstALevel]) ++ pulseItems s.cfg ++
      (if s.ready then [] else [.csLevel s.cfg.csIdleLevel]) ++ powerOnItems s.cfg := by
  obtain ⟨hw, hrst, hcs⟩ := h.bringUp_levels
  rw [initEvents_eq, transactions_append, transactions_bringUpLines _ hw, pins_bringUpLines, transactions_afterLines h.cfg rfl]
  simp only [hrst, hcs]

/-- Settles O19: INIT is `initEvents`, whose items and levels stand above, then the cursor and `ready`. -/
theorem initBringsUpTheBlock : Obligations.InitBringsUpTheBlock := by
  intro s h hf c tail
  obtain ⟨-, -, -, -, -, gapFits⟩ := Cfg.wf_screen h.cfg
  have col : (u16Of s.cfg.gap).toInt = s.cfg.gap := toInt_u16Of (by omega) (by omega)
  have row : Config.cursorRow0.toInt = 2 := by decide
  refine ⟨_, initEvents c, exec_init hf, ?_, ?_, pinsAfter_initEvents h.cfg s.pins, col, row, rfl, rfl, rfl⟩
  · simp [State.trace, c]
  · rw [h.init_items]
    simp only [tail, c, pulseItems, powerOnItems, clearItems, List.append_assoc, List.cons_append, List.nil_append]
    rfl

end Sys2Proof.Machine
end

section
/-! SUPPORT. The block's invariant (10_state.md rules R22, R35 and R36, 40_bus_interface.md rule R148): one lemma per
operation of the block on a running block, then per command, and from these O58. -/

namespace Sys2Proof.Machine

/-! ### Event lists that keep the bus idle -/

theorem KeepsIdle.nil : KeepsIdle [] := fun _ _ h => h

theorem keepsIdle_writeByte (v : Byte) : KeepsIdle (writeByte v) := fun c p h => by
  rw [pinsAfter_writeByte h.wr]
  exact ⟨h.wr, h.rd, h.ddir, h.rst, h.cs, h.ctlOut, h.rs, by simp⟩

theorem keepsIdle_setRs (l : Level) : KeepsIdle [.set .rs l] := fun c p h =>
  ⟨h.wr, h.rd, h.ddir, h.rst, h.cs, h.ctlOut, by simp [pinsAfter, Pins.apply], h.dout⟩

theorem keepsIdle_pushColors (ps : List Half) : KeepsIdle (pushColors ps) := by
  induction ps with
  | nil => exact .nil
  | cons v ps ih => exact (sends_pushColor v).keepsIdle.append ih

/-- Whatever the operands: a window is writes only (R163). -/
theorem keepsIdle_setWindow (c : Cfg) (col row w h : Int) : KeepsIdle (setWindow c col row w h) :=
  ((sends_addressRange ..).keepsIdle.append (sends_addressRange ..).keepsIdle).append (sends_writeCommand _).keepsIdle

theorem keepsIdle_fastClear {c : Cfg} (hc : c.wf = true) (b : Byte) : KeepsIdle (fastClearEvents c b) := by
  obtain ⟨hW, -, hH, -⟩ := Cfg.wf_screen hc
  exact (sends_fastClear c (by omega) (by omega) b).keepsIdle

theorem keepsIdle_cellEvents (s : State) (sym : Byte) (nc nr : Int) : KeepsIdle (cellEvents s sym nc nr) :=
  (keepsIdle_setWindow _ _ _ _ _).append (keepsIdle_pushColors _)

/-! ### Operations -/

namespace BlockInv

variable {s : State} (h : BlockInv s)
include h

theorem raise (k : Cause) (info : Half) : BlockInv (s.raise k info) :=
  ⟨h.cfg, h.size, h.col, h.row, h.idle, h.unset, fun hf => Bool.noConfusion hf, fun _ => k.code_bounds⟩

theorem advance : BlockInv s.advance := ⟨h.cfg, h.size, h.col, h.row, h.idle, h.unset, h.noFault, h.cause⟩

theorem setCursor {c r : Half} (hc : 0 ≤ c.toInt) (hr : 2 ≤ r.toInt) : BlockInv (s.setCursor c r) :=
  ⟨h.cfg, h.size, hc, hr, h.idle, h.unset, h.noFault, h.cause⟩

theorem emits (hr : s.ready = true) {evs : List PinEvent} (he : KeepsIdle evs) : BlockInv (s.emits evs) :=
  ⟨h.cfg, h.size, h.col, h.row, fun _ => he _ _ (h.idle hr), fun hn => by simp [hr] at hn, h.noFault, h.cause⟩

theorem windowed (hr : s.ready = true) (col row w ht : Int) (ps : List Half) : BlockInv (windowed col row w ht ps s) := by
  rcases windowed_cases col row w ht ps s with ⟨k, -, e⟩ | ⟨-, e⟩ <;> rw [e]
  · exact h.raise ..
  · exact h.emits hr ((keepsIdle_setWindow _ _ _ _ _).append (keepsIdle_pushColors ps))

/-- The home position is on the block's side of both bounds. -/
theorem home : 0 ≤ (u16Of s.cfg.gap).toInt ∧ 2 ≤ Config.cursorRow0.toInt := by
  obtain ⟨-, -, -, -, -, gapFits⟩ := Cfg.wf_screen h.cfg
  rw [toInt_u16Of (by omega) (by omega)]
  exact ⟨by omega, by decide⟩

theorem fastClear (hr : s.ready = true) (b : Byte) : BlockInv (fastClear b s) :=
  (h.emits hr (keepsIdle_fastClear h.cfg b)).setCursor h.home.1 h.home.2

/-- The cell and the column after it stay on the block's side of both bounds, and in int16 (R193). -/
theorem placeCell_bounds {nc nr ac : Int} (hp : placeCell s = .ok (nc, nr, ac)) :
    (0 ≤ nc ∧ nc ≤ 32767) ∧ (2 ≤ nr ∧ nr ≤ 32767) ∧ 0 ≤ ac ∧ ac ≤ 32767 := by
  have hc := h.col
  have hr := h.row
  have rowFits := (toInt_bounds s.row).2
  rcases placeCell_cases s with ⟨-, fits, e⟩ | ⟨-, fits, fits', e⟩ | ⟨v, -, e, -⟩
  · cases e.symm.trans hp
    omega
  · cases e.symm.trans hp
    omega
  · cases e.symm.trans hp

theorem renderChar (hr : s.ready = true) (sym : Byte) : BlockInv (renderChar sym s) := by
  rcases renderChar_cases sym s with ⟨info, e⟩ | ⟨nc, nr, ac, hp, e⟩ <;> rw [e]
  · exact h.raise ..
  · obtain ⟨⟨c0, c1⟩, ⟨r0, r1⟩, a0, a1⟩ := h.placeCell_bounds hp
    have col : 0 ≤ (u16Of nc).toInt := by rw [toInt_u16Of (by omega) c1]; exact c0
    have row : 2 ≤ (u16Of nr).toInt := by rw [toInt_u16Of (by omega) r1]; exact r0
    have after : 0 ≤ (u16Of ac).toInt := by rw [toInt_u16Of (by omega) a1]; exact a0
    exact ((h.setCursor col row).emits hr (keepsIdle_cellEvents _ _ _ _)).setCursor after row

theorem renderSymbol (hr : s.ready = true) (sym : Byte) : BlockInv (renderSymbol sym s) := by
  by_cases hl : symbolLegal sym = true
  · rw [renderSymbol_legal hl]
    exact h.renderChar hr sym
  · rw [renderSymbol_illegal hl]
    exact h.raise ..

theorem newLineStep : BlockInv (newLineStep s) := by
  have row := h.row
  rcases newLineStep_cases s with ⟨fits, e⟩ | ⟨-, e⟩ <;> rw [e]
  · exact h.setCursor h.home.1 (by rw [toInt_u16Of (by omega) fits]; omega)
  · exact h.raise ..

/-- INIT brings the pins to their idle levels from any others (R164). -/
theorem init : BlockInv (commandRule .init s) := by
  rw [commandRule_init]
  have levels := pinsAfter_initEvents h.cfg s.pins
  refine ⟨h.cfg, h.size, h.home.1, h.home.2, fun _ => ?_, fun hn => Bool.noConfusion hn, h.noFault, h.cause⟩
  show PinsIdle s.cfg (pinsAfter s.pins (initEvents s.cfg))
  rw [levels]
  constructor <;> simp

end BlockInv

/-! ### Commands -/

theorem renderChar_ready (sym : Byte) (s : State) : (renderChar sym s).ready = s.ready := (writeFrame_renderChar sym s).ready

theorem renderSymbol_ready (sym : Byte) (s : State) : (renderSymbol sym s).ready = s.ready :=
  (writeFrame_renderSymbol sym s).ready

theorem BlockInv.renderSymbols {s : State} (h : BlockInv s) (hr : s.ready = true) (syms : List Byte) :
    BlockInv (renderSymbols syms s) := by
  induction syms generalizing s with
  | nil => exact h
  | cons sym syms ih =>
    rw [Machine.renderSymbols]
    split
    · exact h.renderSymbol hr sym
    · exact ih (h.renderSymbol hr sym) ((renderSymbol_ready sym s).trans hr)

theorem BlockInv.renderChars {s : State} (h : BlockInv s) (hr : s.ready = true) (syms : List Byte) :
    BlockInv (renderChars syms s) := by
  induction syms generalizing s with
  | nil => exact h
  | cons sym syms ih =>
    rw [Machine.renderChars]
    split
    · exact h.renderChar hr sym
    · exact ih (h.renderChar hr sym) ((renderChar_ready sym s).trans hr)

/-- On a ready block every command's own rule keeps the invariant; INIT's does on any. -/
theorem BlockInv.commandRule {i : Instr} {s : State} (h : BlockInv s) (hr : i.mnemonic ≠ .init → s.ready = true) :
    BlockInv (commandRule i s) := by
  cases i with
  | init => exact h.init
  | wrb a => exact h.emits (hr nofun) (keepsIdle_writeByte a)
  | selc => exact h.emits (hr nofun) (keepsIdle_setRs .low)
  | seld => exact h.emits (hr nofun) (keepsIdle_setRs .high)
  | rdb =>
    rw [commandRule_rdb, State.respond_eq]
    have h' := h.emits (hr nofun) (keepsIdle_readByte (Config.readOracle s.samples))
    exact ⟨h'.cfg, h'.size, h'.col, h'.row, h'.idle, h'.unset, h'.noFault, h'.cause⟩
  | cmd a => exact h.emits (hr nofun) (sends_writeCommand a).keepsIdle
  | dat a => exact h.emits (hr nofun) (sends_writeData a).keepsIdle
  | win col row width height => exact h.windowed (hr nofun) ..
  | rect col row width height color => exact h.windowed (hr nofun) ..
  | clr a => exact h.fastClear (hr nofun) a
  | chr a => exact h.renderSymbol (hr nofun) a
  | str syms => exact h.renderSymbols (hr nofun) syms
  | int v => exact h.renderChars (hr nofun) _
  | era a =>
    rcases eraseCells_cases a.toNat s with ⟨-, e⟩ | ⟨-, e⟩ <;> rw [Machine.commandRule, e]
    · exact h.raise ..
    · exact h.windowed (hr nofun) ..
  | nl => exact h.newLineStep
  | siz a =>
    rcases commandRule_siz_cases a s with ⟨nonzero, e⟩ | ⟨-, e⟩ <;> rw [e]
    · exact ⟨h.cfg, nonzero, h.col, h.row, h.idle, h.unset, h.noFault, h.cause⟩
    · exact h.raise ..
  | fgc v => exact ⟨h.cfg, h.size, h.col, h.row, h.idle, h.unset, h.noFault, h.cause⟩
  | bgc v => exact ⟨h.cfg, h.size, h.col, h.row, h.idle, h.unset, h.noFault, h.cause⟩

/-- The invariant does not speak of the pending bytes. -/
theorem BlockInv.withCmdIn {s : State} (h : BlockInv s) (bs : List Byte) : BlockInv { s with cmdIn := bs } :=
  ⟨h.cfg, h.size, h.col, h.row, h.idle, h.unset, h.noFault, h.cause⟩

/-- Every command keeps the invariant: the template only raises, runs the own rule or does nothing, and then moves `cp`. -/
theorem BlockInv.exec {i : Instr} {s t : State} (h : BlockInv s) (hx : exec i s = .next t) : BlockInv t := by
  rcases exec_cases hx with ⟨-, rfl⟩ | ⟨-, -, -, rfl⟩ | ⟨-, hr, rfl⟩
  · exact h.advance
  · exact (h.raise ..).advance
  · exact (h.commandRule hr.resolve_left).advance

theorem BlockInv.illegalOpcode {s : State} (h : BlockInv s) (b : Byte) : BlockInv (illegalOpcode b s) := by
  rw [Machine.illegalOpcode]
  split
  · exact h.advance
  · exact (h.raise ..).advance

/-- Settles O58: a step runs a command or takes an illegal byte, with the rest of the stream pending. -/
theorem stepKeepsBlockInv : Obligations.StepKeepsBlockInv := by
  intro s t h hst
  obtain ⟨-, ⟨i, rest, -, hx⟩ | ⟨b, rest, -, rfl⟩⟩ := step_cases hst
  · exact (h.withCmdIn rest).exec hx
  · exact (h.withCmdIn rest).illegalOpcode b

end Sys2Proof.Machine
end

section
/-! SUPPORT. The panel's invariant (20_memory.md rules R76 and R83 to R85): one lemma per answer of the panel to an item,
from them every event and every step, and from these O57 and O60. -/

namespace Sys2Proof.Machine

/-! ### Pixels of a window -/

/-- The pixel `(x, y)` lies in the window (R83). -/
def Window.Contains (w : Window) (x y : Half) : Prop :=
  w.c0.toNat ≤ x.toNat ∧ x.toNat ≤ w.c1.toNat ∧ w.r0.toNat ≤ y.toNat ∧ y.toNat ≤ w.r1.toNat

/-- A running index stays between its bounds. -/
theorem wrapped_mem {f f0 f1 : Half} (h0 : f0.toNat ≤ f.toNat) (h1 : f.toNat ≤ f1.toNat) :
    f0.toNat ≤ (if f = f1 then f0 else f + 1).toNat ∧ (if f = f1 then f0 else f + 1).toNat ≤ f1.toNat := by
  split <;> rename_i hf
  · omega
  · have hlt : f.toNat < f1.toNat := Nat.lt_of_le_of_ne h1 fun e => hf (BitVec.eq_of_toNat_eq e)
    have hsucc : (f + 1).toNat = f.toNat + 1 := BitVec.toNat_add_of_lt (by have := f1.isLt; simp; omega)
    omega

/-- R85: the write pointer never leaves a window it is in. -/
theorem Window.Contains.next {c : Cfg} {w : Window} {x y : Half} (h : w.Contains x y) :
    w.Contains (w.next c x y).1 (w.next c x y).2 := by
  obtain ⟨x0, x1, y0, y1⟩ := h
  have hx := wrapped_mem x0 x1
  have hy := wrapped_mem y0 y1
  cases ha : c.panelFastAxis with
  | col =>
    rw [Window.next_col ha x1 y1]
    have slow : w.r0.toNat ≤ (if x = w.c1 then (if y = w.r1 then w.r0 else y + 1) else y).toNat ∧
        (if x = w.c1 then (if y = w.r1 then w.r0 else y + 1) else y).toNat ≤ w.r1.toNat := by
      split
      exacts [hy, ⟨y0, y1⟩]
    exact ⟨hx.1, hx.2, slow.1, slow.2⟩
  | row =>
    rw [Window.next_row ha x1 y1]
    have slow : w.c0.toNat ≤ (if y = w.r1 then (if x = w.c1 then w.c0 else x + 1) else x).toNat ∧
        (if y = w.r1 then (if x = w.c1 then w.c0 else x + 1) else x).toNat ≤ w.c1.toNat := by
      split
      exacts [hx, ⟨x0, x1⟩]
    exact ⟨slow.1, slow.2, hy.1, hy.2⟩

theorem Window.Contains.onScreen {c : Cfg} {w : Window} {x y : Half} (h : w.Contains x y) (hv : w.valid c = true) :
    onScreen c x y := by
  obtain ⟨-, -, hc1, hr1⟩ := Window.valid_iff.1 hv
  obtain ⟨-, x1, -, y1⟩ := h
  exact ⟨Nat.lt_of_le_of_lt x1 hc1, Nat.lt_of_le_of_lt y1 hr1⟩

/-! ### The panel's answers -/

theorem accept_dat_of_deaf {c : Cfg} {cs : Latch Level} {P : Panel} (h : P.listening c cs = false) (b : Byte) :
    P.accept c cs (.dat b) = P := by
  simp [Panel.accept, h]

namespace PanelInv

variable {c : Cfg} {P : Panel} (h : PanelInv c P)
include h

/-- Outside memory-write mode the pointer is free. -/
theorem of_mode {Q : Panel} (hg : Q.gram = P.gram) (hb : Q.cfgDone.length = P.cfgDone.length) (hm : Q.mode ≠ .memWrite) :
    PanelInv c Q :=
  ⟨hg ▸ h.gram, hb.trans h.bits, fun k => hg ▸ h.written k, fun hw => absurd hw hm⟩

theorem undefine {Q : Panel} (hg : Q.gram = P.gram) (hb : Q.cfgDone.length = P.cfgDone.length) (hu : Q.undef = true) :
    PanelInv c Q :=
  ⟨hg ▸ h.gram, hb.trans h.bits, fun k => hg ▸ h.written k, fun _ hd => by simp [hu] at hd⟩

omit h in
/-- R80: the start of a stream puts the pointer at the window's first pixel. -/
theorem startStream (hd : (P.undef || decide (P.c0 = .x ∨ P.r0 = .x)) = false) :
    ∃ x y, P.c0 = .is x ∧ P.r0 = .is y ∧ ∀ w, P.window? = some w → w.valid c = true → w.Contains x y := by
  cases hc0 : P.c0 with
  | x => simp [hc0] at hd
  | is x =>
    cases hr0 : P.r0 with
    | x => simp [hr0] at hd
    | is y =>
      refine ⟨x, y, rfl, rfl, fun w hw hv => ?_⟩
      obtain ⟨e0, -, e2, -⟩ := Panel.window?_eq_some.1 hw
      obtain rfl : x = w.c0 := Latch.is.inj (hc0.symm.trans e0)
      obtain rfl : y = w.r0 := Latch.is.inj (hr0.symm.trans e2)
      obtain ⟨hc, hr, -, -⟩ := Window.valid_iff.1 hv
      exact ⟨le_rfl, hc, le_rfl, hr⟩

theorem acceptCmd (b : Byte) : PanelInv c (P.acceptCmd c b) := by
  rcases acceptCmd_cases c P b with e | e | ⟨-, e⟩ | ⟨i, e⟩ | e <;> rw [e]
  · exact h.undefine rfl rfl rfl
  · exact h.of_mode rfl rfl PanelMode.noConfusion
  · exact ⟨h.gram, h.bits, h.written, fun _ => startStream⟩
  · exact h.of_mode rfl (List.length_set ..) PanelMode.noConfusion
  · exact h.undefine rfl rfl rfl

theorem acceptArg (op : Byte) (got : List Byte) : PanelInv c (P.acceptArg c op got) := by
  obtain ⟨gram, bits, mode⟩ := acceptArg_cases c P op got
  refine h.of_mode gram bits ?_
  rcases mode with e | e <;> rw [e] <;> exact PanelMode.noConfusion

/-- R84: a pixel is stored at the pointer, which is inside the window. -/
theorem storePixel (hm : P.mode = .memWrite) (hu : P.undef = false) {w : Window} (hw : P.window? = some w)
    (hv : w.valid c = true) (v : Half) : PanelInv c (P.storePixel c w v) := by
  obtain ⟨x, y, hx, hy, inside⟩ := h.pointer hm hu
  have hin : w.Contains x y := inside w hw hv
  rw [Panel.storePixel_of_pointer hx hy]
  refine ⟨Memory.write_wf _ _ h.gram, h.bits, fun k hk => ?_, fun _ _ => ⟨_, _, rfl, rfl, fun w' hw' _ => ?_⟩⟩
  · by_cases hkey : k = pixelKey x y
    · exact ⟨x, y, hkey, hin.onScreen hv⟩
    · rw [Memory.read_write_other _ _ hkey] at hk
      exact h.written k hk
  · obtain rfl : w = w' := Option.some.inj (hw.symm.trans hw')
    exact hin.next

theorem acceptDat (hu : P.undef = false) (b : Byte) : PanelInv c (P.acceptDat c b) := by
  cases hm : P.mode with
  | idle =>
    rw [show P.acceptDat c b = { P with undef := true } by simp [Panel.acceptDat, hm]]
    exact h.undefine rfl rfl rfl
  | args op got =>
    rw [acceptDat_args hm]
    exact h.acceptArg ..
  | memWrite =>
    by_cases armed : P.configured = true ∧ ∃ w, P.window? = some w ∧ w.valid c = true
    · obtain ⟨hcf, w, hw, hv⟩ := armed
      rw [acceptDat_armed hm hcf hw hv]
      cases P.half with
      | none => exact ⟨h.gram, h.bits, h.written, h.pointer⟩
      | some v => exact h.storePixel hm hu hw hv _
    · rw [acceptDat_unarmed hm fun hcf w hw => Bool.eq_false_iff.2 fun hv => armed ⟨hcf, w, hw, hv⟩]
      exact h.undefine rfl rfl rfl

omit h in
/-- R78: leaving reset clears everything the invariant speaks of. -/
theorem leaveReset : PanelInv c P.leaveReset :=
  ⟨rfl, rfl, fun _ hk => absurd rfl hk, fun hm => PanelMode.noConfusion hm⟩

theorem acceptRd (cs : Latch Level) (b : Byte) : PanelInv c (P.accept c cs (.rd b)) := by
  rw [Panel.accept]
  split
  · split
    · exact h
    · exact h.undefine rfl rfl rfl
  · exact h

theorem acceptRstLevel (cs : Latch Level) (l : Level) : PanelInv c (P.accept c cs (.rstLevel l)) := by
  by_cases hl : l = c.rstALevel
  · rw [hl, accept_rstALevel]
    split
    · exact leaveReset
    · exact h
  · rw [accept_rstLevel_of_ne hl]
    exact ⟨h.gram, h.bits, h.written, h.pointer⟩

/-- Every item keeps the invariant, whatever the panel's state. -/
theorem accept (cs : Latch Level) (t : Transaction) : PanelInv c (P.accept c cs t) := by
  cases t with
  | cmd b =>
    cases hl : P.listening c cs with
    | true => rw [accept_cmd_of_listening hl]; exact h.acceptCmd b
    | false => rw [(accept_of_deaf hl b).1]; exact h
  | dat b =>
    cases hl : P.listening c cs with
    | true => rw [accept_dat_of_listening hl]; exact h.acceptDat (Panel.defined_of_listening hl) b
    | false => rw [accept_dat_of_deaf hl]; exact h
  | rd b => exact h.acceptRd cs b
  | rstLevel l => exact h.acceptRstLevel cs l
  | csLevel l => exact h
  | wait n => exact h

end PanelInv

theorem PanelInv.panelAfter {c : Cfg} {P : Panel} (h : PanelInv c P) (p : Pins) (evs : List PinEvent) :
    PanelInv c (panelAfter c p P evs) := by
  induction evs generalizing p P with
  | nil => exact h
  | cons e evs ih =>
    refine ih ?_ (p.apply e)
    rw [Panel.follow]
    split
    · exact h.accept p.cs _
    · exact h

/-- Settles O60: a step's panel has followed the step's events, each of which is at most one item. -/
theorem stepKeepsPanelInv : Obligations.StepKeepsPanelInv := by
  intro s t _ h hst
  obtain ⟨evs, hm⟩ := step_moves hst
  rw [hm.cfg, hm.panel]
  exact h.panelAfter s.pins evs

/-! ### Reset -/

theorem blockInv_hardwareReset {s : State} (hc : s.cfg.wf = true) : BlockInv (hardwareReset s) where
  cfg := hc
  size := by
    obtain ⟨-, -, -, -, -, -, hsize, -⟩ := Cfg.wf_bounds hc
    exact hsize
  col := by rw [hardwareReset_col_toInt hc]; omega
  row := (hardwareReset_row_toInt s).ge
  idle hr := Bool.noConfusion hr
  unset _ := rfl
  noFault _ := ⟨rfl, rfl⟩
  cause hf := Bool.noConfusion hf

/-- The block's invariant speaks neither of the panel nor of the counter of reads. -/
theorem BlockInv.withPanel {s : State} (h : BlockInv s) (P : Panel) (n : Nat) :
    BlockInv { s with panel := P, samples := n } :=
  ⟨h.cfg, h.size, h.col, h.row, h.idle, h.unset, h.noFault, h.cause⟩

/-- An empty trace explains unset pins, no response, and the panel as it stands. -/
theorem traceExplains_of_start {s : State} (hp : s.pins = Pins.unset) (hh : s.history = []) (hr : s.respOut = []) :
    TraceExplains s.panel s := by
  have ht : s.trace = [] := by rw [State.trace, hh]; rfl
  refine ⟨?_, ?_, ?_⟩ <;> rw [ht]
  exacts [hp, rfl, hr]

theorem panelInv_powerUp (c : Cfg) : PanelInv c Panel.powerUp :=
  ⟨rfl, rfl, fun _ hk => absurd rfl hk, fun hm => PanelMode.noConfusion hm⟩

theorem PanelInv.afterHardwareReset {c : Cfg} {P : Panel} (h : PanelInv c P) : PanelInv c P.afterHardwareReset :=
  h.undefine rfl rfl rfl

theorem ref_wf : Config.ref.wf = true := by decide

/-- Settles O57: every reset leaves the block as `hardwareReset` does, and the panel as the events before it made it, but
undefined. -/
theorem invariantsHoldAtReset : Obligations.InvariantsHoldAtReset := by
  refine ⟨ref_wf, rfl, fun c hc => ?_, fun s hc => ?_⟩
  · have block := (blockInv_hardwareReset (s := State.resetOf c) hc).withPanel Panel.powerUp 0
    exact ⟨block, traceExplains_of_start (s := State.resetOf c) rfl rfl rfl, panelInv_powerUp c⟩
  · have block := blockInv_hardwareReset hc
    refine ⟨block, traceExplains_of_start rfl rfl rfl, rfl, fun h => h.afterHardwareReset,
      fun t ht => (step_movesBy_stepEvents ht).trace, hardwareResetDuring_zero s, fun k => ?_⟩
    exact ⟨rfl, rfl, block.withPanel _ _, traceExplains_of_start rfl rfl rfl, fun h => (h.panelAfter _ _).afterHardwareReset⟩

end Sys2Proof.Machine
end

section
/-! SUPPORT. Stuttering events of a pin trace (00_scope.md rule R11): they move no latch and make no item, and from this O38.
-/

namespace Sys2Proof.Machine

/-- An event that changes nothing on the wires is no item either (R11, R77). -/
theorem stutters_silent {p : Pins} {e : PinEvent} (h : stutters p e = true) : p.apply e = p ∧ transactionOf p e = none := by
  cases e with
  | ctlOut | sample _ | wait _ | respond _ => exact Bool.noConfusion h
  | dir d => exact ⟨by rw [Pins.apply, ← beq_iff_eq.1 h], rfl⟩
  | drive v =>
    obtain ⟨hv, -⟩ := Bool.and_eq_true_iff.1 h
    exact ⟨by rw [Pins.apply, ← beq_iff_eq.1 hv], rfl⟩
  | set line l =>
    have hl : p.apply (.set line l) = p := by
      cases line <;> rw [Pins.apply, ← beq_iff_eq.1 h]
    cases line with
    | rst | cs => exact ⟨hl, if_pos (beq_iff_eq.1 h)⟩
    | rs | rd => exact ⟨hl, rfl⟩
    | wr =>
      cases l with
      | low => exact ⟨hl, rfl⟩
      | high =>
        have hw : p.wr = .is .high := beq_iff_eq.1 h
        exact ⟨hl, if_neg (by simp [hw])⟩

theorem transactions_observed (p : Pins) (evs : List PinEvent) : transactions p (observed p evs) = transactions p evs := by
  induction evs generalizing p with
  | nil => rfl
  | cons e evs ih =>
    rw [observed, transactions, ← ih (p.apply e)]
    by_cases h : stutters p e = true
    · obtain ⟨same, silent⟩ := stutters_silent h
      rw [if_pos h, silent, same]
      rfl
    · rw [if_neg h]
      rfl

/-- Settles O38: the items of a trace are those of what is observed of it. -/
theorem stutteringIsInvisible : Obligations.StutteringIsInvisible := by
  refine ⟨transactions_observed, fun p evs evs' h => ?_⟩
  rw [← transactions_observed p evs, h, transactions_observed]

end Sys2Proof.Machine
end

section
/-! SUPPORT. RECT of 41_controller_session.md (rule R168) and CLR of 42_fast_clear.md (rules R180, R181 and R184) as lists of
writes, their traces compared, and from these O18, O20 and O21. -/

namespace Sys2Proof.Machine

theorem windowItems_length (c : Cfg) (c0 c1 r0 r1 : Nat) : (windowItems c c0 c1 r0 r1).length = 11 := rfl

theorem colorItems_length (ps : List Half) : (colorItems ps).length = 2 * ps.length := by
  simp [colorItems, wordItems, List.length_flatMap, Nat.mul_comm]

/-! ### RECT -/

/-- RECT's own rule on operands that pass `checkWindow` (R168, R169). -/
theorem commandRule_rect_of_checked {col row width height : Half} (hc : 0 ≤ col.toInt) (hr : 0 ≤ row.toInt)
    (hw : 0 < width.toInt) (hh : 0 < height.toInt) (color : Half) (s : State) :
    commandRule (.rect col row width height color) s = s.emits (setWindow s.cfg col.toNat row.toNat width.toNat height.toNat ++
      pushColors (List.replicate (width.toNat * height.toNat) color)) := by
  show windowed col.toInt row.toInt width.toInt height.toInt
    (List.replicate (width.toInt.toNat * height.toInt.toNat) color) s = _
  rw [windowed_sent (checkWindow_none.2 ⟨hc, hr, hw, hh⟩),
    toInt_eq_toNat_of_nonneg hc, toInt_eq_toNat_of_nonneg hr, toInt_eq_toNat_of_nonneg hw.le,
    toInt_eq_toNat_of_nonneg hh.le, Int.toNat_natCast, Int.toNat_natCast]

/-- The items of a RECT (R168). -/
def rectItems (c : Cfg) (col row width height : Nat) (color : Half) : List Transaction :=
  windowItems c col (col + width - 1) row (row + height - 1) ++ colorItems (List.replicate (width * height) color)

theorem sends_rect (c : Cfg) {col row width height : Half} (hw : 0 < width.toInt) (hh : 0 < height.toInt) (color : Half) :
    Sends (setWindow c col.toNat row.toNat width.toNat height.toNat ++
        pushColors (List.replicate (width.toNat * height.toNat) color))
      (rectItems c col.toNat row.toNat width.toNat height.toNat color) .high (lo8 color) :=
  have w0 := toNat_ne_zero_of_pos hw
  have h0 := toNat_ne_zero_of_pos hh
  sends_fill c _ _ _ _ _ w0 h0 (Nat.mul_ne_zero w0 h0) color

/-- Settles O18: RECT is a window and a constant fill. -/
theorem rectStreamsTheArea : Obligations.RectStreamsTheArea := by
  intro col row width height color s hs hp hc hr hw hh items
  have sends := sends_rect s.cfg (col := col) (row := row) hw hh color
  refine ⟨_, sends.items s.pins hp.ddir, ?_, ?_⟩
  · rw [List.length_append, windowItems_length, colorItems_length, List.length_replicate]
  · rw [← lo8_eq]
    exact exec_of_sends hs hp (commandRule_rect_of_checked hc hr hw hh color s) sends

/-! ### CLR -/

theorem sends_clear {c : Cfg} (hc : c.wf = true) (b : Byte) : Sends (fastClearEvents c b) (clearItems c b) .high b := by
  obtain ⟨hW, -, hH, -⟩ := Cfg.wf_screen hc
  exact sends_fastClear c (by omega) (by omega) b

/-- CLR on a running block (R181). -/
theorem exec_clr {s : State} (hs : Running s) (h : BlockInv s) (a : Byte) :
    exec (.clr a) s = .next { driven s (fastClearEvents s.cfg a) (clearItems s.cfg a) .high a with
      col := BitVec.ofNat 16 s.cfg.gap, row := 2 } := by
  have hp := h.idle hs.1
  rw [exec_running _ hs, ← State.emits_of_sends (sends_clear h.cfg a) hp.ddir hp.wr, ← u16Of_natCast]
  rfl

/-- Settles O20: the burst's items, then the cursor at home. -/
theorem clrStreamsOneByteAndHomesTheCursor : Obligations.ClrStreamsOneByteAndHomesTheCursor := by
  intro a s hs h items
  exact ⟨_, (sends_clear h.cfg a).items s.pins (h.idle hs.1).ddir, exec_clr hs h a⟩

/-! ### CLR against a full-screen RECT -/

theorem observed_append (p : Pins) (a b : List PinEvent) :
    observed p (a ++ b) = observed p a ++ observed (pinsAfter p a) b := by
  induction a generalizing p with
  | nil => rfl
  | cons e a ih => rw [List.cons_append, observed, observed, ih, List.append_assoc]; rfl

/-- One pulse of the write strobe. -/
def strobePulse : List PinEvent := [.set .wr .low, .set .wr .high]

/-- RS high and the byte in the data latch: what comes before the strobe in `writeData` and in the burst (R161, R180). -/
def selectAndDrive (a : Byte) : List PinEvent := [.set .rs .high, .drive a]

/-- The bus while a byte is strobed again and again: the levels `selectAndDrive` leaves. -/
def Strobing (a : Byte) (p : Pins) : Prop := p.rs = .is .high ∧ p.dout = .is a ∧ p.ddir = .is .out ∧ p.wr = .is .high

theorem strobing_sent {p : Pins} (hd : p.ddir = .is .out) (rs : Level) (d a : Byte) :
    Strobing a (pinsAfter (p.sent rs d) (selectAndDrive a)) := ⟨rfl, rfl, hd, rfl⟩

section
variable {a : Byte} {p : Pins} (h : Strobing a p)
include h

theorem Strobing.observed_pulse (evs : List PinEvent) : observed p (strobePulse ++ evs) = strobePulse ++ observed p evs := by
  obtain ⟨-, -, -, hw⟩ := h
  have back : pinsAfter p strobePulse = p := by simp [strobePulse, pinsAfter, Pins.apply, ← hw]
  rw [observed_append, back]
  simp [observed, stutters, strobePulse, Pins.apply, hw]

/-- Selecting and driving again is not seen. -/
theorem Strobing.observed_again (evs : List PinEvent) : observed p (selectAndDrive a ++ evs) = observed p evs := by
  obtain ⟨hr, hb, hd, -⟩ := h
  have back : pinsAfter p (selectAndDrive a) = p := by simp [selectAndDrive, pinsAfter, Pins.apply, ← hr, ← hb]
  rw [observed_append, back]
  simp [observed, stutters, selectAndDrive, Pins.apply, hr, hb, hd]

theorem Strobing.observed_writeData (evs : List PinEvent) :
    observed p (writeData a ++ evs) = strobePulse ++ observed p evs := by
  rw [show writeData a ++ evs = selectAndDrive a ++ (strobePulse ++ evs) from rfl, h.observed_again, h.observed_pulse]

/-- A stream of one byte is seen as its strobes. -/
theorem Strobing.observed_pushColors (n : Nat) :
    observed p (pushColors (List.replicate n (cat16 a a))) = (List.replicate (2 * n) strobePulse).flatten := by
  induction n with
  | zero => rfl
  | succ n ih =>
    have split : pushColors (List.replicate (n + 1) (cat16 a a)) =
        writeData a ++ (writeData a ++ pushColors (List.replicate n (cat16 a a))) := by
      simp [pushColors, pushColor, List.replicate_succ, hi8_cat16, lo8_cat16]
    rw [split, h.observed_writeData, h.observed_writeData, ih]
    rfl

/-- The burst is seen as its strobes. -/
theorem Strobing.observed_burst (n : Nat) :
    observed p (List.replicate n fourStrobes).flatten = (List.replicate (4 * n) strobePulse).flatten := by
  induction n with
  | zero => rfl
  | succ n ih =>
    have four (evs : List PinEvent) : observed p (fourStrobes ++ evs) = fourStrobes ++ observed p evs := by
      show observed p (strobePulse ++ (strobePulse ++ (strobePulse ++ (strobePulse ++ evs)))) = _
      rw [h.observed_pulse, h.observed_pulse, h.observed_pulse, h.observed_pulse]
      rfl
    rw [List.replicate_succ, List.flatten_cons, four, ih]
    rfl

end

/-- R184: from the end of a window on, the burst and the stream of an even number of pixels look the same. -/
theorem observed_burst_eq_stream {p : Pins} (hd : p.ddir = .is .out) (rs : Level) (d a : Byte) {n : Nat} (hn : n ≠ 0)
    (even : n % 2 = 0) :
    observed (p.sent rs d) (selectAndDrive a ++ (List.replicate (n / 2) fourStrobes).flatten) =
      observed (p.sent rs d) (pushColors (List.replicate n (cat16 a a))) := by
  have strobing := strobing_sent hd rs d a
  obtain ⟨m, rfl⟩ := Nat.exists_eq_succ_of_ne_zero hn
  have first : pushColors (List.replicate (m + 1) (cat16 a a)) =
      selectAndDrive a ++ (strobePulse ++ (writeData a ++ pushColors (List.replicate m (cat16 a a)))) := by
    simp [pushColors, pushColor, List.replicate_succ, hi8_cat16, lo8_cat16, selectAndDrive, strobePulse, writeData, writeByte,
      selectDataRegister]
  rw [first, observed_append, observed_append _ _ (strobePulse ++ _), strobing.observed_burst,
    strobing.observed_pulse, strobing.observed_writeData,
    strobing.observed_pushColors, show 4 * ((m + 1) / 2) = 2 * m + 1 + 1 by omega]
  rfl

theorem fastClearEvents_eq (c : Cfg) (a : Byte) : fastClearEvents c a = setWindow c 0 0 c.screenW c.screenH ++
    (selectAndDrive a ++ (List.replicate (c.screenW * c.screenH / 2) fourStrobes).flatten) := by
  rw [← List.append_assoc]
  rfl

/-- R184: the burst and the full-screen stream look the same. -/
theorem observed_clear_eq_fill {c : Cfg} (hc : c.wf = true) (even : c.screenW * c.screenH % 2 = 0) {p : Pins}
    (hd : p.ddir = .is .out) (a : Byte) : observed p (fastClearEvents c a) =
      observed p (setWindow c 0 0 c.screenW c.screenH ++ pushColors (List.replicate (c.screenW * c.screenH) (cat16 a a))) := by
  obtain ⟨hW, -, hH, -⟩ := Cfg.wf_screen hc
  have window := sends_setWindow c 0 0 c.screenW c.screenH (by omega) (by omega)
  have pixels : c.screenW * c.screenH ≠ 0 := Nat.mul_ne_zero (by omega) (by omega)
  rw [fastClearEvents_eq, observed_append, observed_append p (setWindow ..), show (0 : Int) = (0 : Nat) from rfl,
    window.pins p hd, observed_burst_eq_stream hd _ _ a pixels even]

theorem toInt_ofNat_of_le {n : Nat} (h : n ≤ 32767) : (BitVec.ofNat 16 n).toInt = n := by
  rw [← u16Of_natCast]
  exact toInt_u16Of (by omega) (by omega)

/-- A full-screen RECT on a running block (R168). -/
theorem exec_rect_screen {s : State} (hs : Running s) (h : BlockInv s) (v : Half) :
    exec (.rect 0 0 (BitVec.ofNat 16 s.cfg.screenW) (BitVec.ofNat 16 s.cfg.screenH) v) s = .next
      (driven s (setWindow s.cfg 0 0 s.cfg.screenW s.cfg.screenH ++
          pushColors (List.replicate (s.cfg.screenW * s.cfg.screenH) v))
        (rectItems s.cfg 0 0 s.cfg.screenW s.cfg.screenH v) .high (lo8 v)) := by
  obtain ⟨hW, hW', hH, hH', -⟩ := Cfg.wf_screen h.cfg
  have wide : 0 < (BitVec.ofNat 16 s.cfg.screenW).toInt := by rw [toInt_ofNat_of_le hW']; omega
  have high : 0 < (BitVec.ofNat 16 s.cfg.screenH).toInt := by rw [toInt_ofNat_of_le hH']; omega
  have sends := sends_rect s.cfg (col := 0) (row := 0) wide high v
  have runs := exec_of_sends hs (h.idle hs.1) (commandRule_rect_of_checked (col := 0) (row := 0) (by decide) (by decide) wide
    high v s) sends
  rwa [BitVec.toNat_ofNat, BitVec.toNat_ofNat, Nat.mod_eq_of_lt (by omega), Nat.mod_eq_of_lt (by omega)] at runs

theorem driven_trace (s : State) (evs : List PinEvent) (items : List Transaction) (rs : Level) (d : Byte) :
    (driven s evs items rs d).trace = s.trace ++ evs := by
  simp [driven, State.trace]

/-- Settles O21: both are the full-screen window and the same observed stream, so their items agree (O38). -/
theorem clrEqualsFullScreenRect : Obligations.ClrEqualsFullScreenRect := by
  intro a s hs h even
  obtain ⟨hW, -, hH, -⟩ := Cfg.wf_screen h.cfg
  have hd := (h.idle hs.1).ddir
  have seen := observed_clear_eq_fill h.cfg even hd a
  have items := stutteringIsInvisible.2 s.pins _ _ seen
  have fill := sends_fill s.cfg 0 0 s.cfg.screenW s.cfg.screenH _ (by omega) (by omega)
    (Nat.mul_ne_zero (by omega : s.cfg.screenW ≠ 0) (by omega : s.cfg.screenH ≠ 0)) (cat16 a a)
  refine ⟨_, _, _, _, exec_clr hs h a, driven_trace s _ (clearItems s.cfg a) .high a, exec_rect_screen hs h (cat16 a a),
    driven_trace .., seen, items, ?_⟩
  have same : clearItems s.cfg a = rectItems s.cfg 0 0 s.cfg.screenW s.cfg.screenH (cat16 a a) := by
    rw [← (sends_clear h.cfg a).items s.pins hd, items]
    exact fill.items s.pins hd
  rw [same, lo8_cat16]
  rfl

end Sys2Proof.Machine
end

section
/-! SUPPORT. The digits of 43_text_layout.md (rule R198) read back, and from this O24. -/

namespace Sys2Proof.Machine

/-- The symbol of a digit. -/
theorem toNat_digit {d : Nat} (h : d < 10) : (BitVec.ofNat 8 (0x30 + d)).toNat = 0x30 + d := by
  rw [BitVec.toNat_ofNat]
  omega

/-- What a string of digits says in base 10. -/
def readDigits (ds : List Byte) : Nat := ds.foldl (fun v d => 10 * v + (d.toNat - 0x30)) 0

theorem readDigits_digits (m : Nat) : readDigits (digits m) = m := by
  induction m using Nat.strongRec with
  | ind m ih =>
    rcases Nat.lt_or_ge m 10 with h | h
    · rw [digits_of_lt h, readDigits, List.foldl_cons, toNat_digit h]
      simp
    · have tail := ih (m / 10) (by omega)
      rw [readDigits] at tail ⊢
      rw [digits_of_ge h, List.foldl_append, tail, List.foldl_cons, toNat_digit (by omega), List.foldl_nil]
      omega

theorem digits_symbols (m : Nat) : ∀ d ∈ digits m, 0x30 ≤ d.toNat ∧ d.toNat ≤ 0x39 := by
  have digit {k : Nat} (h : k < 10) : 0x30 ≤ (BitVec.ofNat 8 (0x30 + k)).toNat ∧ (BitVec.ofNat 8 (0x30 + k)).toNat ≤ 0x39 := by
    rw [toNat_digit h]
    omega
  induction m using Nat.strongRec with
  | ind m ih =>
    intro d hd
    rcases Nat.lt_or_ge m 10 with h | h
    · rw [digits_of_lt h, List.mem_singleton] at hd
      exact hd ▸ digit h
    · rw [digits_of_ge h, List.mem_append, List.mem_singleton] at hd
      rcases hd with hd | rfl
      · exact ih (m / 10) (by omega) d hd
      · exact digit (by omega)

theorem digits_ne_nil (m : Nat) : digits m ≠ [] := by
  rw [← List.length_pos_iff, digits_length]
  omega

theorem digits_head_zero {m : Nat} (hd : (digits m).head? = some 0x30) : m = 0 := by
  induction m using Nat.strongRec with
  | ind m ih =>
    rcases Nat.lt_or_ge m 10 with h | h
    · rw [digits_of_lt h, List.head?_singleton, Option.some.injEq, ← BitVec.toNat_inj, toNat_digit h] at hd
      exact Nat.add_left_cancel hd
    · rw [digits_of_ge h, List.head?_append_of_ne_nil _ (digits_ne_nil _)] at hd
      have := ih (m / 10) (by omega) hd
      omega

/-- Settles O24: each clause by the recursion of `digits`. -/
theorem decimalReadsBack : Obligations.DecimalReadsBack := fun m =>
  ⟨readDigits_digits m, digits_symbols m, digits_head_zero⟩

/-! ### The symbols of a decimal string -/

theorem dec_legal (n : Int) : ∀ a ∈ dec n, 0x20 ≤ a.toNat ∧ a.toNat ≤ 0x7F := by
  have digit {m : Nat} {a : Byte} (ha : a ∈ digits m) : 0x20 ≤ a.toNat ∧ a.toNat ≤ 0x7F := by
    have := digits_symbols m a ha
    omega
  intro a ha
  rcases Int.lt_or_le n 0 with h | h
  · rw [dec_of_neg h, List.mem_cons] at ha
    rcases ha with rfl | ha
    · decide
    · exact digit ha
  · rw [dec_of_nonneg h] at ha
    exact digit ha

theorem dec_ne_nil (n : Int) : dec n ≠ [] := by
  rcases Int.lt_or_le n 0 with h | h
  · rw [dec_of_neg h]
    exact List.cons_ne_nil _ _
  · rw [dec_of_nonneg h]
    exact digits_ne_nil _

end Sys2Proof.Machine
end

section
/-! SUPPORT. CHR of 43_text_layout.md (rules R193 and R195): the cell, the character drawn in it, the refusals, and from
these O25 to O27. -/

namespace Sys2Proof.Machine

/-! ### The cell -/

/-- The next character's cell and the column after it stay in int16 (R193). -/
def CellFits (c : Cfg) (n : Nat) (p : Int × Int) : Prop :=
  (cellAt c n p).1 + 6 * n ≤ 32767 ∧ (cellAt c n p).2 ≤ 32767

theorem cellAt_of_fits {c : Cfg} {n : Nat} {x y : Int} (h : x + 6 * n ≤ c.wrapLimit) : cellAt c n (x, y) = (x, y) :=
  if_neg h.not_gt

theorem cellAt_of_wraps {c : Cfg} {n : Nat} {x y : Int} (h : c.wrapLimit < x + 6 * n) :
    cellAt c n (x, y) = ((c.gap : Int), y + 9 * n) := if_pos h

/-- The cursor as signed values. -/
def State.cursor (s : State) : Int × Int := (s.col.toInt, s.row.toInt)

theorem placeCell_of_fits {s : State} (h : CellFits s.cfg s.size.toNat s.cursor) :
    placeCell s = .ok ((cellAt s.cfg s.size.toNat s.cursor).1, (cellAt s.cfg s.size.toNat s.cursor).2,
      (afterCell s.cfg s.size.toNat s.cursor).1) := by
  rw [afterCell]
  rw [CellFits, State.cursor] at *
  rcases placeCell_cases s with ⟨line, -, e⟩ | ⟨wraps, -, -, e⟩ | ⟨v, big, -, ⟨line, rfl⟩ | ⟨wraps, rfl⟩ | ⟨wraps, -, rfl⟩⟩
  · rw [e, cellAt_of_fits line]
  · rw [e, cellAt_of_wraps wraps]
  · rw [cellAt_of_fits line] at h
    exact absurd h.1 big.not_ge
  · rw [cellAt_of_wraps wraps] at h
    exact absurd h.2 big.not_ge
  · rw [cellAt_of_wraps wraps] at h
    exact absurd h.1 big.not_ge

/-! ### The character -/

/-- The state after characters drawn by the writes `evs` with the items `items`, the cursor then at `p`; nothing else has
changed. -/
def State.drew (s : State) (evs : List PinEvent) (items : List Transaction) (p : Int × Int) : State :=
  { s with
    col := BitVec.ofInt 16 p.1, row := BitVec.ofInt 16 p.2
    pins := { s.pins with rs := .is .high, dout := .is (lo8 s.bg) }
    history := evs.reverse ++ s.history
    panel := items.foldl (Panel.accept s.cfg s.pins.cs) s.panel }

theorem State.drew_drew (s : State) (a b : List PinEvent) (i j : List Transaction) (p q : Int × Int) :
    (s.drew a i p).drew b j q = s.drew (a ++ b) (i ++ j) q := by
  simp [State.drew]

theorem State.drew_advance (s : State) (evs : List PinEvent) (items : List Transaction) (p : Int × Int) :
    (s.drew evs items p).advance = { driven s evs items .high (BitVec.ofNat 8 s.bg.toNat) with
      col := BitVec.ofInt 16 p.1, row := BitVec.ofInt 16 p.2 } := by
  rw [← lo8_eq]
  rfl

theorem State.emits_setCursor_of_sends {s : State} {evs : List PinEvent} {items : List Transaction}
    (h : Sends evs items .high (lo8 s.bg)) (hd : s.pins.ddir = .is .out) (hw : s.pins.wr = .is .high) (p : Int × Int) :
    (s.emits evs).setCursor (u16Of p.1) (u16Of p.2) = s.drew evs items p := by
  have pins := h.pins s.pins hd
  have panel := panelAfter_eq_foldl s.cfg h.noCs s.pins s.panel
  rw [h.items s.pins hd] at panel
  simp only [State.emits, State.setCursor, State.drew, pins, panel, Pins.sent, ← hw]
  rfl

/-- A cell that starts neither left of column 0 nor above row 0, on the bus (R193). -/
theorem sends_cellItems {s : State} (hs : s.size ≠ 0) (sym : Byte) {q : Int × Int} (hc : 0 ≤ q.1) (hr : 0 ≤ q.2) :
    Sends (cellEvents s sym q.1 q.2) (cellItems s sym q) .high (lo8 s.bg) := by
  have sends := sends_cell s sym q.1.toNat q.2.toNat hs
  rwa [Int.toNat_of_nonneg hc, Int.toNat_of_nonneg hr, rasterStream_eq_glyphPixels] at sends

/-- The pin events of the next character. -/
def nextCellEvents (s : State) (sym : Byte) : List PinEvent :=
  cellEvents s sym (cellAt s.cfg s.size.toNat s.cursor).1 (cellAt s.cfg s.size.toNat s.cursor).2

/-- The items of the next character. -/
def nextCellItems (s : State) (sym : Byte) : List Transaction := cellItems s sym (cellAt s.cfg s.size.toNat s.cursor)

theorem sends_nextCell {s : State} (h : BlockInv s) (fits : CellFits s.cfg s.size.toNat s.cursor) (sym : Byte) :
    Sends (nextCellEvents s sym) (nextCellItems s sym) .high (lo8 s.bg) := by
  obtain ⟨⟨hc, -⟩, ⟨hr, -⟩, -⟩ := h.placeCell_bounds (placeCell_of_fits fits)
  exact sends_cellItems h.size sym hc (by omega)

/-- A character whose cell fits is drawn, and the cursor moves past it (R193). -/
theorem renderChar_of_fits {s : State} (h : BlockInv s) (hp : PinsIdle s.cfg s.pins)
    (fits : CellFits s.cfg s.size.toNat s.cursor) (sym : Byte) : renderChar sym s =
      s.drew (nextCellEvents s sym) (nextCellItems s sym) (afterCell s.cfg s.size.toNat s.cursor) := by
  have sends := sends_nextCell h fits sym
  have draws (c r : Half) := State.emits_setCursor_of_sends (s := s.setCursor c r) sends hp.ddir hp.wr
    (afterCell s.cfg s.size.toNat s.cursor)
  rw [renderChar, placeCell_of_fits fits]
  exact draws _ _

/-! ### CHR -/

theorem symbolLegal_iff {a : Byte} : symbolLegal a = true ↔ 0x20 ≤ a.toNat ∧ a.toNat ≤ 0x7F := by
  simp [symbolLegal]

theorem glyphPixels_length (c : Cfg) (sym : Byte) (n : Nat) (fg bg : Half) :
    (glyphPixels c sym n fg bg).length = 48 * n * n := by
  simp [glyphPixels]

theorem cellItems_length (s : State) (sym : Byte) (q : Int × Int) :
    (cellItems s sym q).length = 11 + 96 * s.size.toNat * s.size.toNat := by
  rw [cellItems, List.length_append, windowItems_length, colorItems_length, glyphPixels_length]
  ring

/-- A legal symbol whose cell fits (R195). -/
theorem exec_chr_of_fits {s : State} (hs : Running s) (h : BlockInv s) {a : Byte} (ha : symbolLegal a = true)
    (fits : CellFits s.cfg s.size.toNat s.cursor) : exec (.chr a) s = .next
      { driven s (nextCellEvents s a) (nextCellItems s a) .high (BitVec.ofNat 8 s.bg.toNat) with
        col := BitVec.ofInt 16 (afterCell s.cfg s.size.toNat s.cursor).1
        row := BitVec.ofInt 16 (afterCell s.cfg s.size.toNat s.cursor).2 } := by
  rw [exec_running _ hs, commandRule, renderSymbol_legal ha, renderChar_of_fits h (h.idle hs.1) fits, State.drew_advance]

/-- Settles O25: the cell is at the cursor, whose row stays. -/
theorem chrDrawsAtTheCursor : Obligations.ChrDrawsAtTheCursor := by
  intro a s hs h ha ha' line col items
  have cell : cellAt s.cfg s.size.toNat s.cursor = s.cursor := cellAt_of_fits line
  have fits : CellFits s.cfg s.size.toNat s.cursor := by
    rw [CellFits, cell]
    exact ⟨col, (toInt_bounds s.row).2⟩
  have sends := sends_nextCell h fits a
  have runs := exec_chr_of_fits hs h (symbolLegal_iff.2 ⟨ha, ha'⟩) fits
  have row : BitVec.ofInt 16 s.row.toInt = s.row := BitVec.ofInt_toInt
  rw [nextCellItems, cell] at sends
  rw [nextCellItems, afterCell, cell] at runs
  refine ⟨_, sends.items s.pins (h.idle hs.1).ddir, cellItems_length .., ?_⟩
  rw [runs, State.cursor, row]
  rfl

/-- Settles O26: the cell is at the left gap of the next line. -/
theorem chrWrapsToTheNextLine : Obligations.ChrWrapsToTheNextLine := by
  intro a s hs h ha ha' wraps row col items
  have cell : cellAt s.cfg s.size.toNat s.cursor = ((s.cfg.gap : Int), s.row.toInt + 9 * s.size.toNat) := cellAt_of_wraps wraps
  have fits : CellFits s.cfg s.size.toNat s.cursor := by
    rw [CellFits, cell]
    exact ⟨col, row⟩
  have sends := sends_nextCell h fits a
  have runs := exec_chr_of_fits hs h (symbolLegal_iff.2 ⟨ha, ha'⟩) fits
  rw [nextCellItems, cell] at sends
  rw [nextCellItems, afterCell, cell] at runs
  exact ⟨_, sends.items s.pins (h.idle hs.1).ddir, runs⟩

theorem exec_chr_of_error {s : State} (hs : Running s) {a : Byte} (ha : symbolLegal a = true) {info : Half}
    (he : placeCell s = .error info) : exec (.chr a) s = .next (faulted s 6 info) := by
  refine exec_of_raise (k := .range) hs ?_
  rw [commandRule, renderSymbol_legal ha, renderChar, he]

theorem placeCell_row_error {s : State} (wraps : s.cfg.wrapLimit < s.col.toInt + 6 * s.size.toNat)
    (row : 32767 < s.row.toInt + 9 * s.size.toNat) : placeCell s = .error (u16Of (s.row.toInt + 9 * s.size.toNat)) := by
  simp only [placeCell, i16Of, gt_iff_lt, if_pos wraps, chk16_error (.inr row)]

theorem placeCell_gap_error {s : State} (wraps : s.cfg.wrapLimit < s.col.toInt + 6 * s.size.toNat)
    (row : s.row.toInt + 9 * s.size.toNat ≤ 32767) (col : 32767 < (s.cfg.gap : Int) + 6 * s.size.toNat) :
    placeCell s = .error (u16Of (s.cfg.gap + 6 * s.size.toNat)) := by
  have low := (toInt_bounds s.row).1
  simp only [placeCell, i16Of, gt_iff_lt, if_pos wraps, chk16_ok (show -32768 ≤ _ by omega) row, chk16_error (.inr col)]

theorem placeCell_col_error {s : State} (line : s.col.toInt + 6 * s.size.toNat ≤ s.cfg.wrapLimit)
    (col : 32767 < s.col.toInt + 6 * s.size.toNat) : placeCell s = .error (u16Of (s.col.toInt + 6 * s.size.toNat)) := by
  simp only [placeCell, i16Of, gt_iff_lt, if_neg line.not_gt, chk16_error (.inr col)]

/-- Settles O27: the symbol is checked first, then the row and the column of the cell. -/
theorem chrRefusals : Obligations.ChrRefusals := by
  intro a s hs _ n
  have refused (ha : 0x20 ≤ a.toNat) (ha' : a.toNat ≤ 0x7F) {v : Int} (e : placeCell s = .error (u16Of v)) :
      exec (.chr a) s = .next (faulted s 6 (BitVec.ofInt 16 v)) := exec_chr_of_error hs (symbolLegal_iff.2 ⟨ha, ha'⟩) e
  refine ⟨fun ha => exec_of_raise (k := .badSymbol) hs (renderSymbol_illegal (fun hl => ?_) s),
    fun ha ha' wraps row => refused ha ha' (placeCell_row_error wraps row),
    fun ha ha' wraps row col => refused ha ha' (placeCell_gap_error wraps row col),
    fun ha ha' line col => refused ha ha' (placeCell_col_error line col)⟩
  have legal := symbolLegal_iff.1 hl
  omega

end Sys2Proof.Machine
end

section
/-! SUPPORT. STR and INT of 43_text_layout.md (rules R196 and R197) as sequences of characters, and from these O28 and O30.
-/

namespace Sys2Proof.Machine

/-! ### `cp` plays no part in a character -/

theorem renderChar_withCp (sym : Byte) (s : State) (n : Nat) :
    renderChar sym { s with cp := n } = { renderChar sym s with cp := n } := by
  have place : placeCell { s with cp := n } = placeCell s := rfl
  cases h : placeCell s with
  | error info =>
    rw [renderChar, renderChar, place, h]
    rfl
  | ok q =>
    obtain ⟨nc, nr, ac⟩ := q
    have events : cellEvents { s with cp := n } sym nc nr = cellEvents s sym nc nr := rfl
    simp only [renderChar, place, h, events, State.emits, State.setCursor]

theorem renderSymbol_withCp (sym : Byte) (s : State) (n : Nat) :
    renderSymbol sym { s with cp := n } = { renderSymbol sym s with cp := n } := by
  by_cases h : symbolLegal sym = true
  · rw [renderSymbol_legal h, renderSymbol_legal h, renderChar_withCp]
  · rw [renderSymbol_illegal h, renderSymbol_illegal h]
    rfl

theorem renderSymbols_withCp (syms : List Byte) (s : State) (n : Nat) :
    renderSymbols syms { s with cp := n } = { renderSymbols syms s with cp := n } := by
  induction syms generalizing s with
  | nil => rfl
  | cons sym syms ih =>
    rw [renderSymbols, renderSymbols, renderSymbol_withCp, ih]
    cases hf : (renderSymbol sym s).fault <;> simp [hf]

theorem renderSymbols_cp (syms : List Byte) (s : State) : (renderSymbols syms s).cp = s.cp :=
  (writeFrame_renderSymbols syms s).cp

theorem renderSymbol_cp (sym : Byte) (s : State) : (renderSymbol sym s).cp = s.cp := (writeFrame_renderSymbol sym s).cp

/-! ### A sequence of CHR commands -/

theorem execAll_halted (is : List Instr) {s : State} (hf : s.fault = true) :
    execAll is s = .next { s with cp := s.cp + is.length } := by
  induction is generalizing s with
  | nil => rfl
  | cons i is ih =>
    rw [execAll, exec_halted i hf]
    refine (ih (s := s.advance) hf).trans ?_
    rw [State.advance_cp, List.length_cons, Nat.add_assoc, Nat.add_comm 1]
    rfl

/-- The first fault halts the block, and the CHR commands after it only move `cp` (R233, R235). -/
theorem execAll_chr (syms : List Byte) {s : State} (hs : Running s) :
    execAll (syms.map .chr) s = .next { renderSymbols syms s with cp := s.cp + syms.length } := by
  induction syms generalizing s with
  | nil => rfl
  | cons sym syms ih =>
    have count : s.cp + 1 + syms.length = s.cp + (syms.length + 1) := by omega
    have first : exec (.chr sym) s = .next { renderSymbol sym s with cp := s.cp + 1 } := by
      rw [exec_running _ hs, ← renderSymbol_cp sym s]
      rfl
    rw [List.map_cons, execAll, first, List.length_cons]
    cases hf : (renderSymbol sym s).fault with
    | true =>
      rw [renderSymbols_cons_fault hf]
      refine (execAll_halted _ (s := { renderSymbol sym s with cp := s.cp + 1 }) hf).trans ?_
      rw [List.length_map, count]
    | false =>
      have running : Running { renderSymbol sym s with cp := s.cp + 1 } := ⟨(renderSymbol_ready sym s).trans hs.1, hf⟩
      rw [renderSymbols_cons_noFault hf]
      refine (ih running).trans ?_
      rw [renderSymbols_withCp, count]

/-- Settles O28: both are `renderSymbols`; only the count of commands differs. -/
theorem strIsTheChrSequence : Obligations.StrIsTheChrSequence := by
  intro syms s hs
  refine ⟨_, execAll_chr syms hs, ?_⟩
  rw [exec_running _ hs, ← renderSymbols_cp syms s]
  rfl

/-! ### INT -/

theorem renderSymbols_of_legal {syms : List Byte} (h : ∀ a ∈ syms, symbolLegal a = true) (s : State) :
    renderSymbols syms s = renderChars syms s := by
  induction syms generalizing s with
  | nil => rfl
  | cons sym syms ih =>
    rw [renderSymbols, renderChars, renderSymbol_legal (h sym List.mem_cons_self),
      ih fun a ha => h a (List.mem_cons_of_mem _ ha)]

/-- Settles O30: every symbol of a decimal string is legal, so that STR's check refuses none. -/
theorem intIsStrOfItsDecimal : Obligations.IntIsStrOfItsDecimal := by
  intro h s hs
  have legal (a : Byte) (ha : a ∈ dec h.toInt) : symbolLegal a = true := symbolLegal_iff.2 (dec_legal _ a ha)
  rw [exec_running _ hs, exec_running _ hs, commandRule, commandRule, renderSymbols_of_legal legal]

end Sys2Proof.Machine
end

section
/-! SUPPORT. Where the characters of a text go (43_text_layout.md rules R193, R196 and R202), a whole text drawn, and from
these O29, O31 and O32. -/

namespace Sys2Proof.Machine

/-! ### The cursor of a text -/

theorem afterText_succ (c : Cfg) (n k : Nat) (p : Int × Int) : afterText c n (k + 1) p = afterCell c n (afterText c n k p) := by
  induction k generalizing p with
  | zero => rfl
  | succ k ih => exact ih (afterCell c n p)

/-- Every one of `k` characters fits (R193). -/
def TextFits (c : Cfg) (n k : Nat) (p : Int × Int) : Prop := ∀ j < k, CellFits c n (afterText c n j p)

theorem TextFits.head {c : Cfg} {n k : Nat} {p : Int × Int} (h : TextFits c n (k + 1) p) : CellFits c n p :=
  h 0 (Nat.succ_pos k)

theorem TextFits.tail {c : Cfg} {n k : Nat} {p : Int × Int} (h : TextFits c n (k + 1) p) : TextFits c n k (afterCell c n p) :=
  fun j hj => h (j + 1) (Nat.succ_lt_succ hj)

/-- A character goes down by one pitch at most. -/
theorem cellAt_row_le (c : Cfg) (n : Nat) (p : Int × Int) : (cellAt c n p).2 ≤ p.2 + 9 * n := by
  rw [cellAt]
  split
  · exact le_rfl
  · omega

theorem afterText_row_le (c : Cfg) (n k : Nat) (p : Int × Int) : (afterText c n k p).2 ≤ p.2 + 9 * n * k := by
  induction k with
  | zero => simp [afterText]
  | succ k ih =>
    have step := cellAt_row_le c n (afterText c n k p)
    rw [afterText_succ, afterCell]
    push_cast
    linarith

theorem cellAt_col_le {c : Cfg} {n : Nat} (limit : c.wrapLimit ≤ 32767) (gap : (c.gap : Int) + 6 * n ≤ 32767) (p : Int × Int) :
    (cellAt c n p).1 + 6 * n ≤ 32767 := by
  rw [cellAt]
  split
  · exact gap
  · omega

/-- Rows that stay in int16 even if every character wraps (R193). -/
theorem textFits_of_rows {c : Cfg} {n k : Nat} {p : Int × Int} (limit : c.wrapLimit ≤ 32767)
    (gap : (c.gap : Int) + 6 * n ≤ 32767) (rows : p.2 + 9 * n * k ≤ 32767) : TextFits c n k p := fun j hj => by
  refine ⟨cellAt_col_le limit gap _, ?_⟩
  have cell := cellAt_row_le c n (afterText c n j p)
  have row := afterText_row_le c n j p
  have pitches : (9 * n * (j + 1) : Int) ≤ 9 * n * k := by
    exact_mod_cast Nat.mul_le_mul_left (9 * n) hj
  linarith

/-! ### A whole text -/

theorem State.drew_cursor {s : State} {evs : List PinEvent} {items : List Transaction} {p : Int × Int}
    (h1 : -32768 ≤ p.1 ∧ p.1 ≤ 32767) (h2 : -32768 ≤ p.2 ∧ p.2 ≤ 32767) : (s.drew evs items p).cursor = p :=
  Prod.ext (toInt_u16Of h1.1 h1.2) (toInt_u16Of h2.1 h2.2)

theorem textItems_drew (s : State) (evs : List PinEvent) (items : List Transaction) (p : Int × Int) (syms : List Byte)
    (q : Int × Int) : textItems (s.drew evs items p) syms q = textItems s syms q := by
  induction syms generalizing q with
  | nil => rfl
  | cons sym syms ih => rw [textItems, textItems, ih]; rfl

/-- A text that fits is drawn whole (R196). -/
theorem renderSymbols_of_fits {syms : List Byte} (hne : syms ≠ []) (legal : ∀ a ∈ syms, symbolLegal a = true) {s : State}
    (hs : Running s) (h : BlockInv s) (fits : TextFits s.cfg s.size.toNat syms.length s.cursor) :
    ∃ evs, Sends evs (textItems s syms s.cursor) .high (lo8 s.bg) ∧ renderSymbols syms s =
      s.drew evs (textItems s syms s.cursor) (afterText s.cfg s.size.toNat syms.length s.cursor) := by
  induction syms generalizing s with
  | nil => exact absurd rfl hne
  | cons sym syms ih =>
    have hp := h.idle hs.1
    have sends := sends_nextCell h fits.head sym
    have draws : renderSymbol sym s = _ :=
      (renderSymbol_legal (legal sym List.mem_cons_self) s).trans (renderChar_of_fits h hp fits.head sym)
    have noFault : (renderSymbol sym s).fault = false := by rw [draws]; exact hs.2
    rw [renderSymbols_cons_noFault noFault, draws]
    by_cases hsyms : syms = []
    · subst hsyms
      refine ⟨_, sends.congr (List.append_nil _).symm rfl, ?_⟩
      rw [textItems, textItems, List.append_nil]
      rfl
    · have keeps := h.renderSymbol hs.1 sym
      obtain ⟨hc, hr, ha⟩ := h.placeCell_bounds (placeCell_of_fits fits.head)
      rw [draws] at keeps
      have cursor := State.drew_cursor (s := s) (evs := nextCellEvents s sym) (items := nextCellItems s sym)
        (p := afterCell s.cfg s.size.toNat s.cursor) ⟨by omega, ha.2⟩ ⟨by rw [afterCell]; omega, hr.2⟩
      obtain ⟨evs, rest, eq⟩ := ih hsyms (fun a ha => legal a (List.mem_cons_of_mem _ ha)) (s := s.drew ..) ⟨hs.1, hs.2⟩ keeps
        (by rw [cursor]; exact fits.tail)
      rw [cursor, textItems_drew] at rest eq
      refine ⟨_, sends.append rest, eq.trans ?_⟩
      rw [State.drew_drew]
      rfl

/-- STR of a text that fits (R196). -/
theorem exec_str_of_fits {syms : List Byte} (hne : syms ≠ []) (legal : ∀ a ∈ syms, symbolLegal a = true) {s : State}
    (hs : Running s) (h : BlockInv s) (fits : TextFits s.cfg s.size.toNat syms.length s.cursor) :
    ∃ evs, Sends evs (textItems s syms s.cursor) .high (lo8 s.bg) ∧ exec (.str syms) s = .next
      (s.drew evs (textItems s syms s.cursor) (afterText s.cfg s.size.toNat syms.length s.cursor)).advance := by
  obtain ⟨evs, sends, eq⟩ := renderSymbols_of_fits hne legal hs h fits
  exact ⟨evs, sends, by rw [exec_running _ hs, commandRule, eq]⟩

theorem exec_str_nil {s : State} (hs : Running s) : exec (.str []) s = .next s.advance := exec_running _ hs

/-- Settles O29: rows that stay in int16 make every character fit. -/
theorem strDrawsItsText : Obligations.StrDrawsItsText := by
  intro syms s hs h legal limit gap rows items p
  refine ⟨fun hne => hne ▸ exec_str_nil hs, fun hne => ?_⟩
  obtain ⟨evs, sends, runs⟩ := exec_str_of_fits hne (fun a ha => symbolLegal_iff.2 (legal a ha)) hs h
    (textFits_of_rows limit gap rows)
  refine ⟨evs, sends.items s.pins (h.idle hs.1).ddir, ?_⟩
  rw [runs, State.drew_advance]
  rfl

/-- Settles O31: INT is the STR of its decimal string (O30), which is never empty. -/
theorem intDrawsItsDecimal : Obligations.IntDrawsItsDecimal := by
  intro h s hs inv limit gap rows items p
  rw [intIsStrOfItsDecimal h s hs]
  exact (strDrawsItsText (dec h.toInt) s hs inv (dec_legal _) limit gap rows).2 (dec_ne_nil _)

/-! ### The characters of a line -/

/-- The number of characters on a line from the left gap (R202). -/
def lineLength (c : Cfg) (n : Nat) : Nat := (c.wrapLimit - c.gap).toNat / (6 * n)

theorem lineLength_le {c : Cfg} {n k : Nat} (hn : 0 < n) (hk : k + 1 ≤ lineLength c n) :
    (c.gap : Int) + 6 * n * k + 6 * n ≤ c.wrapLimit := by
  have fit : (k + 1) * (6 * n) ≤ (c.wrapLimit - c.gap).toNat := (Nat.le_div_iff_mul_le (by omega)).1 hk
  have pos : 0 < (k + 1) * (6 * n) := by positivity
  have fit' : ((k : Int) + 1) * (6 * n) ≤ c.wrapLimit - c.gap := by
    have := Int.toNat_of_nonneg (a := c.wrapLimit - c.gap) (by omega)
    rw [← this]
    exact_mod_cast fit
  linarith

theorem lt_lineLength_succ (c : Cfg) {n : Nat} (hn : 0 < n) :
    c.wrapLimit < (c.gap : Int) + 6 * n * lineLength c n + 6 * n := by
  have past : (c.wrapLimit - c.gap).toNat < 6 * n * (lineLength c n + 1) := Nat.lt_mul_div_succ _ (by omega)
  have le := Int.self_le_toNat (c.wrapLimit - c.gap)
  have past' : ((c.wrapLimit - c.gap).toNat : Int) < 6 * n * (lineLength c n + 1) := by exact_mod_cast past
  linarith

/-- On the line each character is one cell further (R202). -/
theorem afterText_onLine {c : Cfg} {n : Nat} (hn : 0 < n) (row : Int) {k : Nat} (hk : k ≤ lineLength c n) :
    afterText c n k ((c.gap : Int), row) = ((c.gap : Int) + 6 * n * k, row) := by
  induction k with
  | zero => simp [afterText]
  | succ k ih =>
    rw [afterText_succ, ih (by omega), afterCell, cellAt_of_fits (lineLength_le hn hk)]
    push_cast
    ring_nf

/-- The first character past the line is drawn at the left gap of the next (R202). -/
theorem cellAt_pastLine (c : Cfg) {n : Nat} (hn : 0 < n) (row : Int) :
    cellAt c n (afterText c n (lineLength c n) ((c.gap : Int), row)) = ((c.gap : Int), row + 9 * n) := by
  rw [afterText_onLine hn row le_rfl, cellAt_of_wraps (lt_lineLength_succ c hn)]

theorem textFits_onLine {c : Cfg} {n : Nat} (hn : 0 < n) (limit : c.wrapLimit ≤ 32767) {row : Int} (hr : row ≤ 32767) {k : Nat}
    (hk : k ≤ lineLength c n) : TextFits c n k ((c.gap : Int), row) := fun j hj => by
  have line := lineLength_le (c := c) hn (show j + 1 ≤ lineLength c n by omega)
  rw [afterText_onLine hn row (by omega), CellFits, cellAt_of_fits line]
  exact ⟨line.trans limit, hr⟩

theorem afterText_nonneg (c : Cfg) (n k : Nat) {p : Int × Int} (hc : 0 ≤ p.1) (hr : 0 ≤ p.2) :
    0 ≤ (afterText c n k p).1 ∧ 0 ≤ (afterText c n k p).2 := by
  induction k with
  | zero => exact ⟨hc, hr⟩
  | succ k ih =>
    rw [afterText_succ, afterCell, cellAt]
    split <;> dsimp only <;> omega

/-- Where STR leaves the cursor after a text that fits. -/
theorem exec_str_cursor {syms : List Byte} (legal : ∀ a ∈ syms, symbolLegal a = true) {s : State} (hs : Running s)
    (h : BlockInv s) (fits : TextFits s.cfg s.size.toNat syms.length s.cursor) :
    ∃ t, exec (.str syms) s = .next t ∧ t.fault = false ∧
      t.cursor = afterText s.cfg s.size.toNat syms.length s.cursor := by
  by_cases hne : syms = []
  · subst hne
    exact ⟨_, exec_str_nil hs, hs.2, rfl⟩
  · obtain ⟨evs, -, runs⟩ := exec_str_of_fits hne legal hs h fits
    obtain ⟨k, hk⟩ := Nat.exists_eq_succ_of_ne_zero (mt List.length_eq_zero_iff.1 hne)
    obtain ⟨low, low'⟩ := afterText_nonneg s.cfg s.size.toNat syms.length (p := s.cursor) h.col (le_trans (by decide) h.row)
    obtain ⟨high, high'⟩ : (afterText s.cfg s.size.toNat syms.length s.cursor).1 ≤ 32767 ∧
        (afterText s.cfg s.size.toNat syms.length s.cursor).2 ≤ 32767 := by
      rw [hk, Nat.succ_eq_add_one, afterText_succ]
      exact fits k (by omega)
    exact ⟨_, runs, hs.2, State.drew_cursor (s := s) (evs := evs) (items := textItems s syms s.cursor) ⟨by omega, high⟩
      ⟨by omega, high'⟩⟩

theorem BlockInv.size_pos {s : State} (h : BlockInv s) : 0 < s.size.toNat :=
  Nat.pos_of_ne_zero fun e => h.size (BitVec.eq_of_toNat_eq e)

section
variable {syms : List Byte} (legal : ∀ a ∈ syms, symbolLegal a = true) {s : State} (hs : Running s) (h : BlockInv s)
  (limit : s.cfg.wrapLimit ≤ 32767) (col : s.col.toInt = s.cfg.gap)
include legal hs h limit col

theorem exec_str_onLine (hlen : syms.length ≤ lineLength s.cfg s.size.toNat) : ∃ t, exec (.str syms) s = .next t ∧
    t.fault = false ∧ t.col.toInt = s.cfg.gap + 6 * s.size.toNat * syms.length ∧ t.row = s.row := by
  have start : s.cursor = ((s.cfg.gap : Int), s.row.toInt) := Prod.ext col rfl
  obtain ⟨t, ht, hf, cursor⟩ := exec_str_cursor legal hs h
    (start ▸ textFits_onLine h.size_pos limit (toInt_bounds s.row).2 hlen)
  rw [start, afterText_onLine h.size_pos _ hlen] at cursor
  exact ⟨t, ht, hf, congrArg Prod.fst cursor, BitVec.eq_of_toInt_eq (congrArg Prod.snd cursor)⟩

theorem exec_str_pastLine (gap : (s.cfg.gap : Int) + 6 * s.size.toNat ≤ 32767)
    (row : s.row.toInt + 9 * s.size.toNat ≤ 32767) (hlen : syms.length = lineLength s.cfg s.size.toNat + 1) :
    ∃ t, exec (.str syms) s = .next t ∧ t.fault = false ∧
      t.col.toInt = s.cfg.gap + 6 * s.size.toNat ∧ t.row.toInt = s.row.toInt + 9 * s.size.toNat := by
  have start : s.cursor = ((s.cfg.gap : Int), s.row.toInt) := Prod.ext col rfl
  have past := cellAt_pastLine s.cfg h.size_pos s.row.toInt
  have all : TextFits s.cfg s.size.toNat syms.length ((s.cfg.gap : Int), s.row.toInt) := fun j hj => by
    rcases Nat.lt_or_ge j (lineLength s.cfg s.size.toNat) with hlt | hge
    · exact textFits_onLine h.size_pos limit (toInt_bounds s.row).2 le_rfl j hlt
    · obtain rfl : j = lineLength s.cfg s.size.toNat := by omega
      rw [CellFits, past]
      exact ⟨gap, row⟩
  obtain ⟨t, ht, hf, cursor⟩ := exec_str_cursor legal hs h (start ▸ all)
  rw [start, hlen, afterText_succ, afterCell, past] at cursor
  exact ⟨t, ht, hf, congrArg Prod.fst cursor, congrArg Prod.snd cursor⟩

end

/-- Settles O32: the line holds `lineLength` characters, and the next one wraps. -/
theorem aLineHoldsThatManyCharacters : Obligations.ALineHoldsThatManyCharacters := by
  intro syms s hs h legal limit gap row col n fits
  have legal' (a : Byte) (ha : a ∈ syms) : symbolLegal a = true := symbolLegal_iff.2 (legal a ha)
  exact ⟨exec_str_onLine legal' hs h limit col, exec_str_pastLine legal' hs h limit col gap row⟩

end Sys2Proof.Machine
end

section
/-! SUPPORT. ERA of 43_text_layout.md (rule R199): the flood, its refusals, and from these O33 and O34. -/

namespace Sys2Proof.Machine

/-- ERA's own rule with a count from 1 and a width in int16 (R199). -/
theorem commandRule_era_of_checked {s : State} (h : BlockInv s) {a : Byte} (ha : 1 ≤ a.toNat)
    (width : 6 * s.size.toNat * a.toNat ≤ 32767) : commandRule (.era a) s =
      s.emits (setWindow s.cfg s.col.toNat s.row.toNat (6 * s.size.toNat * a.toNat : Nat) (8 * s.size.toNat : Nat) ++
        pushColors (List.replicate (6 * s.size.toNat * a.toNat * (8 * s.size.toNat)) s.bg)) := by
  have size := h.size_pos
  have row : 0 ≤ s.row.toInt := le_trans (by decide) h.row
  have cells : (0 : Int) < 6 * s.size.toNat * a.toNat := by positivity
  have checked : checkWindow s.col.toInt s.row.toInt (6 * s.size.toNat * a.toNat) (8 * s.size.toNat) = none :=
    checkWindow_none.2 ⟨h.col, row, cells, by positivity⟩
  rcases eraseCells_cases a.toNat s with ⟨wide, -⟩ | ⟨-, e⟩
  · exact absurd (by exact_mod_cast width) wide.not_ge
  · rw [commandRule, e, windowed_sent checked, toInt_eq_toNat_of_nonneg h.col, toInt_eq_toNat_of_nonneg row]
    push_cast
    rfl

/-- The items of an ERA of `n` cells (R199). -/
def eraItems (s : State) (n : Nat) : List Transaction :=
  windowItems s.cfg s.col.toNat (s.col.toNat + 6 * s.size.toNat * n - 1) s.row.toNat (s.row.toNat + 8 * s.size.toNat - 1) ++
    colorItems (List.replicate (6 * s.size.toNat * n * (8 * s.size.toNat)) s.bg)

theorem sends_era {s : State} (h : BlockInv s) {n : Nat} (hn : 1 ≤ n) :
    Sends (setWindow s.cfg s.col.toNat s.row.toNat (6 * s.size.toNat * n : Nat) (8 * s.size.toNat : Nat) ++
        pushColors (List.replicate (6 * s.size.toNat * n * (8 * s.size.toNat)) s.bg)) (eraItems s n) .high (lo8 s.bg) := by
  have size := h.size_pos
  have w0 : 6 * s.size.toNat * n ≠ 0 := by positivity
  have h0 : 8 * s.size.toNat ≠ 0 := by positivity
  exact sends_fill s.cfg _ _ _ _ _ w0 h0 (Nat.mul_ne_zero w0 h0) s.bg

/-- Settles O33: ERA is a window at the cursor and a constant fill. -/
theorem eraFloodsWithBackground : Obligations.EraFloodsWithBackground := by
  intro a s hs h ha width w ht items
  have hp := h.idle hs.1
  have sends := sends_era h ha
  refine ⟨_, sends.items s.pins hp.ddir, ?_, ?_⟩
  · rw [List.length_append, windowItems_length, colorItems_length, List.length_replicate]
    simp only [w, ht]
    ring
  · rw [← lo8_eq]
    exact exec_of_sends hs hp (commandRule_era_of_checked h ha width) sends

/-- Settles O34: the width is checked first; a count of 0 has width 0. -/
theorem eraRefusals : Obligations.EraRefusals := by
  intro a s hs h
  refine ⟨fun wide => ?_, fun ha => ?_⟩
  · have wide' : 32767 < 6 * (s.size.toNat : Int) * a.toNat := by exact_mod_cast wide
    have info : u16Of (6 * s.size.toNat * a.toNat) = BitVec.ofNat 16 (6 * s.size.toNat * a.toNat) := by
      rw [← u16Of_natCast]
      push_cast
      rfl
    rcases eraseCells_cases a.toNat s with ⟨-, e⟩ | ⟨fits, -⟩
    · rw [info] at e
      exact exec_of_raise (k := .range) hs e
    · exact absurd wide' fits.not_gt
  · subst ha
    have row : 0 ≤ s.row.toInt := le_trans (by decide) h.row
    rcases eraseCells_cases (0 : Byte).toNat s with ⟨wide, -⟩ | ⟨-, e⟩
    · simp at wide
    · refine exec_of_raise (k := .badWindow) hs (e.trans (windowed_refused ?_))
      exact checkWindow_of_width h.col row (by simp)

end Sys2Proof.Machine
end

section
/-! SUPPORT. Which pixels a command can store, whatever the panel's state (20_memory.md rules R80 to R86): what one item
stores, what a window with a stream of colours stores, and from these O52 to O54. -/

namespace Sys2Proof.Machine

/-! ### The panel of a command -/

/-- But for INIT, a command moves the panel only on a running block, and then as its own rule does (R121). -/
theorem exec_panel_cases {i : Instr} {s t : State} (hi : i.mnemonic ≠ .init) (h : exec i s = .next t) :
    t.panel = s.panel ∨ (Running s ∧ t.panel = (commandRule i s).panel) := by
  rcases exec_cases h with ⟨-, rfl⟩ | ⟨-, -, -, rfl⟩ | ⟨hf, hr, rfl⟩
  · exact .inl rfl
  · exact .inl rfl
  · exact .inr ⟨⟨hr.resolve_left hi, hf⟩, rfl⟩

/-- The panel takes the items of writes one by one. -/
theorem panel_of_sends {s : State} {evs : List PinEvent} {items : List Transaction} {rs : Level} {d : Byte}
    (h : Sends evs items rs d) (hd : s.pins.ddir = .is .out) :
    (s.emits evs).panel = items.foldl (Panel.accept s.cfg s.pins.cs) s.panel := by
  rw [State.emits_panel, panelAfter_eq_foldl s.cfg h.noCs, h.items s.pins hd]

/-- A window alone moves the panel but stores nothing. -/
theorem windowed_nil_gram {s : State} (hc : s.cfg.wf = true) (hd : s.pins.ddir = .is .out) (col row width height : Half) :
    (commandRule (.win col row width height) s).panel.gram = s.panel.gram := by
  rcases windowed_cases col.toInt row.toInt width.toInt height.toInt [] s with ⟨k, -, e⟩ | ⟨checked, -⟩
  · rw [show commandRule (.win col row width height) s = _ from e]
    rfl
  · obtain ⟨c0, r0, w0, h0⟩ := checkWindow_none.1 checked
    rw [show commandRule (.win col row width height) s = _ from windowed_nil_of_checked checked s,
      panel_of_sends (sends_setWindow_of_checked s.cfg c0 r0 w0 h0) hd]
    exact (window_any hc _ _ _ _ _ _).1

theorem commandRule_rdb_panel (s : State) : (commandRule .rdb s).panel =
    s.panel.accept s.cfg s.pins.cs (.rd (Config.readOracle s.samples)) := by
  rw [commandRule_rdb, State.respond_eq]
  exact panelAfter_readByte ..

/-- The commands of `NoPixelIsStoredBy`, run. -/
theorem commandRule_gram {i : Instr} {s : State} (h : BlockInv s) (hp : PinsIdle s.cfg s.pins)
    (hi : i.mnemonic ∈ [Mnemonic.selc, .seld, .rdb, .cmd, .win, .nl, .siz, .fgc, .bgc]) :
    (commandRule i s).panel.gram = s.panel.gram := by
  cases i with
  | selc | seld | fgc | bgc => rfl
  | rdb =>
    rw [commandRule_rdb_panel]
    exact accept_rd_gram ..
  | cmd a =>
    rw [commandRule, panel_of_sends (sends_writeCommand a) hp.ddir]
    exact accept_cmd_gram ..
  | win col row width height => exact windowed_nil_gram h.cfg hp.ddir ..
  | nl => rcases newLineStep_cases s with ⟨-, e⟩ | ⟨-, e⟩ <;> simp [commandRule, e]
  | siz a => rcases commandRule_siz_cases a s with ⟨-, e⟩ | ⟨-, e⟩ <;> simp [e]
  | wrb | init | dat | rect | clr | chr | str | int | era => simp [Instr.mnemonic] at hi

/-- Settles O52: the items of these commands are no data byte of a stream. -/
theorem noPixelIsStoredBy : Obligations.NoPixelIsStoredBy := by
  intro i s t h hx hi x y
  have notInit : i.mnemonic ≠ .init := fun e => by simp [e] at hi
  rcases exec_panel_cases notInit hx with e | ⟨hs, e⟩ <;> rw [e]
  rw [commandRule_gram h (h.idle hs.1) hi]

/-! ### One byte -/

/-- A data byte stores at most the pixel at the write pointer (R84). -/
theorem acceptDat_read (c : Cfg) (P : Panel) (b : Byte) {x y : Half} (off : ¬(P.x = .is x ∧ P.y = .is y)) :
    (P.acceptDat c b).gram.read (pixelKey x y) = P.gram.read (pixelKey x y) := by
  cases hm : P.mode with
  | idle => simp [Panel.acceptDat, hm]
  | args op got => rw [acceptDat_args hm, (acceptArg_cases c P op (got ++ [b])).1]
  | memWrite =>
    by_cases armed : P.configured = true ∧ ∃ w, P.window? = some w ∧ w.valid c = true
    · obtain ⟨hcf, w, hw, hv⟩ := armed
      rw [acceptDat_armed hm hcf hw hv]
      cases P.half with
      | none => rfl
      | some v =>
        rw [Option.elim_some, Panel.storePixel]
        split
        · rename_i px py hx hy
          refine Memory.read_write_other _ _ fun hk => off ?_
          obtain ⟨rfl, rfl⟩ := pixelKey_inj.1 hk
          exact ⟨hx, hy⟩
        · rfl
    · rw [acceptDat_unarmed hm fun hcf w hw => Bool.eq_false_iff.2 fun hv => armed ⟨hcf, w, hw, hv⟩]

theorem accept_dat_read (c : Cfg) (cs : Latch Level) (P : Panel) (b : Byte) {x y : Half} (off : ¬(P.x = .is x ∧ P.y = .is y)) :
    (P.accept c cs (.dat b)).gram.read (pixelKey x y) = P.gram.read (pixelKey x y) := by
  cases hl : P.listening c cs with
  | true => rw [accept_dat_of_listening hl, acceptDat_read c P b off]
  | false => rw [accept_dat_of_deaf hl]

/-- Settles O53: WRB and DAT are one item, a command or a data byte. -/
theorem oneByteStoresAtThePointer : Obligations.OneByteStoresAtThePointer := by
  intro i s t h hx hi x y off
  have notInit : i.mnemonic ≠ .init := fun e => by simp [e] at hi
  rcases exec_panel_cases notInit hx with e | ⟨hs, e⟩ <;> rw [e]
  have hp := h.idle hs.1
  cases i with
  | wrb a =>
    rw [show (commandRule (.wrb a) s).panel = _ from panelAfter_writeByte s.cfg hp.ddir hp.rs s.panel a]
    split
    · rw [accept_cmd_gram]
    · exact accept_dat_read _ _ _ _ off
  | dat a =>
    rw [commandRule, panel_of_sends (sends_writeData a) hp.ddir]
    exact accept_dat_read _ _ _ _ off
  | _ => simp [Instr.mnemonic] at hi

/-! ### A window and its stream -/

/-- The window of `w` by `h` pixels at `(col, row)` (R163). -/
def Window.rect (col row w h : Nat) : Window := ⟨.ofNat 16 col, .ofNat 16 (col + w - 1), .ofNat 16 row, .ofNat 16 (row + h - 1)⟩

theorem Window.rect_contains {col row w h : Nat} (hw : w ≠ 0) (hh : h ≠ 0) (hc : col + w ≤ 65536) (hr : row + h ≤ 65536)
    {x y : Half} : (Window.rect col row w h).Contains x y ↔ inRect col row w h x y := by
  simp only [Window.Contains, Window.rect, inRect, BitVec.toNat_ofNat]
  omega

/-- `P` has changed `g` only inside `W`, and if it still listens, it is streaming into `W`. -/
structure StreamsInto (c : Cfg) (cs : Latch Level) (W : Window) (g : Memory) (P : Panel) : Prop where
  kept : ∀ x y, ¬W.Contains x y → P.gram.read (pixelKey x y) = g.read (pixelKey x y)
  mode : P.listening c cs = true → P.mode = .memWrite
  window : P.listening c cs = true → P.window? = some W
  pointer : P.listening c cs = true → W.valid c = true → ∃ x y, P.x = .is x ∧ P.y = .is y ∧ W.Contains x y

/-- After its eleven items any panel streams into the window or is deaf (R80 to R83). -/
theorem streamsInto_window {c : Cfg} (hc : c.wf = true) (cs : Latch Level) (P : Panel) (c0 c1 r0 r1 : Nat) :
    StreamsInto c cs ⟨.ofNat 16 c0, .ofNat 16 c1, .ofNat 16 r0, .ofNat 16 r1⟩ P.gram
      ((windowItems c c0 c1 r0 r1).foldl (Panel.accept c cs) P) := by
  obtain ⟨gram, deaf | ⟨mode, window, hx, hy⟩⟩ := window_any hc cs P c0 c1 r0 r1
  · refine ⟨fun _ _ _ => by rw [gram], ?_, ?_, ?_⟩ <;> exact fun hl => by simp [deaf] at hl
  · refine ⟨fun _ _ _ => by rw [gram], fun _ => mode, fun _ => window, fun _ hv => ⟨_, _, hx, hy, ?_⟩⟩
    obtain ⟨hc, hr, -, -⟩ := Window.valid_iff.1 hv
    exact ⟨le_rfl, hc, le_rfl, hr⟩

theorem StreamsInto.deaf {c : Cfg} {cs : Latch Level} {W : Window} {g : Memory} {P Q : Panel} (h : StreamsInto c cs W g P)
    (hg : Q.gram = P.gram) (hl : Q.listening c cs = false) : StreamsInto c cs W g Q := by
  refine ⟨hg ▸ h.kept, ?_, ?_, ?_⟩ <;> exact fun hl' => by simp [hl] at hl'

theorem StreamsInto.dat {c : Cfg} {cs : Latch Level} {W : Window} {g : Memory} {P : Panel} (h : StreamsInto c cs W g P)
    (b : Byte) : StreamsInto c cs W g (P.accept c cs (.dat b)) := by
  cases hl : P.listening c cs with
  | false =>
    rw [accept_dat_of_deaf hl]
    exact h
  | true =>
    have hm := h.mode hl
    have hw := h.window hl
    rw [accept_dat_of_listening hl]
    by_cases armed : P.configured = true ∧ W.valid c = true
    · obtain ⟨hcf, hv⟩ := armed
      obtain ⟨x, y, hx, hy, inside⟩ := h.pointer hl hv
      rw [acceptDat_armed hm hcf hw hv]
      cases P.half with
      | none => exact ⟨h.kept, fun _ => hm, fun _ => hw, fun _ _ => ⟨x, y, hx, hy, inside⟩⟩
      | some v =>
        rw [Option.elim_some, Panel.storePixel_of_pointer hx hy]
        refine ⟨fun u v huv => ?_, fun _ => hm, fun _ => hw, fun _ _ => ⟨_, _, rfl, rfl, inside.next⟩⟩
        refine (Memory.read_write_other _ _ fun hk => huv ?_).trans (h.kept u v huv)
        obtain ⟨rfl, rfl⟩ := pixelKey_inj.1 hk
        exact inside
    · rw [acceptDat_unarmed hm fun hcf w hw' => ?_]
      · exact h.deaf rfl (Panel.deaf_of_undef c cs rfl)
      · obtain rfl : W = w := Option.some.inj (hw.symm.trans hw')
        exact Bool.eq_false_iff.2 fun hv => armed ⟨hcf, hv⟩

theorem StreamsInto.colors {c : Cfg} {cs : Latch Level} {W : Window} {g : Memory} (ps : List Half) {P : Panel}
    (h : StreamsInto c cs W g P) : StreamsInto c cs W g ((colorItems ps).foldl (Panel.accept c cs) P) := by
  induction ps generalizing P with
  | nil => exact h
  | cons v ps ih => exact ih ((h.dat _).dat _)

/-- A window and a stream of any colours store only inside the window. -/
theorem window_stream_keeps {c : Cfg} (hc : c.wf = true) (cs : Latch Level) (P : Panel) {col row w h : Nat} (hw : w ≠ 0)
    (hh : h ≠ 0) (hcol : col + w ≤ 65536) (hrow : row + h ≤ 65536) (ps : List Half) {x y : Half} (off : ¬inRect col row w h x y) :
    ((windowItems c col (col + w - 1) row (row + h - 1) ++ colorItems ps).foldl (Panel.accept c cs) P).gram.read (pixelKey x y) =
      P.gram.read (pixelKey x y) := by
  rw [List.foldl_append]
  exact ((streamsInto_window hc cs P col (col + w - 1) row (row + h - 1)).colors ps).kept x y
    (mt (Window.rect_contains hw hh hcol hrow).1 off)

/-! ### RECT, ERA and CHR -/

theorem rect_keeps {s t : State} (hs : Running s) (h : BlockInv s) {col row width height color : Half}
    (hx : exec (.rect col row width height color) s = .next t) {x y : Half}
    (off : ¬inRect col.toNat row.toNat width.toNat height.toNat x y) :
    t.panel.gram.read (pixelKey x y) = s.panel.gram.read (pixelKey x y) := by
  rw [exec_running _ hs, Host.Outcome.next.injEq] at hx
  subst hx
  rw [State.advance_panel]
  rcases windowed_cases col.toInt row.toInt width.toInt height.toInt
    (List.replicate (width.toInt.toNat * height.toInt.toNat) color) s with ⟨k, -, e⟩ | ⟨checked, -⟩
  · rw [show commandRule (.rect col row width height color) s = _ from e]
    rfl
  · obtain ⟨c0, r0, w0, h0⟩ := checkWindow_none.1 checked
    have fits := And.intro (toNat_le_of_nonneg c0) (toNat_le_of_nonneg r0)
    have fits' := And.intro (toNat_le_of_nonneg w0.le) (toNat_le_of_nonneg h0.le)
    rw [commandRule_rect_of_checked c0 r0 w0 h0, panel_of_sends (sends_rect s.cfg w0 h0 color) (h.idle hs.1).ddir]
    exact window_stream_keeps h.cfg _ _ (toNat_ne_zero_of_pos w0) (toNat_ne_zero_of_pos h0) (by omega) (by omega) _ off

theorem era_keeps {s t : State} (hs : Running s) (h : BlockInv s) {a : Byte} (hx : exec (.era a) s = .next t) {x y : Half}
    (off : ¬inRect s.col.toNat s.row.toNat (6 * s.size.toNat * a.toNat) (8 * s.size.toNat) x y) :
    t.panel.gram.read (pixelKey x y) = s.panel.gram.read (pixelKey x y) := by
  have size := h.size_pos
  have row : 0 ≤ s.row.toInt := le_trans (by decide) h.row
  rw [exec_running _ hs, Host.Outcome.next.injEq] at hx
  subst hx
  rw [State.advance_panel]
  by_cases count : 1 ≤ a.toNat ∧ 6 * s.size.toNat * a.toNat ≤ 32767
  · obtain ⟨ha, width⟩ := count
    have fits := And.intro (toNat_le_of_nonneg h.col) (toNat_le_of_nonneg row)
    have small := s.size.isLt
    rw [commandRule_era_of_checked h ha width, panel_of_sends (sends_era h ha) (h.idle hs.1).ddir]
    exact window_stream_keeps h.cfg _ _ (by positivity) (by positivity) (by omega) (by omega) _ off
  · obtain ⟨k, info, e⟩ : ∃ k info, commandRule (.era a) s = s.raise k info := by
      rcases eraseCells_cases a.toNat s with ⟨-, e⟩ | ⟨fits, e⟩
      · exact ⟨_, _, e⟩
      · have fits' : 6 * s.size.toNat * a.toNat ≤ 32767 := by exact_mod_cast fits
        have zero : a.toNat = 0 := by omega
        exact ⟨_, _, e.trans (windowed_refused (checkWindow_of_width h.col row (by rw [zero]; simp)))⟩
    rw [e]
    rfl

theorem placeCell_of_not_fits {s : State} (h : ¬CellFits s.cfg s.size.toNat s.cursor) : ∃ info, placeCell s = .error info := by
  have row := (toInt_bounds s.row).2
  rw [CellFits, State.cursor] at h
  rcases placeCell_cases s with ⟨line, col, -⟩ | ⟨wraps, row', col, -⟩ | ⟨v, -, e, -⟩
  · rw [cellAt_of_fits line] at h
    exact absurd ⟨col, row⟩ h
  · rw [cellAt_of_wraps wraps] at h
    exact absurd ⟨col, row'⟩ h
  · exact ⟨_, e⟩

theorem chr_keeps {s t : State} (hs : Running s) (h : BlockInv s) {a : Byte} (hx : exec (.chr a) s = .next t) {x y : Half}
    (off : ¬inRect (cellAt s.cfg s.size.toNat s.cursor).1.toNat (cellAt s.cfg s.size.toNat s.cursor).2.toNat
      (6 * s.size.toNat) (8 * s.size.toNat) x y) :
    t.panel.gram.read (pixelKey x y) = s.panel.gram.read (pixelKey x y) := by
  have size := h.size_pos
  by_cases drawn : symbolLegal a = true ∧ CellFits s.cfg s.size.toNat s.cursor
  · obtain ⟨ha, fits⟩ := drawn
    have small := s.size.isLt
    obtain ⟨⟨-, col⟩, ⟨-, row⟩, -⟩ := h.placeCell_bounds (placeCell_of_fits fits)
    rw [exec_chr_of_fits hs h ha fits, Host.Outcome.next.injEq] at hx
    have panel : t.panel = (nextCellItems s a).foldl (Panel.accept s.cfg s.pins.cs) s.panel := by rw [← hx]; rfl
    rw [panel, nextCellItems, cellItems]
    exact window_stream_keeps h.cfg _ _ (by positivity) (by positivity) (by omega) (by omega) _ off
  · obtain ⟨k, info, e⟩ : ∃ k info, commandRule (.chr a) s = s.raise k info := by
      by_cases ha : symbolLegal a = true
      · obtain ⟨info, e⟩ := placeCell_of_not_fits fun fits => drawn ⟨ha, fits⟩
        exact ⟨.range, info, by rw [commandRule, renderSymbol_legal ha, renderChar, e]⟩
      · exact ⟨_, _, renderSymbol_illegal ha s⟩
    rw [exec_running _ hs, e, Host.Outcome.next.injEq] at hx
    subst hx
    rfl

/-- Settles O54: each of the three is refused or sends one window and its stream. -/
theorem windowedCommandsStoreInTheirWindow : Obligations.WindowedCommandsStoreInTheirWindow := by
  intro s hs h
  exact ⟨fun _ _ _ _ _ _ hx _ _ off => rect_keeps hs h hx off, fun _ _ hx _ _ off => era_keeps hs h hx off,
    fun _ _ hx _ _ off => chr_keeps hs h hx off⟩

end Sys2Proof.Machine
end

section
/-! SUPPORT. Streams into a ready panel (20_memory.md rules R85, R93, R170, R182 and R183): what frame memory reads after a
window and its colours, and from this what the screen shows after RECT, CLR, INIT and CHR: O45 to O51. -/

namespace Sys2Proof.Machine

/-! ### The screen -/

theorem PanelReady.defined {c : Cfg} {cs : Latch Level} {P : Panel} (h : PanelReady c cs P) : P.undef = false :=
  Panel.defined_of_listening h.listening

/-- On a ready panel the screen is frame memory (R93). -/
theorem screen_of_ready {s : State} {cs : Latch Level} (h : PanelReady s.cfg cs s.panel) {x y : Half} (on : onScreen s.cfg x y) :
    screen s x y = s.panel.gram.read (pixelKey x y) := by
  simp [screen, h.defined, h.configured, on.1, on.2]

/-! ### The places of a stream -/

theorem streamKey_of_pixelAt {a : FastAxis} {col row w h k : Nat} {x y : Half}
    (hk : pixelAt a col row w h k = (x.toNat, y.toNat)) : streamKey a col row w h k = pixelKey x y := by
  simp [streamKey, hk]

/-- Every pixel of a rectangle is the place of a colour. -/
theorem streamKey_surj (a : FastAxis) {col row w h : Nat} {x y : Half} (inside : inRect col row w h x y) :
    ∃ k < w * h, streamKey a col row w h k = pixelKey x y := by
  obtain ⟨x0, x1, y0, y1⟩ := inside
  obtain ⟨k, hk, place⟩ := pixelAt_surj (a := a) x0 x1 y0 y1
  exact ⟨k, hk, streamKey_of_pixelAt place⟩

/-- No pixel outside a rectangle is the place of a colour. -/
theorem streamKey_inRect {a : FastAxis} {col row w h k : Nat} (hw : 0 < w) (hh : 0 < h) (hcol : col + w ≤ 65536)
    (hrow : row + h ≤ 65536) (hk : k < w * h) {x y : Half} (he : pixelKey x y = streamKey a col row w h k) :
    inRect col row w h x y := by
  obtain ⟨c0, c1, r0, r1⟩ := pixelAt_mem (a := a) (col := col) (row := row) hw hh hk
  obtain ⟨rfl, rfl⟩ := pixelKey_inj.1 he
  simp only [inRect, BitVec.toNat_ofNat]
  omega

theorem streamed_read_outside {a : FastAxis} {col row w h : Nat} (hw : 0 < w) (hh : 0 < h) (hcol : col + w ≤ 65536)
    (hrow : row + h ≤ 65536) {ps : List Half} (hlen : ps.length ≤ w * h) (g : Memory) {x y : Half}
    (off : ¬inRect col row w h x y) : (streamed a col row w h 0 ps g).read (pixelKey x y) = g.read (pixelKey x y) :=
  streamed_read_other fun _ hj he => off (streamKey_inRect hw hh hcol hrow (by omega) he)

theorem streamed_read_place {a : FastAxis} {col row w h : Nat} (hw : 0 < w) (hh : 0 < h) (hcol : col + w ≤ 65536)
    (hrow : row + h ≤ 65536) {ps : List Half} (hlen : ps.length ≤ w * h) (g : Memory) {k : Nat} (hk : k < ps.length) :
    (streamed a col row w h 0 ps g).read (streamKey a col row w h k) = .is ps[k] := by
  have colour := streamed_read (a := a) (k := 0) (g := g) hw hh hcol hrow (by omega) hk
  rwa [Nat.zero_add] at colour

/-! ### A window and its stream -/

/-- R170: a ready panel stays ready through a window on the screen and its colours, and stores them in scan order. -/
theorem PanelReady.takes_stream {c : Cfg} (hc : c.wf = true) {cs : Latch Level} {P : Panel} (ready : PanelReady c cs P)
    {col row w h : Nat} (hw : 0 < w) (hh : 0 < h) (hcol : col + w ≤ c.screenW) (hrow : row + h ≤ c.screenH) {ps : List Half}
    (hlen : ps.length ≤ w * h) {Q : Panel} (hQ : Q = (windowItems c col (col + w - 1) row (row + h - 1) ++ colorItems ps).foldl
      (Panel.accept c cs) P) :
    PanelReady c cs Q ∧ Q.mode = .memWrite ∧ Q.gram = streamed c.panelFastAxis col row w h 0 ps P.gram := by
  obtain ⟨-, hW, -, hH, -⟩ := Cfg.wf_screen hc
  have first : pixelAt c.panelFastAxis col row w h 0 = (col, row) := by
    cases c.panelFastAxis <;> simp [pixelAt]
  obtain ⟨x, y, lands⟩ := stream_lands ready.listening ready.configured hw hh hcol hrow (by omega) (by omega)
    (k := 0) (ps := ps) (by omega) P.gram (Nat.mul_pos hw hh)
  rw [first] at lands
  rw [List.foldl_append, window_arms hc ready.listening ready.mode, lands] at hQ
  subst hQ
  exact ⟨⟨ready.listening, ready.configured, .inr rfl⟩, rfl, rfl⟩

/-! ### CLR -/

/-- A fast clear is a stream of whole pixels (R182). -/
theorem clearItems_eq (c : Cfg) (b : Byte) : clearItems c b = windowItems c 0 (0 + c.screenW - 1) 0 (0 + c.screenH - 1) ++
    colorItems (List.replicate (2 * (c.screenW * c.screenH / 2)) (cat16 b b)) := by
  have pixel : wordItems (cat16 b b).toNat = List.replicate 2 (.dat b) := by
    rw [wordItems, ← hi8_eq, ← lo8_eq, hi8_cat16, lo8_cat16]
    rfl
  have colors (n : Nat) : colorItems (List.replicate n (cat16 b b)) = List.replicate (2 * n) (.dat b) := by
    rw [colorItems, List.flatMap_replicate, pixel, List.flatten_replicate_replicate, Nat.mul_comm]
  rw [colors, clearItems, Nat.zero_add, Nat.zero_add, ← Nat.mul_assoc]

theorem mul_add_lt {i j m n : Nat} (hj : j < n) (hi : i < m) : j * m + i < n * m :=
  calc j * m + i < j * m + m := Nat.add_lt_add_left hi _
    _ = (j + 1) * m := (Nat.succ_mul j m).symm
    _ ≤ n * m := Nat.mul_le_mul_right m hj

theorem mul_add_div_of_lt {i j m : Nat} (hi : i < m) : (j * m + i) / m = j := by
  rw [Nat.mul_comm, Nat.mul_add_div (by omega), Nat.div_eq_of_lt hi, Nat.add_zero]

/-- A pixel of the screen is the place of its number in scan order (R85). -/
theorem pixelAt_scanIndex {c : Cfg} {x y : Half} (on : onScreen c x y) :
    scanIndex c x y < c.screenW * c.screenH ∧
      streamKey c.panelFastAxis 0 0 c.screenW c.screenH (scanIndex c x y) = pixelKey x y := by
  obtain ⟨hx, hy⟩ := on
  cases ha : c.panelFastAxis with
  | col =>
    have index : scanIndex c x y = y.toNat * c.screenW + x.toNat := by simp [scanIndex, ha]
    refine ⟨by rw [index, Nat.mul_comm c.screenW]; exact mul_add_lt hy hx, streamKey_of_pixelAt ?_⟩
    rw [index, pixelAt, Nat.mul_add_mod_of_lt hx, mul_add_div_of_lt hx, Nat.zero_add, Nat.zero_add]
  | row =>
    have index : scanIndex c x y = x.toNat * c.screenH + y.toNat := by simp [scanIndex, ha]
    refine ⟨by rw [index]; exact mul_add_lt hx hy, streamKey_of_pixelAt ?_⟩
    rw [index, pixelAt, Nat.mul_add_mod_of_lt hy, mul_add_div_of_lt hy, Nat.zero_add, Nat.zero_add]

/-- A fast clear of a ready panel, under either scan order (R182, R183). -/
theorem PanelReady.takes_clear {c : Cfg} (hc : c.wf = true) {cs : Latch Level} {P : Panel} (ready : PanelReady c cs P) (b : Byte)
    {Q : Panel} (hQ : Q = (clearItems c b).foldl (Panel.accept c cs) P) :
    PanelReady c cs Q ∧ Q.mode = .memWrite ∧ ∀ x y, onScreen c x y → Q.gram.read (pixelKey x y) =
      if scanIndex c x y < 2 * (c.screenW * c.screenH / 2) then .is (b ++ b) else P.gram.read (pixelKey x y) := by
  obtain ⟨hW, hW', hH, hH', -⟩ := Cfg.wf_screen hc
  have even : 2 * (c.screenW * c.screenH / 2) ≤ c.screenW * c.screenH := Nat.mul_div_le _ _
  obtain ⟨ready', mode, gram⟩ := ready.takes_stream hc (col := 0) (row := 0) hW hH (by omega) (by omega)
    (ps := List.replicate (2 * (c.screenW * c.screenH / 2)) (cat16 b b)) (by rw [List.length_replicate]; exact even)
    (Q := Q) (by rw [hQ, clearItems_eq])
  refine ⟨ready', mode, fun x y on => ?_⟩
  obtain ⟨hk, key⟩ := pixelAt_scanIndex on
  rw [gram, ← key]
  split <;> rename_i covered
  · rw [streamed_read_place hW hH (by omega) (by omega) (by simpa using even) _ (by simpa using covered), List.getElem_replicate]
    rfl
  · refine streamed_read_other fun j hj he => ?_
    rw [List.length_replicate] at hj
    have := streamKey_inj hW hH (by omega) (by omega) hk (by omega) he
    omega

/-- A command that leaves the block running and whose panel has taken `items`. -/
def Shows (i : Instr) (s : State) (items : List Transaction) : Prop :=
  ∃ t, exec i s = .next t ∧ Running t ∧ t.cfg = s.cfg ∧ t.pins.cs = s.pins.cs ∧
    t.panel = items.foldl (Panel.accept s.cfg s.pins.cs) s.panel

theorem shows_clr {s : State} (hs : Running s) (h : BlockInv s) (a : Byte) : Shows (.clr a) s (clearItems s.cfg a) :=
  ⟨_, exec_clr hs h a, hs, rfl, rfl, rfl⟩

theorem clr_home_trace {s t : State} (hs : Running s) (h : BlockInv s) {a : Byte} (ht : exec (.clr a) s = .next t) :
    t.col = BitVec.ofNat 16 s.cfg.gap ∧ t.row = 2 ∧ t.trace = s.trace ++ fastClearEvents s.cfg a := by
  rw [exec_clr hs h a, Host.Outcome.next.injEq] at ht
  rw [← ht]
  exact ⟨rfl, rfl, driven_trace s _ (clearItems s.cfg a) .high a⟩

theorem clearItems_length (c : Cfg) (b : Byte) : (clearItems c b).length = 11 + 4 * (c.screenW * c.screenH / 2) := by
  rw [clearItems, List.length_append, windowItems_length, List.length_replicate]

/-- What CLR leaves on a ready panel's screen (R182, R183). -/
theorem clr_screen {s : State} (hs : Running s) (h : BlockInv s) (ready : PanelReady s.cfg s.pins.cs s.panel) (a : Byte) :
    ∃ t, exec (.clr a) s = .next t ∧ Running t ∧ t.cfg = s.cfg ∧ PanelReady t.cfg t.pins.cs t.panel ∧
      ∀ x y, onScreen s.cfg x y → screen t x y =
        if scanIndex s.cfg x y < 2 * (s.cfg.screenW * s.cfg.screenH / 2) then .is (a ++ a) else screen s x y := by
  obtain ⟨t, ht, ht', cfg, cs, panel⟩ := shows_clr hs h a
  obtain ⟨ready', -, pixels⟩ := ready.takes_clear h.cfg a panel
  rw [← cfg, ← cs] at ready'
  refine ⟨t, ht, ht', cfg, ready', fun x y on => ?_⟩
  rw [screen_of_ready ready on, screen_of_ready ready' (cfg ▸ on)]
  exact pixels x y on

/-- Settles O46: the clear's items on a ready panel. -/
theorem clrPaintsTheScreen : Obligations.ClrPaintsTheScreen := by
  intro a s hs h ready
  obtain ⟨t, ht, -, -, ready', pixels⟩ := clr_screen hs h ready a
  exact ⟨t, ht, ready', pixels⟩

/-- Settles O47: the second clear meets the same state but for the trace, and stores what stands there. -/
theorem clrTwiceIsClrOnce : Obligations.ClrTwiceIsClrOnce := by
  intro a s hs h ready
  obtain ⟨t, ht, ht', cfg, ready', pixels⟩ := clr_screen hs h ready a
  have keeps := h.exec ht
  obtain ⟨u, hu, -, -, ready'', pixels'⟩ := clr_screen ht' keeps ready' a
  obtain ⟨col, row, -⟩ := clr_home_trace hs h ht
  obtain ⟨col', row', trace⟩ := clr_home_trace ht' keeps hu
  refine ⟨t, u, fastClearEvents t.cfg a, ht, hu, trace, ?_, ?_, row'.trans row.symm, ready''.defined, fun x y on => ?_⟩
  · rw [(sends_clear keeps.cfg a).items t.pins (keeps.idle ht'.1).ddir, clearItems_length, cfg]
  · rw [col', col, cfg]
  · rw [pixels' x y (cfg.symm ▸ on), cfg, pixels x y on]
    split <;> rfl

/-! ### RECT -/

theorem shows_rect {s : State} (hs : Running s) (h : BlockInv s) {col row width height : Half} (hc : 0 ≤ col.toInt)
    (hr : 0 ≤ row.toInt) (hw : 0 < width.toInt) (hh : 0 < height.toInt) (color : Half) :
    Shows (.rect col row width height color) s (rectItems s.cfg col.toNat row.toNat width.toNat height.toNat color) :=
  ⟨_, exec_of_sends hs (h.idle hs.1) (commandRule_rect_of_checked hc hr hw hh color s) (sends_rect s.cfg hw hh color), hs, rfl,
    rfl, rfl⟩

theorem toInt_nonneg_of_toNat_le {v : Half} (h : v.toNat ≤ 32767) : 0 ≤ v.toInt := by
  rw [BitVec.toInt_eq_toNat_of_lt (by omega)]
  exact Int.natCast_nonneg _

/-- Settles O48: a stream of one colour into the rectangle. -/
theorem rectFillsItsRectangle : Obligations.RectFillsItsRectangle := by
  intro col row width height color s hs h ready hw hh hcol hrow
  obtain ⟨-, hW, -, hH, -⟩ := Cfg.wf_screen h.cfg
  have w0 := Nat.pos_of_ne_zero (toNat_ne_zero_of_pos hw)
  have h0 := Nat.pos_of_ne_zero (toNat_ne_zero_of_pos hh)
  obtain ⟨t, ht, -, cfg, cs, panel⟩ := shows_rect hs h (toInt_nonneg_of_toNat_le (v := col) (by omega))
    (toInt_nonneg_of_toNat_le (v := row) (by omega)) hw hh color
  obtain ⟨ready', -, gram⟩ := ready.takes_stream h.cfg w0 h0 hcol hrow (List.length_replicate ..).le panel
  rw [← cfg, ← cs] at ready'
  refine ⟨t, ht, ready', fun x y on => ?_⟩
  rw [screen_of_ready ready on, screen_of_ready ready' (cfg ▸ on), gram]
  refine ⟨fun inside => ?_, fun outside => ?_⟩
  · obtain ⟨k, hk, key⟩ := streamKey_surj s.cfg.panelFastAxis inside
    rw [← key, streamed_read_place w0 h0 (by omega) (by omega) (List.length_replicate ..).le _ (by simpa using hk),
      List.getElem_replicate]
  · exact streamed_read_outside w0 h0 (by omega) (by omega) (List.length_replicate ..).le _ outside

theorem colorItems_written (ps : List Half) : ∀ t ∈ colorItems ps, (∃ b, t = .cmd b) ∨ ∃ b, t = .dat b := by
  intro t ht
  simp only [colorItems, List.mem_flatMap, wordItems, List.mem_cons, List.not_mem_nil, or_false] at ht
  obtain ⟨v, -, rfl | rfl⟩ := ht
  · exact .inr ⟨_, rfl⟩
  · exact .inr ⟨_, rfl⟩

/-- R84: the first byte of a stream into a window that leaves the screen makes the panel undefined, and it takes no more. -/
theorem PanelReady.rejects_stream {c : Cfg} (hc : c.wf = true) {cs : Latch Level} {P : Panel} (ready : PanelReady c cs P)
    {c0 c1 r0 r1 : Nat} (invalid : Window.valid c ⟨.ofNat 16 c0, .ofNat 16 c1, .ofNat 16 r0, .ofNat 16 r1⟩ = false)
    {ps : List Half} (hne : ps ≠ []) {Q : Panel}
    (hQ : Q = (windowItems c c0 c1 r0 r1 ++ colorItems ps).foldl (Panel.accept c cs) P) : Q.undef = true ∧ Q.gram = P.gram := by
  obtain ⟨v, ps, rfl⟩ := List.exists_cons_of_ne_nil hne
  rw [List.foldl_append, window_arms hc ready.listening ready.mode] at hQ
  set A := P.streaming ⟨.ofNat 16 c0, .ofNat 16 c1, .ofNat 16 r0, .ofNat 16 r1⟩ (.ofNat 16 c0) (.ofNat 16 r0) P.gram with hA
  have listening : A.listening c cs = true := ready.listening
  have first (b : Byte) : A.accept c cs (.dat b) = { A with undef := true } := by
    rw [accept_dat_of_listening listening]
    refine acceptDat_unarmed rfl (fun _ w hw => ?_) b
    rw [← Option.some.inj (show some _ = some w from hw)]
    exact invalid
  have deaf : ({ A with undef := true } : Panel).listening c cs = false := Panel.deaf_of_undef c cs rfl
  have rest : Q = { A with undef := true } := by
    rw [hQ, colorItems, List.flatMap_cons, ← colorItems, wordItems, List.cons_append, List.foldl_cons, first]
    refine deaf_ignores deaf fun t ht => ?_
    rcases List.mem_append.1 ht with ht | ht
    · exact .inr ⟨_, List.mem_singleton.1 ht⟩
    · exact colorItems_written ps t ht
  rw [rest]
  exact ⟨rfl, rfl⟩

/-- Settles O49: the window is invalid, so that the stream is rejected; the block has no part in it. -/
theorem offScreenRectUndefinesThePanel : Obligations.OffScreenRectUndefinesThePanel := by
  intro col row width height color s hs h ready hc hr hw hh leaves
  have w0 := toNat_ne_zero_of_pos hw
  have h0 := toNat_ne_zero_of_pos hh
  have fits := And.intro (toNat_le_of_nonneg hc) (toNat_le_of_nonneg hr)
  have fits' := And.intro (toNat_le_of_nonneg hw.le) (toNat_le_of_nonneg hh.le)
  obtain ⟨t, ht, ht', -, -, panel⟩ := shows_rect hs h hc hr hw hh color
  have invalid : Window.valid s.cfg ⟨.ofNat 16 col.toNat, .ofNat 16 (col.toNat + width.toNat - 1), .ofNat 16 row.toNat,
      .ofNat 16 (row.toNat + height.toNat - 1)⟩ = false := by
    rw [Bool.eq_false_iff]
    intro hv
    obtain ⟨-, -, c1, r1⟩ := Window.valid_iff.1 hv
    simp only [BitVec.toNat_ofNat] at c1 r1
    omega
  have colours : List.replicate (width.toNat * height.toNat) color ≠ [] := by
    simp [w0, h0]
  obtain ⟨undef, gram⟩ := ready.rejects_stream h.cfg invalid colours panel
  exact ⟨t, ht, ht'.2, undef, gram⟩

/-! ### CHR -/

theorem shows_chr {s : State} (hs : Running s) (h : BlockInv s) {a : Byte} (ha : symbolLegal a = true)
    (fits : CellFits s.cfg s.size.toNat s.cursor) : Shows (.chr a) s (nextCellItems s a) :=
  ⟨_, exec_chr_of_fits hs h ha fits, hs, rfl, rfl, rfl⟩

theorem placeOf_eq (c : Cfg) (col row w h k : Nat) : placeOf c col row w h k =
    (.ofNat 16 (pixelAt c.panelFastAxis col row w h k).1, .ofNat 16 (pixelAt c.panelFastAxis col row w h k).2) := by
  cases ha : c.panelFastAxis <;> simp [placeOf, pixelAt, ha]

/-- Settles O50: the cell is at the cursor, and its colours are those of the closed form. -/
theorem chrLandsInItsCell : Obligations.ChrLandsInItsCell := by
  intro a s hs h ready ha ha' n line hcol hrow
  obtain ⟨-, hW, -, hH, -⟩ := Cfg.wf_screen h.cfg
  have size : 0 < n := h.size_pos
  have cell : cellAt s.cfg s.size.toNat s.cursor = s.cursor := cellAt_of_fits line
  have row : 0 ≤ s.row.toInt := le_trans (by decide) h.row
  have col' := toInt_eq_toNat_of_nonneg h.col
  have fits : CellFits s.cfg s.size.toNat s.cursor := by
    rw [CellFits, cell, State.cursor, col']
    exact ⟨by omega, (toInt_bounds s.row).2⟩
  obtain ⟨t, ht, -, cfg, cs, panel⟩ := shows_chr hs h (symbolLegal_iff.2 ⟨ha, ha'⟩) fits
  rw [nextCellItems, cellItems, cell, State.cursor, col', toInt_eq_toNat_of_nonneg row, Int.toNat_natCast,
    Int.toNat_natCast] at panel
  have area : 6 * n * (8 * n) = 48 * n * n := by ring
  have length : (glyphPixels s.cfg a n s.fg s.bg).length ≤ 6 * n * (8 * n) := by rw [glyphPixels_length, area]
  have w0 : 0 < 6 * n := by omega
  have h0 : 0 < 8 * n := by omega
  obtain ⟨ready', -, gram⟩ := ready.takes_stream h.cfg w0 h0 hcol hrow length panel
  rw [← cfg, ← cs] at ready'
  refine ⟨t, ht, ready', fun k hk => ?_, fun x y on outside => ?_⟩
  · have inside := pixelAt_mem (a := s.cfg.panelFastAxis) (col := s.col.toNat) (row := s.row.toNat) w0 h0 (area ▸ hk)
    have colour := streamed_read_place (a := s.cfg.panelFastAxis) (col := s.col.toNat) (row := s.row.toNat) w0 h0 (by omega)
      (by omega) length s.panel.gram (k := k) (by rwa [glyphPixels_length])
    intro q
    have on : onScreen s.cfg q.1 q.2 := by
      simp only [q, placeOf_eq, onScreen, BitVec.toNat_ofNat]
      omega
    rw [screen_of_ready ready' (cfg ▸ on), gram]
    simp only [q, placeOf_eq]
    rw [← streamKey, colour]
    simp [glyphPixels]
  · rw [screen_of_ready ready on, screen_of_ready ready' (cfg ▸ on), gram]
    exact streamed_read_outside w0 h0 (by omega) (by omega) length _ outside

/-- The number, in the stream of a character at scale `n`, of pixel `(hr, vr)` of the block of glyph column `g` and row `r`
(R191). -/
def glyphBlockIndex (n g hr r vr : Nat) : Nat := (g * n + hr) * (8 * n) + (r * n + vr)

theorem glyphBlockIndex_lt {n g hr r vr : Nat} (hg : g < 6) (hhr : hr < n) (hr8 : r < 8) (hvr : vr < n) :
    glyphBlockIndex n g hr r vr < 48 * n * n :=
  calc glyphBlockIndex n g hr r vr < 6 * n * (8 * n) := mul_add_lt (mul_add_lt hg hhr) (mul_add_lt hr8 hvr)
    _ = 48 * n * n := by ring

/-- Under the row-first scan order the pixel stands where its glyph column and row put it (R203). -/
theorem placeOf_glyphBlockIndex {c : Cfg} (ha : c.panelFastAxis = .row) (col row : Nat) {n r vr : Nat} (g hr : Nat) (hr8 : r < 8)
    (hvr : vr < n) : placeOf c col row (6 * n) (8 * n) (glyphBlockIndex n g hr r vr) =
      (.ofNat 16 (col + g * n + hr), .ofNat 16 (row + r * n + vr)) := by
  have inRun : r * n + vr < 8 * n := mul_add_lt hr8 hvr
  simp only [placeOf, ha, glyphBlockIndex]
  rw [mul_add_div_of_lt inRun, Nat.mul_add_mod_of_lt inRun, ← Nat.add_assoc, ← Nat.add_assoc]

/-- Its colour is the bit of that glyph column and row (R191). -/
theorem glyphPixel_glyphBlockIndex (c : Cfg) (sym : Byte) {n g hr r vr : Nat} (hhr : hr < n) (hr8 : r < 8) (hvr : vr < n)
    (fg bg : Half) : glyphPixel c sym n fg bg (glyphBlockIndex n g hr r vr) = if glyphBit c sym g r then fg else bg := by
  have column : glyphBlockIndex n g hr r vr / (8 * n * n) = g := by
    rw [glyphBlockIndex, ← Nat.div_div_eq_div_mul, mul_add_div_of_lt (mul_add_lt hr8 hvr), mul_add_div_of_lt hhr]
  have row : glyphBlockIndex n g hr r vr / n % 8 = r := by
    have regroup : glyphBlockIndex n g hr r vr = ((g * n + hr) * 8 + r) * n + vr := by
      rw [glyphBlockIndex]
      ring
    rw [regroup, mul_add_div_of_lt hvr, Nat.mul_add_mod_of_lt hr8]
  rw [glyphPixel, column, row]

/-- Settles O51: O50 at the colours of one glyph block. -/
theorem chrIsUprightUnderRowOrder : Obligations.ChrIsUprightUnderRowOrder := by
  intro a s hs h ready axis ha ha' n line hcol hrow
  obtain ⟨t, ht, -, lands, -⟩ := chrLandsInItsCell a s hs h ready ha ha' line hcol hrow
  refine ⟨t, ht, fun g hr r vr hg hhr hr8 hvr => ?_⟩
  have pixel := lands _ (glyphBlockIndex_lt hg hhr hr8 hvr)
  dsimp only at pixel
  rwa [placeOf_glyphBlockIndex (n := s.size.toNat) axis _ _ g hr hr8 hvr,
    glyphPixel_glyphBlockIndex (n := s.size.toNat) _ _ hhr hr8 hvr] at pixel

/-! ### INIT -/

/-- A reset item as the panel sees it: at the active level it leaves reset, at the other it enters it (R78). -/
theorem leaveReset_accept_rstALevel (c : Cfg) (cs : Latch Level) (P : Panel) :
    (P.accept c cs (.rstLevel c.rstALevel)).leaveReset = P.leaveReset := by
  rw [accept_rstALevel]
  split <;> rfl

theorem accept_rstLevel_pulse (c : Cfg) (cs cs' : Latch Level) (P : Panel) :
    (P.accept c cs (.rstLevel c.rstALevel.other)).accept c cs' (.rstLevel c.rstALevel) = P.leaveReset := by
  rw [accept_rstLevel_of_ne (Level.other_ne _), accept_rstALevel]
  rfl

theorem accept_wait (c : Cfg) (cs : Latch Level) (P : Panel) (n : Nat) : P.accept c cs (.wait n) = P := rfl

theorem accept_csLevel (c : Cfg) (cs : Latch Level) (P : Panel) (l : Level) : P.accept c cs (.csLevel l) = P := rfl

/-- The reset pulse train takes any panel through reset, whichever of its level items it makes (R78, R164). -/
theorem panelAfter_bringUpLines (c : Cfg) {p : Pins} (hw : p.wr ≠ .is .low) (P : Panel) :
    panelAfter c p P (bringUpLines c) = P.leaveReset := by
  have h1 : c.rstALevel ≠ c.rstALevel.other := (Level.other_ne _).symm
  have h2 := Level.other_ne c.rstALevel
  by_cases hr : p.rst = .is c.rstALevel <;> by_cases hcs : p.cs = .is c.csIdleLevel <;>
    simp [bringUpLines, panelAfter, Panel.follow, transactionOf, Pins.apply, hr, hcs, h1, h2, hw, accept_wait, accept_csLevel,
      accept_rstLevel_pulse, leaveReset_accept_rstALevel]

theorem noCs_afterLines {c : Cfg} (hc : c.wf = true) (l : Level) : PinEvent.set .cs l ∉
    c.initSeq.flatMap powerOnEntry ++ (.wait c.tWake :: fastClearEvents c c.initClearByte) := by
  obtain ⟨-, -, -, -, -, -, -, hlen, -⟩ := Cfg.wf_bounds hc
  obtain ⟨rs, d, sends⟩ := sends_powerOn c.initSeq (by rw [← List.length_pos_iff]; omega)
  simp [List.mem_append, sends.noCs l, (sends_clear hc c.initClearByte).noCs l]

/-- INIT's panel is one that left reset and took the power-on sequence and the clear (R164). -/
theorem panelAfter_initEvents {c : Cfg} (hc : c.wf = true) {p : Pins} (hw : p.wr ≠ .is .low) (P : Panel) :
    panelAfter c p P (initEvents c) = (powerOnItems c).foldl (Panel.accept c (.is c.csIdleLevel)) P.leaveReset := by
  rw [initEvents_eq, panelAfter_append, panelAfter_bringUpLines c hw, pins_bringUpLines,
    panelAfter_eq_foldl c (noCs_afterLines hc), transactions_afterLines hc rfl]

/-- A panel whose chip-select does not gate it off at the idle level listens after reset (R78, R79). -/
theorem leaveReset_listening {c : Cfg} (select : c.panelCsActive = none ∨ c.panelCsActive = some c.csIdleLevel) (P : Panel) :
    P.leaveReset.listening c (.is c.csIdleLevel) = true := by
  rcases select with e | e <;> simp [Panel.listening, Panel.leaveReset, e]

/-- The power-on sequence makes a panel fresh from reset ready, and the clear streams into it (R80, R87, R182). -/
theorem powerOn_clears {c : Cfg} (hc : c.wf = true) (select : c.panelCsActive = none ∨ c.panelCsActive = some c.csIdleLevel)
    (P : Panel) {Q : Panel} (hQ : Q = (powerOnItems c).foldl (Panel.accept c (.is c.csIdleLevel)) P.leaveReset) :
    PanelReady c (.is c.csIdleLevel) Q ∧ Q.mode = .memWrite ∧ ∀ x y, onScreen c x y → Q.gram.read (pixelKey x y) =
      if scanIndex c x y < 2 * (c.screenW * c.screenH / 2) then .is (c.initClearByte ++ c.initClearByte) else .x := by
  have listening := leaveReset_listening select P
  have ready : PanelReady c (.is c.csIdleLevel) { P.leaveReset with cfgDone := List.replicate 5 true } :=
    ⟨listening, by simp [Panel.configured], .inl rfl⟩
  rw [powerOnItems, List.foldl_append, powerOn_taken hc listening rfl rfl rfl, List.foldl_cons, accept_wait] at hQ
  exact ready.takes_clear hc c.initClearByte hQ

/-- Settles O45: INIT's items after the reset pulse train, on the panel as it left reset. -/
theorem initLeavesAClearedScreen : Obligations.InitLeavesAClearedScreen := by
  intro s h hf select
  obtain ⟨hw, -⟩ := h.bringUp_levels
  have levels := pinsAfter_initEvents h.cfg s.pins
  have cs : (pinsAfter s.pins (initEvents s.cfg)).cs = .is s.cfg.csIdleLevel := by rw [levels]
  obtain ⟨ready, mode, pixels⟩ := powerOn_clears h.cfg select s.panel (panelAfter_initEvents h.cfg hw s.panel)
  rw [← cs] at ready
  refine ⟨_, exec_init hf, ready, mode, fun x y on => ?_⟩
  rw [← pixels x y on]
  exact screen_of_ready ready on

end Sys2Proof.Machine
end
